-- ==== Sys2Proof/Word.lean ====
section
/-! DEFINITION. The bit-vector types of the coding unit and the enumeration of its four fields. -/

namespace Sys2Proof

/-- A host-visible register, stream index, seed or memory address: 64 bits (R5). -/
abbrev Word := BitVec 64

/-- A byte of memory (R40). -/
abbrev Byte := BitVec 8

/-- Storage of one field element: 16 bits, the low `w` of them used (R26). -/
abbrev Elem := BitVec 16

/-- A command word (R50). -/
abbrev CommandWord := BitVec 32

/-- The four fields, in the order of their ids 0 to 3 (R61). -/
inductive FieldId where
  | binary
  | binary4
  | binary8
  | binary16
  deriving DecidableEq, Repr

end Sys2Proof
end

