-- ==== Sys2Proof/Config.lean ====
section
/-! DEFINITION. What an implementation of the unit fixes and the spec leaves open, and the free values. -/

namespace Sys2Proof.Config

/-- The number of byte addresses: addresses have 64 bits (R5, R40). -/
def addressSpace : Nat := 2 ^ 64

/-- `SYMMAX`, the largest symbol size in bytes (R5). -/
def symMax : Nat := 2 ^ 32 - 1

/-- The largest value the parameter `CAP` may have (R5, U1). -/
def capMax : Nat := 65535

/-- The value of `CAP` in `State.reset`. DESIGN CHOICE (log 2): R5 leaves `CAP` open; unsafe for a claim
about `State.reset` alone, while a claim about every state is a claim about every `CAP`. -/
def powerOnCap : Nat := 64

/-- Base and size of the one mapped region of `State.reset`, the whole address space. DESIGN CHOICE
(log 3): R5 leaves `Mapped` open; unsafe for a claim about `State.reset` alone. -/
def powerOnMapped : Nat × Nat := (0, addressSpace)

/-- What a byte of memory that no entry of the memory list names reads as. DESIGN CHOICE (log 4): R41
fixes no initial contents; unsafe for a claim about `State.reset` alone. -/
def unwrittenByte : Byte := 0

/-- The free values of U4: the `n`-th unspecified byte of a run. It has no body, so nothing can be proved
about its value. DESIGN CHOICE (log 5); safe. -/
opaque freeByte : Nat → Byte

end Sys2Proof.Config
end

