-- ==== Sys2Proof/Syntax.lean ====
section
/-! DEFINITION. The seventeen commands (R51), the named registers (R19), the host's actions (R9, R20), and
the assembler's lines and pseudo-instructions (R56, R57). -/

namespace Sys2Proof

/-- The commands of R51, in the order of spec/opcode_table.json. A command word carries no operand
(R50, R53), so no constructor has an argument. -/
inductive Instr where
  | nop
  | reset
  | config
  | gfadd
  | gfmul
  | gfinv
  | vmadd
  | setSeed
  | generate
  | push
  | pop
  | setWindow
  | writeSymbol
  | writeSourceSymbol
  | readSymbol
  | readSourceSymbol
  | qstate
  deriving DecidableEq, Repr

/-- The registers of the map of R19, in the order of their offsets. -/
inductive Reg where
  | cmd
  | status
  | res
  | finfo
  | a0
  | a1
  | a2
  | a3
  | field
  | symsize
  | capacity
  | lower
  | upper
  | nsyms
  | wlower
  | wsyms
  | coefbytes
  | seed
  | rank
  | ndec
  | npart
  | nmiss
  deriving DecidableEq, Repr

/-- One action of the host (R9). A register is named by its byte offset, as the host's bus sees it (R19);
`hardReset` is the hardware reset of R160 (a). -/
inductive HostAction where
  | writeReg (offset : Nat) (value : Word)
  | readReg (offset : Nat)
  | memWrite (addr : Word) (bytes : List Byte)
  | memRead (addr : Word) (count : Nat)
  | hardReset
  deriving DecidableEq, Repr

/-- What a host read returned: a register's value or a sequence of bytes, lowest address first. -/
inductive HostValue where
  | reg (value : Word)
  | bytes (values : List Byte)
  deriving DecidableEq, Repr

/-- One line of a program text (R56), after its tokens have been read. -/
inductive Line where
  | command (i : Instr) (operands : List Word)
  | rd (r : Reg)
  | mw (addr : Word) (bytes : List Byte)
  | mr (addr : Word) (count : Nat)
  deriving DecidableEq, Repr

/-- The pseudo-instructions of R57. -/
inductive Pseudo where
  | vadd (dst src len : Word)
  | rank
  | symbolsDecoded
  | symbolsPartiallyDecoded
  | symbolsMissing
  | isSymbolDecoded (index : Word)
  | coefficientVectorSize
  | encodeSeeded (seed sym coef : Word)
  | decodeSeeded (seed sym coef : Word)
  deriving DecidableEq, Repr

/-- The number of operands of a command, `A0` first (R51). -/
def Instr.arity : Instr → Nat
  | .nop => 0
  | .reset => 0
  | .config => 2
  | .gfadd => 2
  | .gfmul => 2
  | .gfinv => 1
  | .vmadd => 4
  | .setSeed => 1
  | .generate => 1
  | .push => 1
  | .pop => 0
  | .setWindow => 2
  | .writeSymbol => 2
  | .writeSourceSymbol => 2
  | .readSymbol => 2
  | .readSourceSymbol => 2
  | .qstate => 1

/-- The mnemonic of a command (R51, R56). -/
def Instr.mnemonic : Instr → String
  | .nop => "NOP"
  | .reset => "RESET"
  | .config => "CONFIG"
  | .gfadd => "GFADD"
  | .gfmul => "GFMUL"
  | .gfinv => "GFINV"
  | .vmadd => "VMADD"
  | .setSeed => "SET_SEED"
  | .generate => "GENERATE"
  | .push => "PUSH"
  | .pop => "POP"
  | .setWindow => "SET_WINDOW"
  | .writeSymbol => "WRITE_SYMBOL"
  | .writeSourceSymbol => "WRITE_SOURCE_SYMBOL"
  | .readSymbol => "READ_SYMBOL"
  | .readSourceSymbol => "READ_SOURCE_SYMBOL"
  | .qstate => "QSTATE"

/-- The name of a register (R19). -/
def Reg.name : Reg → String
  | .cmd => "CMD"
  | .status => "STATUS"
  | .res => "RES"
  | .finfo => "FINFO"
  | .a0 => "A0"
  | .a1 => "A1"
  | .a2 => "A2"
  | .a3 => "A3"
  | .field => "FIELD"
  | .symsize => "SYMSIZE"
  | .capacity => "CAPACITY"
  | .lower => "LOWER"
  | .upper => "UPPER"
  | .nsyms => "NSYMS"
  | .wlower => "WLOWER"
  | .wsyms => "WSYMS"
  | .coefbytes => "COEFBYTES"
  | .seed => "SEED"
  | .rank => "RANK"
  | .ndec => "NDEC"
  | .npart => "NPART"
  | .nmiss => "NMISS"

end Sys2Proof
end

