-- ==== Sys2Proof/WellFormed.lean ====
section
/-! DEFINITION. When a term of the syntax is well formed. A command has no operand in its word, so every
`Instr` is; the checks are those of the host's accesses (R20, R40) and of program lines (R51, R56). -/

namespace Sys2Proof

/-- Every command is well formed: the word has no field but the opcode (R50). -/
def Instr.wellFormed : Instr → Bool := fun _ => true

/-- A register access the spec gives a meaning to: an offset that is a multiple of 8 below 0x100 (R20 (a)). -/
def validOffset (offset : Nat) : Bool := offset % 8 == 0 && decide (offset < 0x100)

/-- A byte range inside the address space: it does not wrap past the top (R44). -/
def rangeFits (addr count : Nat) : Bool := decide (addr + count ≤ Config.addressSpace)

/-- A host action within the register space and the address space (R20, R40). -/
def HostAction.wellFormed : HostAction → Bool
  | .writeReg offset _ => validOffset offset
  | .readReg offset => validOffset offset
  | .memWrite addr bytes => rangeFits addr.toNat bytes.length
  | .memRead addr count => rangeFits addr.toNat count
  | .hardReset => true

/-- A program line with as many operands as its command has (R51, R56). -/
def Line.wellFormed : Line → Bool
  | .command i operands => operands.length == i.arity
  | .rd _ => true
  | .mw addr bytes => rangeFits addr.toNat bytes.length
  | .mr addr count => rangeFits addr.toNat count

end Sys2Proof
end

