-- ==== Sys2Proof/Decode.lean ====
section
/-! DEFINITION. The decoder and the encoder of command words (R50 to R55), and the offsets of the register
map (R19). -/

namespace Sys2Proof

/-- Why a command word is illegal (R54). Both reasons raise `F_ILLEGAL`. -/
inductive DecodeError where
  | reservedBits
  | undefinedOpcode
  deriving DecidableEq, Repr

/-- The field `op`, bits 7:0 (R50). -/
def CommandWord.op (cw : CommandWord) : BitVec 8 := cw.extractLsb' 0 8

/-- The field `rsv`, bits 31:8 (R50). -/
def CommandWord.rsv (cw : CommandWord) : BitVec 24 := cw.extractLsb' 8 24

/-- The opcode map of R51. -/
def opcodeMap : List (BitVec 8 × Instr) :=
  [ (0x00, .nop), (0x01, .reset), (0x02, .config),
    (0x10, .gfadd), (0x11, .gfmul), (0x12, .gfinv), (0x13, .vmadd),
    (0x20, .setSeed), (0x21, .generate),
    (0x30, .push), (0x31, .pop), (0x32, .setWindow),
    (0x40, .writeSymbol), (0x41, .writeSourceSymbol),
    (0x50, .readSymbol), (0x51, .readSourceSymbol), (0x52, .qstate) ]

/-- The command a word stands for, or why it stands for none (R51, R52, R54). -/
def decode (cw : CommandWord) : Except DecodeError Instr :=
  if CommandWord.rsv cw ≠ 0 then .error .reservedBits
  else match opcodeMap.find? (fun row => row.1 == CommandWord.op cw) with
    | some row => .ok row.2
    | none => .error .undefinedOpcode

/-- The command word of a command: its opcode zero-extended to 32 bits (R51). -/
def encode : Instr → CommandWord
  | .nop => 0x00000000
  | .reset => 0x00000001
  | .config => 0x00000002
  | .gfadd => 0x00000010
  | .gfmul => 0x00000011
  | .gfinv => 0x00000012
  | .vmadd => 0x00000013
  | .setSeed => 0x00000020
  | .generate => 0x00000021
  | .push => 0x00000030
  | .pop => 0x00000031
  | .setWindow => 0x00000032
  | .writeSymbol => 0x00000040
  | .writeSourceSymbol => 0x00000041
  | .readSymbol => 0x00000050
  | .readSourceSymbol => 0x00000051
  | .qstate => 0x00000052

/-- The opcode of a command, as fault entry records it in `FOP` (R143). -/
def Instr.opcode (i : Instr) : BitVec 8 := CommandWord.op (encode i)

/-- The command the decoder reads from the opcode table's `nbits` bits `w`; the bits above are 0. A command
word is bits 31:0 of the value written to `CMD` (R18), so it has no byte layout of its own. -/
def decodeTableWord (nbits w : Nat) : Option Instr :=
  match decode (BitVec.ofNat 32 (w % 2 ^ nbits)) with
  | .ok i => some i
  | .error _ => none

/-- The byte offset of a register (R19). -/
def Reg.offset : Reg → Nat
  | .cmd => 0x00
  | .status => 0x08
  | .res => 0x10
  | .finfo => 0x18
  | .a0 => 0x20
  | .a1 => 0x28
  | .a2 => 0x30
  | .a3 => 0x38
  | .field => 0x40
  | .symsize => 0x48
  | .capacity => 0x50
  | .lower => 0x58
  | .upper => 0x60
  | .nsyms => 0x68
  | .wlower => 0x70
  | .wsyms => 0x78
  | .coefbytes => 0x80
  | .seed => 0x88
  | .rank => 0x90
  | .ndec => 0x98
  | .npart => 0xA0
  | .nmiss => 0xA8

/-- The registers in the order of the map (R19). -/
def Reg.all : List Reg :=
  [ .cmd, .status, .res, .finfo, .a0, .a1, .a2, .a3, .field, .symsize, .capacity, .lower, .upper,
    .nsyms, .wlower, .wsyms, .coefbytes, .seed, .rank, .ndec, .npart, .nmiss ]

/-- The register at a byte offset; none at the reserved offsets 0xB0 to 0xF8 (R19). -/
def regAt (offset : Nat) : Option Reg := Reg.all.find? (fun r => r.offset == offset)

end Sys2Proof
end

