-- ==== Sys2Proof/Machine/Field.lean ====
section
/-! DEFINITION. The field layer as pure functions: element operations and packed buffers (R60 to R70, R77). -/

namespace Sys2Proof.Machine

/-- `w`, the bits of one element (R61). -/
def width : FieldId → Nat
  | .binary => 1
  | .binary4 => 4
  | .binary8 => 8
  | .binary16 => 16

/-- `P_w` as a number, bit `w` included (R62); binary needs none. -/
def poly : FieldId → BitVec 32
  | .binary => 0
  | .binary4 => 0x13
  | .binary8 => 0x11D
  | .binary16 => 0x1100B

/-- `emask = 2^w - 1` (R61). -/
def elemMask : FieldId → Elem
  | .binary => 0x1
  | .binary4 => 0xF
  | .binary8 => 0xFF
  | .binary16 => 0xFFFF

/-- `add(a, b)` (R63). -/
def gfAdd (a b : Elem) : Elem := a ^^^ b

/-- The carry-less product of `a` and the low `n` bits of `b`: the first loop of R64. -/
def clmul (a b : BitVec 32) : Nat → BitVec 32
  | 0 => 0
  | n + 1 => if b.getLsbD n then clmul a b n ^^^ (a <<< n) else clmul a b n

/-- The second loop of R64 from `i = w + n - 1` down to `i = w`. -/
def polyReduce (f : FieldId) (r : BitVec 32) : Nat → BitVec 32
  | 0 => r
  | n + 1 => polyReduce f (if r.getLsbD (width f + n) then r ^^^ (poly f <<< n) else r) n

/-- `mul(a, b)` (R64). The rule gives it for elements below `2^w`; bits above are ignored (log 14). -/
def gfMul (f : FieldId) (a b : Elem) : Elem :=
  (polyReduce f
    (clmul ((a &&& elemMask f).setWidth 32) ((b &&& elemMask f).setWidth 32) (width f))
    (width f - 1)).setWidth 16

/-- The loop of R65, for at most `fuel` bits of the exponent `e`. -/
def gfPow (f : FieldId) (r base : Elem) (e : Nat) : Nat → Elem
  | 0 => r
  | fuel + 1 =>
    if e = 0 then r
    else gfPow f (if e % 2 = 1 then gfMul f r base else r) (gfMul f base base) (e / 2) fuel

/-- `inv(a)` for a nonzero element: the power `2^w - 2` (R65). No rule applies it to 0 (log 13). -/
def gfInv (f : FieldId) (a : Elem) : Elem := gfPow f 1 a (2 ^ width f - 2) (width f)

/-- `Elem(buf, k)` (R66). -/
def elemAt (f : FieldId) (buf : List Byte) (k : Nat) : Elem :=
  match f with
  | .binary => ((buf.getD (k / 8) 0).setWidth 16 >>> (k % 8)) &&& 0x1
  | .binary4 =>
    if k % 2 = 0 then ((buf.getD (k / 2) 0).extractLsb' 0 4).setWidth 16
    else ((buf.getD (k / 2) 0).extractLsb' 4 4).setWidth 16
  | .binary8 => (buf.getD k 0).setWidth 16
  | .binary16 => (buf.getD (2 * k + 1) 0) ++ (buf.getD (2 * k) 0)

/-- `SetElem(buf, k, v)` (R66). -/
def setElem (f : FieldId) (buf : List Byte) (k : Nat) (v : Elem) : List Byte :=
  match f with
  | .binary =>
    let b := buf.getD (k / 8) 0
    buf.set (k / 8) ((b &&& ~~~(1#8 <<< (k % 8))) ||| ((v &&& 0x1).setWidth 8 <<< (k % 8)))
  | .binary4 =>
    let b := buf.getD (k / 2) 0
    if k % 2 = 0 then buf.set (k / 2) (b.extractLsb' 4 4 ++ v.setWidth 4)
    else buf.set (k / 2) (v.setWidth 4 ++ b.extractLsb' 0 4)
  | .binary8 => buf.set k (v.setWidth 8)
  | .binary16 => (buf.set (2 * k) (v.setWidth 8)).set (2 * k + 1) ((v >>> 8).setWidth 8)

/-- `NElems(n) = (8 * n) div w` (R67). -/
def numElems (f : FieldId) (n : Nat) : Nat := 8 * n / width f

/-- `CoefBytes(ws) = (ws * w + 7) div 8` (R70). -/
def coefBytes (f : FieldId) (ws : Nat) : Nat := (ws * width f + 7) / 8

/-- One bit of a byte as a binary element. -/
def bitElem (b : Byte) (k : Nat) : Elem := (b.setWidth 16 >>> k) &&& 0x1

/-- A byte whose bit `k` is the low bit of `g k`. -/
def packBits (g : Nat → Elem) : Byte :=
  (g 7).setWidth 1 ++ (g 6).setWidth 1 ++ (g 5).setWidth 1 ++ (g 4).setWidth 1 ++
    (g 3).setWidth 1 ++ (g 2).setWidth 1 ++ (g 1).setWidth 1 ++ (g 0).setWidth 1

/-- The bytes whose elements are `op` of the same-numbered elements of two buffers, for pairs of bytes that
hold one binary16 element each, the low byte first; a last odd byte stays as it is (R66, R67). -/
def zipPairs (op : Elem → Elem → Elem) : List Byte → List Byte → List Byte
  | a0 :: a1 :: as, b0 :: b1 :: bs =>
    (op (a1 ++ a0) (b1 ++ b0)).setWidth 8 :: ((op (a1 ++ a0) (b1 ++ b0)) >>> 8).setWidth 8 ::
      zipPairs op as bs
  | as, _ => as

/-- The buffer whose element `k` is `op` of the elements `k` of two buffers of one length: one pass over the
bytes. That it is the element-by-element reading of R66 is the statement `PackedVectorsAreElementwise`. -/
def zipElems (f : FieldId) (op : Elem → Elem → Elem) (as bs : List Byte) : List Byte :=
  match f with
  | .binary => List.zipWith (fun a b => packBits (fun k => op (bitElem a k) (bitElem b k))) as bs
  | .binary4 =>
    List.zipWith
      (fun a b =>
        (op ((a.extractLsb' 4 4).setWidth 16) ((b.extractLsb' 4 4).setWidth 16)).setWidth 4 ++
          (op ((a.extractLsb' 0 4).setWidth 16) ((b.extractLsb' 0 4).setWidth 16)).setWidth 4)
      as bs
  | .binary8 => List.zipWith (fun a b => (op (a.setWidth 16) (b.setWidth 16)).setWidth 8) as bs
  | .binary16 => zipPairs op as bs

/-- `VecMAdd(dst, src, s)` (R68). -/
def vecMAdd (f : FieldId) (dst src : List Byte) (s : Elem) : List Byte :=
  zipElems f (fun d x => gfAdd d (gfMul f s x)) dst src

/-- `VecScale(buf, s)` (R69). -/
def vecScale (f : FieldId) (buf : List Byte) (s : Elem) : List Byte :=
  zipElems f (fun x _ => gfMul f s x) buf buf

/-- `LinComb(c, B_0, ..., B_(k-1))` over buffers of `n` bytes (R77), the coefficients paired with their
buffers. -/
def linComb (f : FieldId) (n : Nat) (terms : List (Elem × List Byte)) : List Byte :=
  terms.foldl (fun acc t => vecMAdd f acc t.2 t.1) (List.replicate n 0)

end Sys2Proof.Machine
end

