-- ==== Sys2Proof/Machine/State.lean ====
section
/-! DEFINITION. The state of one unit instance with the memory it reaches and the host's list of actions,
as plain data (R14, R41, R9). -/

namespace Sys2Proof.Machine

/-- The fault causes of R141, in the order of their codes 0 to 10. -/
inductive Cause where
  | none
  | illegal
  | state
  | config
  | window
  | empty
  | capacity
  | index
  | invzero
  | operand
  | bus
  deriving DecidableEq, Repr

/-- One entry of the slot table: `ADDR[p]`, `PIV[p]`, `FRZ[p]` (R25). -/
structure Slot where
  addr : Word
  piv : Bool
  frz : Bool
  deriving DecidableEq, Repr

/-- A run of mapped byte addresses `[base, base + size)`. -/
structure Region where
  base : Nat
  size : Nat
  deriving DecidableEq, Repr

/-- Memory (R41). `cells` lists the bytes that differ from `Config.unwrittenByte`; `scratch` lists the
addresses whose byte is unspecified (U4), each with the number of its free value. -/
structure Memory where
  cells : List Host.Cell
  scratch : List (Nat × Nat)
  deriving DecidableEq, Repr

/-- Everything the spec gives the machine. The fields `cap` and `mapped` are the spec's two open parameters
(R5); `program` is what is left of the host's list of actions (R9); `freeNext` and `returned` are the
model's own. -/
structure State where
  /-- `A0` to `A3` (R15). -/
  a0 : Word
  a1 : Word
  a2 : Word
  a3 : Word
  /-- `RES` (R16). -/
  res : Word
  /-- `FINFO` (R21). -/
  finfo : Word
  /-- `STATUS.READY`, `STATUS.FAULT`, `STATUS.ADV` (R23). -/
  ready : Bool
  fault : Bool
  adv : Bool
  /-- `STATUS.CAUSE` and `STATUS.FOP` (R23). -/
  cause : Cause
  fop : BitVec 8
  /-- `FIELD` and `SYMSIZE` (R22). -/
  field : FieldId
  symsize : BitVec 32
  /-- `LOWER` and `UPPER` (R36). -/
  lower : Word
  upper : Word
  /-- `WLOWER` and `WSYMS` (R37). -/
  wlower : Word
  wsyms : Word
  /-- `SEED` (R24). -/
  seed : Word
  /-- The slot table by physical index, all-zero entries unlisted (R25). -/
  slots : List (Nat × Slot)
  /-- The coefficient store by physical row and column, zero cells unlisted (R26). -/
  coef : List ((Nat × Nat) × Elem)
  /-- The parameter `CAP` (R5). -/
  cap : Nat
  /-- The parameter `Mapped` (R5, R41). -/
  mapped : List Region
  /-- Memory (R41). -/
  mem : Memory
  /-- The number of the next free value (U4). -/
  freeNext : Nat
  /-- The host's actions still to be performed (R9). -/
  program : List HostAction
  /-- What the host's reads have returned so far, oldest first. -/
  returned : List HostValue
  deriving DecidableEq, Repr

/-- How a step can stop with a fault. The unit's own ten faults are no such stop: fault entry (R143) is a
next state. -/
inductive Fault where
  /-- Raised by the host's memory reads and writes when the range runs past the last address, `2^64 - 1`: the
  bytes beyond it do not exist (R40). Safe. -/
  | hostPastTop
  deriving DecidableEq, Repr

/-- How a step can be refused. -/
inductive Refusal where
  /-- An instruction that has no meaning yet; raised by no arm of `exec`. Safe. -/
  | notModelled (mnemonic : String)
  /-- Buffers that overlap in one of the ways R47 lists, `unspecified(U3)`; raised by `VMADD`, `GENERATE`,
  `PUSH`, `WRITE_SYMBOL`, `WRITE_SOURCE_SYMBOL`, `READ_SYMBOL`, `READ_SOURCE_SYMBOL` after every fault check
  has passed. Safe. -/
  | overlappingBuffers
  /-- A register access at an offset that is not a multiple of 8 below 0x100, `unspecified(U9)`; raised by
  the host's register reads and writes. Safe. -/
  | registerAccess
  deriving DecidableEq, Repr

/-- The machine right after reset (R161): every cell of the unit is 0. The parameters, memory and the
model's own fields hold the values that `Config` and log 1 to log 5 and log 9 name. -/
def State.reset : State where
  a0 := 0
  a1 := 0
  a2 := 0
  a3 := 0
  res := 0
  finfo := 0
  ready := false
  fault := false
  adv := false
  cause := .none
  fop := 0
  field := .binary
  symsize := 0
  lower := 0
  upper := 0
  wlower := 0
  wsyms := 0
  seed := 0
  slots := []
  coef := []
  cap := Config.powerOnCap
  mapped := [⟨Config.powerOnMapped.1, Config.powerOnMapped.2⟩]
  mem := ⟨[], []⟩
  freeNext := 0
  program := []
  returned := []

end Sys2Proof.Machine
end

