-- ==== Sys2Proof/Machine/Table.lean ====
section
/-! DEFINITION. Sparse tables: lists of keys and values in one canonical form. Memory, the slot table and the
coefficient store are such tables (log 11). -/

namespace Sys2Proof.Machine

variable {κ β : Type} [DecidableEq κ]

/-- The value listed under a key. -/
def tableFind : List (κ × β) → κ → Option β
  | [], _ => none
  | (k, v) :: m, a => if a = k then some v else tableFind m a

/-- The value of a cell: what is listed under its key, `d` where nothing is. -/
def tableGet (d : β) (m : List (κ × β)) (a : κ) : β := (tableFind m a).getD d

/-- The table without an entry for `a`. -/
def tableErase (m : List (κ × β)) (a : κ) : List (κ × β) := m.filter (fun e => decide (e.1 ≠ a))

/-- The table with an entry for `a` put in front of the first larger key. -/
def tableInsert (lt : κ → κ → Bool) : List (κ × β) → κ → β → List (κ × β)
  | [], a, v => [(a, v)]
  | (k, w) :: m, a, v => if lt a k then (a, v) :: (k, w) :: m else (k, w) :: tableInsert lt m a v

/-- The table with cell `a` set to `v`; a cell that holds `d` is not listed. -/
def tablePut [DecidableEq β] (lt : κ → κ → Bool) (d : β) (m : List (κ × β)) (a : κ) (v : β) :
    List (κ × β) :=
  if v = d then tableErase m a else tableInsert lt (tableErase m a) a v

/-- Keys strictly rising. -/
def tableSorted (lt : κ → κ → Bool) (m : List (κ × β)) : Bool :=
  decide (m.Pairwise (fun x y => lt x.1 y.1 = true))

/-- The canonical form: keys strictly rising and no cell listed that holds `d`. -/
def tableWf [DecidableEq β] (lt : κ → κ → Bool) (d : β) (m : List (κ × β)) : Bool :=
  tableSorted lt m && m.all (fun e => decide (e.2 ≠ d))

/-- The order of addresses and of physical slots. -/
def natLt (a b : Nat) : Bool := decide (a < b)

/-- The order of coefficient cells: by row, then by column. -/
def pairLt (a b : Nat × Nat) : Bool := decide (a.1 < b.1 ∨ (a.1 = b.1 ∧ a.2 < b.2))

end Sys2Proof.Machine
end

