-- ==== Sys2Proof/Machine/Ops.lean ====
section
/-! DEFINITION. The named operations over memory, the slot table and the coefficient store, and fault entry
with the one way back from it (R27, R41 to R47, R143 to R145). -/

namespace Sys2Proof.Machine

/-! ### Memory (R41, R45) -/

/-- The byte at an address: a free value where the byte is unspecified (U4), else what the list says. -/
def Memory.readByte (m : Memory) (a : Nat) : Byte :=
  match tableFind m.scratch a with
  | some k => Config.freeByte k
  | none => tableGet Config.unwrittenByte m.cells a

/-- Memory with one byte stored. -/
def Memory.writeByte (m : Memory) (a : Nat) (b : Byte) : Memory where
  cells := tablePut natLt Config.unwrittenByte m.cells a b
  scratch := tableErase m.scratch a

/-- Memory in which the byte at `a` is the free value number `k`. -/
def Memory.forgetByte (m : Memory) (a k : Nat) : Memory where
  cells := tableErase m.cells a
  scratch := tableInsert natLt (tableErase m.scratch a) a k

/-- `MemRead(a, n)`: the bytes at `a`, `a + 1`, ... (R45). -/
def Memory.readBytes (m : Memory) (a : Nat) : Nat → List Byte
  | 0 => []
  | n + 1 => m.readByte a :: m.readBytes (a + 1) n

/-- `MemWrite(a, n, v)` with `n` the length of `v` (R45). -/
def Memory.writeBytes (m : Memory) (a : Nat) : List Byte → Memory
  | [] => m
  | b :: bs => (m.writeByte a b).writeBytes (a + 1) bs

/-- The `n` bytes from `a` become the free values `k`, `k + 1`, ... (U4: each byte independently). -/
def Memory.forgetBytes (m : Memory) (a k : Nat) : Nat → Memory
  | 0 => m
  | n + 1 => (m.forgetByte a k).forgetBytes (a + 1) (k + 1) n

/-- The canonical form of memory: both lists rising, no listed byte equal to what an unlisted one reads as,
no address in both. -/
def Memory.wf (m : Memory) : Bool :=
  tableWf natLt Config.unwrittenByte m.cells && tableSorted natLt m.scratch &&
    m.scratch.all (fun e => (tableFind m.cells e.1).isNone)

/-! ### The parameter `Mapped` and the check of buffers (R41, R44, R47) -/

/-- Whether a region holds an address. -/
def Region.holds (r : Region) (a : Nat) : Bool := decide (r.base ≤ a ∧ a < r.base + r.size)

/-- The predicate `Mapped` (R41). -/
def State.isMapped (s : State) (a : Nat) : Bool := s.mapped.any (fun r => r.holds a)

/-- What a region leaves of an interval of addresses. -/
def Region.cut (r : Region) (iv : Nat × Nat) : List (Nat × Nat) :=
  [(iv.1, min iv.2 r.base), (max iv.1 (r.base + r.size), iv.2)].filter (fun p => decide (p.1 < p.2))

/-- The intervals of `[a, a + n)` that no region holds. -/
def uncovered (regions : List Region) (a n : Nat) : List (Nat × Nat) :=
  regions.foldl (fun gaps r => gaps.flatMap r.cut) ([(a, a + n)].filter (fun p => decide (p.1 < p.2)))

/-- `RangeOK(a, n)`: the range does not wrap and every byte of it is mapped (R44). -/
def State.rangeOK (s : State) (a : Word) (n : Nat) : Bool :=
  decide (a.toNat + n ≤ Config.addressSpace) && (uncovered s.mapped a.toNat n).isEmpty

/-- Two byte ranges overlap (R47). -/
def overlap (a n b m : Nat) : Bool := decide (0 < n ∧ 0 < m ∧ a < b + m ∧ b < a + n)

/-- `MemRead` on the state. -/
def State.memRead (s : State) (a : Word) (n : Nat) : List Byte := s.mem.readBytes a.toNat n

/-- `MemWrite` on the state. -/
def State.memWrite (s : State) (a : Word) (bs : List Byte) : State :=
  { s with mem := s.mem.writeBytes a.toNat bs }

/-- The `n` bytes from `a` become unspecified, each a fresh free value (U4). -/
def State.memForget (s : State) (a : Word) (n : Nat) : State :=
  { s with mem := s.mem.forgetBytes a.toNat s.freeNext n, freeNext := s.freeNext + n }

/-! ### The stream, the slot table and the coefficient store (R25 to R27, R36) -/

/-- `SYMSIZE` as a byte count. -/
def State.symBytes (s : State) : Nat := s.symsize.toNat

/-- `UPPER - LOWER`, the number of live slots (R36). -/
def State.nsyms (s : State) : Nat := s.upper.toNat - s.lower.toNat

/-- The live stream indices in increasing order (R13, R36). -/
def State.live (s : State) : List Nat := List.range' s.lower.toNat s.nsyms

/-- Whether a stream index is live. -/
def State.isLive (s : State) (i : Nat) : Bool := decide (s.lower.toNat ≤ i ∧ i < s.upper.toNat)

/-- The physical slot of a stream index (R27). -/
def State.phys (s : State) (i : Nat) : Nat := i % s.cap

/-- An empty entry of the slot table (R25). -/
def Slot.empty : Slot := ⟨0, false, false⟩

/-- `ADDR[p]`, `PIV[p]`, `FRZ[p]`. -/
def State.slotAt (s : State) (p : Nat) : Slot := tableGet Slot.empty s.slots p

/-- `COEF[p][q]`. -/
def State.coefAt (s : State) (p q : Nat) : Elem := tableGet 0 s.coef (p, q)

/-- `ADDR(i)`, `PIV(i)`, `FRZ(i)` of a stream index (R27). -/
def State.slot (s : State) (i : Nat) : Slot := s.slotAt (s.phys i)

/-- `C[i][j]` (R27). -/
def State.coefOf (s : State) (i j : Nat) : Elem := s.coefAt (s.phys i) (s.phys j)

/-- The slot of a stream index replaced. -/
def State.setSlot (s : State) (i : Nat) (v : Slot) : State :=
  { s with slots := tablePut natLt Slot.empty s.slots (s.phys i) v }

/-- `C[i][j] <- e`. -/
def State.setCoef (s : State) (i j : Nat) (e : Elem) : State :=
  { s with coef := tablePut pairLt 0 s.coef (s.phys i, s.phys j) e }

/-- Row `p` and column `p` of the coefficient store become 0 (R101, R102). -/
def State.clearCross (s : State) (p : Nat) : State :=
  { s with coef := s.coef.filter (fun e => decide (e.1.1 ≠ p ∧ e.1.2 ≠ p)) }

/-- The coefficient row of stream index `i` over the live columns, lowest index first (R120). -/
def State.row (s : State) (i : Nat) : List Elem := s.live.map (fun j => s.coefOf i j)

/-- The coefficient row of stream index `i` replaced over the live columns. -/
def State.setRow (s : State) (i : Nat) (cs : List Elem) : State :=
  (s.live.zip cs).foldl (fun t jc => t.setCoef i jc.1 jc.2) s

/-- The payload bytes of a slot: `MemRead(ADDR(i), SYMSIZE)` (R30). -/
def State.payload (s : State) (i : Nat) : List Byte := s.memRead (s.slot i).addr s.symBytes

/-- The payload bytes of a slot replaced (R30). -/
def State.setPayload (s : State) (i : Nat) (bs : List Byte) : State := s.memWrite (s.slot i).addr bs

/-- A byte range overlaps the payload buffer of a live slot (R47 (ii)). -/
def State.overlapsLive (s : State) (a : Word) (n : Nat) : Bool :=
  s.live.any (fun i => overlap a.toNat n (s.slot i).addr.toNat s.symBytes)

/-! ### Fault entry and the return from it (R143 to R145) -/

/-- The code of a cause (R141). -/
def causeCode : Cause → BitVec 8
  | .none => 0
  | .illegal => 1
  | .state => 2
  | .config => 3
  | .window => 4
  | .empty => 5
  | .capacity => 6
  | .index => 7
  | .invzero => 8
  | .operand => 9
  | .bus => 10

/-- Fault entry, `raise F_X(info)` for the command word whose bits 7:0 are `op` (R143). -/
def State.raise (s : State) (c : Cause) (op : BitVec 8) (info : Word) : State :=
  { s with fault := true, cause := c, fop := op, finfo := info }

/-- Reset, by the command or by the hardware signal: every cell of the unit takes its reset value; memory,
the parameters and the host's side stay (R91, R145, R160, R161). It is the only way out of the fault
state. -/
def State.toReset (s : State) : State :=
  { State.reset with
    cap := s.cap
    mapped := s.mapped
    mem := s.mem
    freeNext := s.freeNext
    program := s.program
    returned := s.returned }

end Sys2Proof.Machine
end

