-- ==== Sys2Proof/Machine/Flags.lean ====
section
/-! DEFINITION. Everything computed as a flag, a state code or a counter: `STATUS` (R23), `SlotState` (R121) and
the derived registers (R31 to R37). -/

namespace Sys2Proof.Machine

/-- One flag as a bit. -/
def flagBit (b : Bool) : BitVec 1 := BitVec.ofBool b

/-- `STATUS`: bits 63:24 are 0, then `FOP`, `CAUSE`, five zero bits, `ADV`, `FAULT`, `READY` (R23). -/
def State.status (s : State) : Word :=
  0#40 ++ s.fop ++ causeCode s.cause ++ 0#5 ++ flagBit s.adv ++ flagBit s.fault ++ flagBit s.ready

/-- The three states of a row (R121). -/
inductive RowState where
  | missing
  | partiallyDecoded
  | decoded
  deriving DecidableEq, Repr

/-- The code of a row state (R121). -/
def rowStateCode : RowState → Word
  | .missing => 0
  | .partiallyDecoded => 1
  | .decoded => 2

/-- Row `i` has a nonzero coefficient at a live index other than its own (R121). -/
def State.dependsOnOther (s : State) (i : Nat) : Bool :=
  s.live.any (fun j => decide (j ≠ i ∧ s.coefOf i j ≠ 0))

/-- `SlotState(i)` (R121). -/
def State.rowState (s : State) (i : Nat) : RowState :=
  if (s.slot i).piv = false then .missing
  else if (s.slot i).frz = true ∨ s.dependsOnOther i = true then .partiallyDecoded
  else .decoded

/-- The number of live slots in a row state (R32 to R34). -/
def State.countState (s : State) (r : RowState) : Nat := s.live.countP (fun i => decide (s.rowState i = r))

/-- `RANK`: the number of live slots with a pivot (R31). -/
def State.rank (s : State) : Nat := s.live.countP (fun i => (s.slot i).piv)

/-- `COEFBYTES`: the byte length of a coefficient vector, 0 while unconfigured, reduced mod 2^64 (R37). -/
def State.coefBytesReg (s : State) : Word :=
  if s.ready then BitVec.ofNat 64 (coefBytes s.field s.wsyms.toNat) else 0

end Sys2Proof.Machine
end

