-- ==== Sys2Proof/Machine/Operands.lean ====
section
/-! DEFINITION. How a command takes its operands (R53, R71), the tests they share (R52, R92, R103), the field ids
(R61), and the guard every command stands behind (R52, R144). -/

namespace Sys2Proof.Machine

/-- What a meaning answers. -/
abbrev Result := Host.Outcome State Fault Refusal

/-- A field element in an operand register: bits `w-1:0`, the rest ignored (R71). -/
def elemOperand (f : FieldId) (r : Word) : Elem := r.setWidth 16 &&& elemMask f

/-- An element result, zero-extended to 64 bits (R71). -/
def elemResult (e : Elem) : Word := e.setWidth 64

/-- The number of a field (R61). -/
def fieldCode : FieldId → Word
  | .binary => 0
  | .binary4 => 1
  | .binary8 => 2
  | .binary16 => 3

/-- The field of a number, compared as a full 64-bit value (R61, R92). -/
def fieldOf (r : Word) : Option FieldId :=
  if r = 0 then some .binary
  else if r = 1 then some .binary4
  else if r = 2 then some .binary8
  else if r = 3 then some .binary16
  else none

/-- `L = CoefBytes(WSYMS)`: the bytes of a coefficient vector of the current window (R70). -/
def State.vectorBytes (s : State) : Nat := coefBytes s.field s.wsyms.toNat

/-- A window lies inside the stream, the sum taken without wrap-around (R103, R104). -/
def State.windowFits (s : State) (lo n : Word) : Bool :=
  decide (s.lower.toNat ≤ lo.toNat ∧ lo.toNat + n.toNat ≤ s.upper.toNat)

/-- `WindowOK()` (R103). -/
def State.windowOK (s : State) : Bool := s.windowFits s.wlower s.wsyms

/-- The command `i` raises a fault (R143). -/
def State.fail (s : State) (i : Instr) (c : Cause) (info : Word) : Result :=
  .next (s.raise c i.opcode info)

/-- In the fault state a command changes nothing (R52, R144); `RESET` is the one command without this guard. -/
def State.unlessFault (s : State) (body : State → Result) : Result :=
  if s.fault then .next s else body s

/-- The guard of every command but `NOP`, `RESET` and `CONFIG`: ignored in the fault state, `F_STATE` while
unconfigured (R52, R93). -/
def State.whenReady (s : State) (i : Instr) (body : State → Result) : Result :=
  s.unlessFault (fun s => if s.ready then body s else s.fail i .state s.status)

end Sys2Proof.Machine
end

