-- ==== Sys2Proof/Machine/Control.lean ====
section
/-! DEFINITION. The control commands `NOP`, `RESET`, `CONFIG` (40_control.md). -/

namespace Sys2Proof.Machine

/-- `NOP` (R90): nothing changes, in any unit state. -/
def execNop (s : State) : Result := .next s

/-- `RESET` (R91): accepted in every unit state. -/
def execReset (s : State) : Result := .next s.toReset

/-- `CONFIG field, symsize` (R92), its four checks in order. -/
def execConfig (s : State) : Result :=
  s.unlessFault fun s =>
    if s.ready then s.fail .config .state s.status
    else match fieldOf s.a0 with
      | none => s.fail .config .config s.a0
      | some f =>
        if s.a1 = 0 ∨ Config.symMax < s.a1.toNat then s.fail .config .config s.a1
        else if f = .binary16 ∧ s.a1.toNat % 2 = 1 then s.fail .config .config s.a1
        else .next { s with field := f, symsize := s.a1.setWidth 32, ready := true }

end Sys2Proof.Machine
end

