-- ==== Sys2Proof/Machine/Decoder.lean ====
section
/-! DEFINITION. The decoder's elimination engine and its commands `READ_SYMBOL`, `READ_SOURCE_SYMBOL`, `QSTATE`
(45_decoder.md). -/

namespace Sys2Proof.Machine

/-- The staging row of R29: a coefficient for each live column, lowest index first, the payload bytes, the
frozen bit. It lives inside one `READ_SYMBOL`. -/
structure Staging where
  coefs : List Elem
  payload : List Byte
  frozen : Bool
  deriving DecidableEq, Repr

/-- The staging coefficient of a live column. -/
def State.stagedCoef (s : State) (cs : List Elem) (j : Nat) : Elem := cs.getD (j - s.lower.toNat) 0

/-- The staging row as loaded: the vector's elements at the window's columns, 0 elsewhere (R123). -/
def State.loadStaging (s : State) (cv sp : List Byte) : Staging where
  coefs := s.live.map fun j =>
    if s.wlower.toNat ≤ j ∧ j < s.wlower.toNat + s.wsyms.toNat then elemAt s.field cv (j - s.wlower.toNat)
    else 0
  payload := sp
  frozen := false

/-- `x + f * c`, element by element over the live columns (R123, R124). -/
def addMultiple (fld : FieldId) (xs : List Elem) (f : Elem) (cs : List Elem) : List Elem :=
  List.zipWith (fun x c => gfAdd x (gfMul fld f c)) xs cs

/-- One pass of the reduction loop of R123, at live index `i`. -/
def State.reduceAt (s : State) (st : Staging) (i : Nat) : Staging :=
  let f := s.stagedCoef st.coefs i
  if (s.slot i).piv = true ∧ f ≠ 0 then
    { coefs := addMultiple s.field st.coefs f (s.row i)
      payload := vecMAdd s.field st.payload (s.payload i) f
      frozen := st.frozen || (s.slot i).frz }
  else st

/-- The staging row reduced against every stored row, in increasing order (R123). -/
def State.reduceStaging (s : State) (st : Staging) : Staging := s.live.foldl s.reduceAt st

/-- The smallest live column with a nonzero coefficient (R123). -/
def State.pivotOf (s : State) (st : Staging) : Option Nat :=
  s.live.find? fun j => decide (s.stagedCoef st.coefs j ≠ 0)

/-- The staging row scaled so that the coefficient at column `v` becomes 1 (R123). -/
def State.normalise (s : State) (st : Staging) (v : Nat) : Staging :=
  let g := gfInv s.field (s.stagedCoef st.coefs v)
  { coefs := st.coefs.map (gfMul s.field g)
    payload := vecScale s.field st.payload g
    frozen := st.frozen }

/-- A row stored in the slot of its pivot `v`: coefficients, payload, `PIV`, `FRZ` (R123, R125). -/
def State.storeRow (s : State) (v : Nat) (st : Staging) : State :=
  let t := (s.setRow v st.coefs).setPayload v st.payload
  t.setSlot v { t.slot v with piv := true, frz := st.frozen }

/-- One pass of the loop of R124, at live index `r`, for the stored row `v` with payload `p`. -/
def State.substituteAt (v : Nat) (p : List Byte) (s : State) (r : Nat) : State :=
  let f := s.coefOf r v
  if r ≠ v ∧ (s.slot r).piv = true ∧ f ≠ 0 then
    let t := (s.setRow r (addMultiple s.field (s.row r) f (s.row v))).setPayload r
      (vecMAdd s.field (s.payload r) p f)
    t.setSlot r { t.slot r with frz := (t.slot r).frz || (t.slot v).frz }
  else s

/-- `BackSubstitute(v)` (R124). -/
def State.backSubstitute (s : State) (v : Nat) : State :=
  s.live.foldl (State.substituteAt v (s.payload v)) s

/-- The effect of R123 on the unit and on the slots' buffers, for an incoming vector and symbol. -/
def State.absorb (s : State) (cv sp : List Byte) : State :=
  let st := s.reduceStaging (s.loadStaging cv sp)
  match s.pivotOf st with
  | none => { s with adv := false, res := 0 }
  | some v =>
    { ((s.storeRow v (s.normalise st v)).backSubstitute v) with adv := true, res := BitVec.ofNat 64 v }

/-- The unit row at `v` (R125). -/
def State.unitRow (s : State) (v : Nat) : List Elem := s.live.map fun j => if j = v then 1 else 0

/-- The effect of R125 for an incoming source symbol. -/
def State.absorbSource (s : State) (v : Nat) (sp : List Byte) : State :=
  { ((s.storeRow v ⟨s.unitRow v, sp, false⟩).backSubstitute v) with
    adv := !(s.slot v).piv, res := BitVec.ofNat 64 v }

/-- `READ_SYMBOL symbol, coef` (R123), its checks in order. In both outcomes the bytes of the two incoming
buffers become unspecified (U4). -/
def execReadSymbol (s : State) : Result :=
  s.whenReady .readSymbol fun s =>
    if s.windowOK = false then s.fail .readSymbol .window s.wlower
    else if s.rangeOK s.a0 s.symBytes = false then s.fail .readSymbol .bus s.a0
    else if s.rangeOK s.a1 s.vectorBytes = false then s.fail .readSymbol .bus s.a1
    else if s.overlapsLive s.a0 s.symBytes = true ∨ s.overlapsLive s.a1 s.vectorBytes = true ∨
        overlap s.a0.toNat s.symBytes s.a1.toNat s.vectorBytes = true then .refused .overlappingBuffers
    else .next (((s.absorb (s.memRead s.a1 s.vectorBytes) (s.memRead s.a0 s.symBytes)).memForget s.a0
      s.symBytes).memForget s.a1 s.vectorBytes)

/-- `READ_SOURCE_SYMBOL symbol, index` (R125), its checks in order. -/
def execReadSourceSymbol (s : State) : Result :=
  s.whenReady .readSourceSymbol fun s =>
    if s.isLive s.a1.toNat = false then s.fail .readSourceSymbol .index s.a1
    else if s.rangeOK s.a0 s.symBytes = false then s.fail .readSourceSymbol .bus s.a0
    else if s.overlapsLive s.a0 s.symBytes = true then .refused .overlappingBuffers
    else .next (s.absorbSource s.a1.toNat (s.memRead s.a0 s.symBytes))

/-- `QSTATE index` (R126). -/
def execQstate (s : State) : Result :=
  s.whenReady .qstate fun s =>
    if s.isLive s.a0.toNat = false then s.fail .qstate .index s.a0
    else .next { s with res := rowStateCode (s.rowState s.a0.toNat) }

end Sys2Proof.Machine
end

