-- ==== Sys2Proof/Machine/Encoder.lean ====
section
/-! DEFINITION. The encoder commands `WRITE_SYMBOL`, `WRITE_SOURCE_SYMBOL` (44_encoder.md). -/

namespace Sys2Proof.Machine

/-- The coded symbol of the window for a packed coefficient vector: `LinComb` of the payloads of the window's
slots (R77, R110). Padding bits of the vector are ignored (R70). -/
def State.codedSymbol (s : State) (cv : List Byte) : List Byte :=
  linComb s.field s.symBytes
    ((List.range s.wsyms.toNat).map fun j => (elemAt s.field cv j, s.payload (s.wlower.toNat + j)))

/-- `WRITE_SYMBOL out, coef` (R110), its checks in order. -/
def execWriteSymbol (s : State) : Result :=
  s.whenReady .writeSymbol fun s =>
    if s.windowOK = false then s.fail .writeSymbol .window s.wlower
    else if s.rangeOK s.a0 s.symBytes = false then s.fail .writeSymbol .bus s.a0
    else if s.rangeOK s.a1 s.vectorBytes = false then s.fail .writeSymbol .bus s.a1
    else if overlap s.a0.toNat s.symBytes s.a1.toNat s.vectorBytes = true ∨
        s.overlapsLive s.a0 s.symBytes = true then .refused .overlappingBuffers
    else .next (s.memWrite s.a0 (s.codedSymbol (s.memRead s.a1 s.vectorBytes)))

/-- `WRITE_SOURCE_SYMBOL out, index` (R111), its checks in order. -/
def execWriteSourceSymbol (s : State) : Result :=
  s.whenReady .writeSourceSymbol fun s =>
    if s.isLive s.a1.toNat = false then s.fail .writeSourceSymbol .index s.a1
    else if s.rangeOK s.a0 s.symBytes = false then s.fail .writeSourceSymbol .bus s.a0
    else if s.overlapsLive s.a0 s.symBytes = true then .refused .overlappingBuffers
    else .next (s.memWrite s.a0 (s.payload s.a1.toNat))

end Sys2Proof.Machine
end

