-- ==== Sys2Proof/Machine/FieldArith.lean ====
section
/-! DEFINITION. The field-arithmetic commands `GFADD`, `GFMUL`, `GFINV`, `VMADD` (41_field_arithmetic.md). -/

namespace Sys2Proof.Machine

/-- `GFADD a, b` (R72). -/
def execGfadd (s : State) : Result :=
  s.whenReady .gfadd fun s =>
    .next { s with res := elemResult (gfAdd (elemOperand s.field s.a0) (elemOperand s.field s.a1)) }

/-- `GFMUL a, b` (R73). -/
def execGfmul (s : State) : Result :=
  s.whenReady .gfmul fun s =>
    .next { s with res := elemResult (gfMul s.field (elemOperand s.field s.a0) (elemOperand s.field s.a1)) }

/-- `GFINV a` (R74). -/
def execGfinv (s : State) : Result :=
  s.whenReady .gfinv fun s =>
    if elemOperand s.field s.a0 = 0 then s.fail .gfinv .invzero s.a0
    else .next { s with res := elemResult (gfInv s.field (elemOperand s.field s.a0)) }

/-- `VMADD dst, src, s, n` (R75), its checks in order. -/
def execVmadd (s : State) : Result :=
  s.whenReady .vmadd fun s =>
    let n := s.a3.toNat
    if s.field = .binary16 ∧ n % 2 = 1 then s.fail .vmadd .operand s.a3
    else if s.rangeOK s.a0 n = false then s.fail .vmadd .bus s.a0
    else if s.rangeOK s.a1 n = false then s.fail .vmadd .bus s.a1
    else if s.a0 ≠ s.a1 ∧ overlap s.a0.toNat n s.a1.toNat n = true then .refused .overlappingBuffers
    else .next (s.memWrite s.a0
      (vecMAdd s.field (s.memRead s.a0 n) (s.memRead s.a1 n) (elemOperand s.field s.a2)))

end Sys2Proof.Machine
end

