-- ==== Sys2Proof/Machine/Generator.lean ====
section
/-! DEFINITION. The coefficient generator and its commands `SET_SEED`, `GENERATE`
(42_coefficient_generator.md). -/

namespace Sys2Proof.Machine

/-- `SM64(seed, k)` (R81). -/
def sm64 (seed : Word) (k : Nat) : Word :=
  let z := seed + BitVec.ofNat 64 (k + 1) * 0x9E3779B97F4A7C15
  let z := (z ^^^ (z >>> 30)) * 0xBF58476D1CE4E5B9
  let z := (z ^^^ (z >>> 27)) * 0x94D049BB133111EB
  z ^^^ (z >>> 31)

/-- Byte `t` of the generator's stream: the words low byte first (R82). -/
def streamByte (seed : Word) (t : Nat) : Byte := (sm64 seed (t / 8)).extractLsb' (8 * (t % 8)) 8

/-- The bits of the last byte of a vector of `ws` elements that hold elements, as a mask (R70, R82). -/
def lastByteMask (f : FieldId) (ws : Nat) : Byte :=
  if (ws * width f) % 8 = 0 then 0xFF else BitVec.ofNat 8 (2 ^ ((ws * width f) % 8) - 1)

/-- `GenBytes(seed, ws)` (R82). -/
def genBytes (f : FieldId) (seed : Word) (ws : Nat) : List Byte :=
  (List.range (coefBytes f ws)).map fun t =>
    if t + 1 = coefBytes f ws then streamByte seed t &&& lastByteMask f ws else streamByte seed t

/-- `SET_SEED seed` (R83). -/
def execSetSeed (s : State) : Result :=
  s.whenReady .setSeed fun s => .next { s with seed := s.a0 }

/-- `GENERATE out` (R84), its checks in order. -/
def execGenerate (s : State) : Result :=
  s.whenReady .generate fun s =>
    if s.windowOK = false then s.fail .generate .window s.wlower
    else if s.rangeOK s.a0 s.vectorBytes = false then s.fail .generate .bus s.a0
    else if s.overlapsLive s.a0 s.vectorBytes = true then .refused .overlappingBuffers
    else .next (s.memWrite s.a0 (genBytes s.field s.seed s.wsyms.toNat))

end Sys2Proof.Machine
end

