-- ==== Sys2Proof/Machine/Stream.lean ====
section
/-! DEFINITION. The stream and window commands `PUSH`, `POP`, `SET_WINDOW` (43_stream_window.md). -/

namespace Sys2Proof.Machine

/-- A new missing slot at stream index `UPPER` with payload buffer `addr`: the effect of R101. -/
def State.appendSlot (s : State) (addr : Word) : State :=
  let i := s.upper.toNat
  { ((s.setSlot i ⟨addr, false, false⟩).clearCross (s.phys i)) with
    res := s.upper, upper := s.upper + 1 }

/-- The freezing loop of R102: every other stored row with a nonzero coefficient at column `i` is marked
frozen (R127). -/
def State.freezeDependents (s : State) (i : Nat) : State :=
  s.live.foldl
    (fun t r =>
      if r ≠ i ∧ (t.slot r).piv = true ∧ t.coefOf r i ≠ 0 then t.setSlot r { t.slot r with frz := true }
      else t)
    s

/-- The slot at stream index `LOWER` removed with its row and its column: the effect of R102. -/
def State.dropLowest (s : State) : State :=
  let i := s.lower.toNat
  { (((s.freezeDependents i).clearCross (s.phys i)).setSlot i Slot.empty) with
    res := s.lower, lower := s.lower + 1 }

/-- `PUSH data` (R101), its checks in order. -/
def execPush (s : State) : Result :=
  s.whenReady .push fun s =>
    if s.nsyms = s.cap then s.fail .push .capacity s.upper
    else if s.upper.toNat = 2 ^ 64 - 1 then s.fail .push .index s.upper
    else if s.rangeOK s.a0 s.symBytes = false then s.fail .push .bus s.a0
    else if s.overlapsLive s.a0 s.symBytes = true then .refused .overlappingBuffers
    else .next (s.appendSlot s.a0)

/-- `POP` (R102). -/
def execPop (s : State) : Result :=
  s.whenReady .pop fun s =>
    if s.upper = s.lower then s.fail .pop .empty s.lower
    else .next s.dropLowest

/-- `SET_WINDOW lower, symbols` (R104). -/
def execSetWindow (s : State) : Result :=
  s.whenReady .setWindow fun s =>
    if s.windowFits s.a0 s.a1 = false then s.fail .setWindow .window s.a0
    else .next { s with wlower := s.a0, wsyms := s.a1 }

end Sys2Proof.Machine
end

