-- ==== Sys2Proof/Machine/Dispatch.lean ====
section
/-! DEFINITION. The meaning of each command, one arm per constructor. -/

namespace Sys2Proof.Machine

def exec (i : Instr) (s : State) : Host.Outcome State Fault Refusal :=
  match i with
  | .nop => Sys2Proof.Machine.execNop s
  | .reset => Sys2Proof.Machine.execReset s
  | .config => Sys2Proof.Machine.execConfig s
  | .gfadd => Sys2Proof.Machine.execGfadd s
  | .gfmul => Sys2Proof.Machine.execGfmul s
  | .gfinv => Sys2Proof.Machine.execGfinv s
  | .vmadd => Sys2Proof.Machine.execVmadd s
  | .setSeed => Sys2Proof.Machine.execSetSeed s
  | .generate => Sys2Proof.Machine.execGenerate s
  | .push => Sys2Proof.Machine.execPush s
  | .pop => Sys2Proof.Machine.execPop s
  | .setWindow => Sys2Proof.Machine.execSetWindow s
  | .writeSymbol => Sys2Proof.Machine.execWriteSymbol s
  | .writeSourceSymbol => Sys2Proof.Machine.execWriteSourceSymbol s
  | .readSymbol => Sys2Proof.Machine.execReadSymbol s
  | .readSourceSymbol => Sys2Proof.Machine.execReadSourceSymbol s
  | .qstate => Sys2Proof.Machine.execQstate s

end Sys2Proof.Machine
end

