-- ==== Sys2Proof/Machine/Registers.lean ====
section
/-! DEFINITION. The register space as the host sees it (R15 to R24, R31 to R37). -/

namespace Sys2Proof.Machine

/-- What a host read of a register returns; it changes nothing (R20 (b)). -/
def State.readReg (s : State) : Reg → Word
  | .cmd => 0
  | .status => s.status
  | .res => s.res
  | .finfo => s.finfo
  | .a0 => s.a0
  | .a1 => s.a1
  | .a2 => s.a2
  | .a3 => s.a3
  | .field => fieldCode s.field
  | .symsize => s.symsize.setWidth 64
  | .capacity => BitVec.ofNat 64 s.cap
  | .lower => s.lower
  | .upper => s.upper
  | .nsyms => BitVec.ofNat 64 s.nsyms
  | .wlower => s.wlower
  | .wsyms => s.wsyms
  | .coefbytes => s.coefBytesReg
  | .seed => s.seed
  | .rank => BitVec.ofNat 64 s.rank
  | .ndec => BitVec.ofNat 64 (s.countState .decoded)
  | .npart => BitVec.ofNat 64 (s.countState .partiallyDecoded)
  | .nmiss => BitVec.ofNat 64 (s.countState .missing)

/-- What a host read at a byte offset of the register space returns; a reserved offset reads as 0 (R19). -/
def State.readOffset (s : State) (offset : Nat) : Word :=
  match regAt offset with
  | some r => s.readReg r
  | none => 0

/-- A host write of a register other than `CMD`: `A0` to `A3` store the value, every other register ignores
it (R15, R20 (c), (d)). -/
def State.writeReg (s : State) (r : Reg) (v : Word) : State :=
  match r with
  | .a0 => { s with a0 := v }
  | .a1 => { s with a1 := v }
  | .a2 => { s with a2 := v }
  | .a3 => { s with a3 := v }
  | _ => s

end Sys2Proof.Machine
end

