-- ==== Sys2Proof/Machine/HostSide.lean ====
section
/-! DEFINITION. What the machine does with one action of the host (R6, R18, R20, R52, R160). -/

namespace Sys2Proof.Machine

/-- The unit's step for a command word written to `CMD` (R52): a defined word runs its command, whose own
meaning holds the checks of the fault state and of `READY`; any other word raises `F_ILLEGAL` (R54) unless
the unit is in the fault state (R144). -/
def issue (cw : CommandWord) (s : State) : Result :=
  match decode cw with
  | .ok i => exec i s
  | .error _ =>
    s.unlessFault fun s => .next (s.raise .illegal (CommandWord.op cw) (cw.setWidth 64))

/-- A 64-bit host write at a byte offset (R18, R20). -/
def State.hostWriteReg (s : State) (offset : Nat) (v : Word) : Result :=
  if validOffset offset then
    match regAt offset with
    | some .cmd => issue (v.setWidth 32) s
    | some r => .next (s.writeReg r v)
    | none => .next s
  else .refused .registerAccess

/-- A 64-bit host read at a byte offset (R20). -/
def State.hostReadReg (s : State) (offset : Nat) : Result :=
  if validOffset offset then .next { s with returned := s.returned ++ [.reg (s.readOffset offset)] }
  else .refused .registerAccess

/-- A host write of bytes to memory (R6, R48). `Mapped` bounds what the unit reaches, not the host (R5, R41); only
an address past the top of the address space stops it (R40, log 8). -/
def State.hostMemWrite (s : State) (a : Word) (bs : List Byte) : Result :=
  if rangeFits a.toNat bs.length then .next (s.memWrite a bs) else .fault .hostPastTop

/-- A host read of bytes of memory (R6, R48). -/
def State.hostMemRead (s : State) (a : Word) (n : Nat) : Result :=
  if rangeFits a.toNat n then .next { s with returned := s.returned ++ [.bytes (s.memRead a n)] }
  else .fault .hostPastTop

/-- One action of the host. -/
def hostAct (s : State) : HostAction → Result
  | .writeReg offset v => s.hostWriteReg offset v
  | .readReg offset => s.hostReadReg offset
  | .memWrite a bs => s.hostMemWrite a bs
  | .memRead a n => s.hostMemRead a n
  | .hardReset => .next s.toReset

/-- The host action that issues a command word (R18). -/
def cmdWrite (nbits w : Nat) : HostAction := .writeReg (Reg.offset .cmd) (BitVec.ofNat 64 (w % 2 ^ nbits))

/-- One step: the first action of the host's list; with nothing left the unit is idle (R6, R9). -/
def stepHost (s : State) : Result :=
  match s.program with
  | [] => .next s
  | a :: rest => hostAct { s with program := rest } a

end Sys2Proof.Machine
end

