-- ==== Sys2Proof/Machine/Step.lean ====
section
/-! DEFINITION. One step of the machine, and where its next command word stands. -/

namespace Sys2Proof.Machine

/-- One step of the machine (R6, R9, R52). -/
def step (s : State) : Host.Outcome State Fault Refusal := stepHost s

/-- The state whose next step runs the command word made of the low `nbits` bits of `w`: the host's next
action is a `CMD` write of it (log 1). -/
def State.withFetchWord (s : State) (nbits w : Nat) : State :=
  { s with program := cmdWrite nbits w :: s.program }

end Sys2Proof.Machine
end

