-- ==== Sys2Proof/Machine/Assembler.lean ====
section
/-! DEFINITION. Program lines and pseudo-instructions as lists of host actions, and the reading of a line's text
(R56, R57). -/

namespace Sys2Proof.Machine

/-- A write of a named register. -/
def setReg (r : Reg) (v : Word) : HostAction := .writeReg r.offset v

/-- The command write of a command line: `CMD <- opcode` (R56). -/
def issueAction (i : Instr) : HostAction := setReg .cmd ((encode i).setWidth 64)

/-- The operand registers in operand order (R53). -/
def operandRegs : List Reg := [.a0, .a1, .a2, .a3]

/-- The host actions a command line stands for: its operands written to `A0`, `A1`, ..., then `CMD` (R56). -/
def commandActions (i : Instr) (operands : List Word) : List HostAction :=
  List.zipWith setReg operandRegs operands ++ [issueAction i]

/-- The host actions a line stands for (R56). -/
def lineActions : Line → List HostAction
  | .command i operands => commandActions i operands
  | .rd r => [.readReg r.offset]
  | .mw a bs => [.memWrite a bs]
  | .mr a n => [.memRead a n]

/-- The lines a pseudo-instruction stands for (R57). The comparison with 2 that ends `IS_SYMBOL_DECODED` is
the host's. -/
def pseudoLines : Pseudo → List Line
  | .vadd dst src len => [.command .vmadd [dst, src, 1, len]]
  | .rank => [.rd .rank]
  | .symbolsDecoded => [.rd .ndec]
  | .symbolsPartiallyDecoded => [.rd .npart]
  | .symbolsMissing => [.rd .nmiss]
  | .isSymbolDecoded index => [.command .qstate [index], .rd .res]
  | .coefficientVectorSize => [.rd .coefbytes]
  | .encodeSeeded seed sym coef =>
    [.command .setSeed [seed], .command .generate [coef], .command .writeSymbol [sym, coef]]
  | .decodeSeeded seed sym coef =>
    [.command .setSeed [seed], .command .generate [coef], .command .readSymbol [sym, coef]]

/-- The host actions of a program. -/
def programActions (ls : List Line) : List HostAction := ls.flatMap lineActions

/-! ### Reading a line of text -/

/-- The characters before the comment sign. -/
def stripComment (cs : List Char) : List Char := cs.takeWhile (fun c => c != ';')

/-- The tokens of a line: runs of characters that are no blank and no comma, in order. -/
def tokens : List Char → List Char → List (List Char)
  | acc, [] => if acc.isEmpty then [] else [acc.reverse]
  | acc, c :: cs =>
    if c = ' ' ∨ c = '\t' ∨ c = ',' then
      if acc.isEmpty then tokens [] cs else acc.reverse :: tokens [] cs
    else tokens (c :: acc) cs

/-- The value of a digit of R56's numerals: its place in the list of the sixteen digits, the letters in either
case. A decimal numeral uses the first ten. -/
def digitPlace (c : Char) : Option Nat := "0123456789abcdef".toList.idxOf? c.toLower

/-- The value of a run of digits in a base, after the digits read so far. -/
def digitsValue (base : Nat) : Nat → List Char → Option Nat
  | n, [] => some n
  | n, c :: cs =>
    match digitPlace c with
    | some d => if d < base then digitsValue base (n * base + d) cs else none
    | none => none

/-- An unsigned 64-bit numeral, decimal or `0x` hexadecimal (R56). -/
def numeral (t : List Char) : Option Word :=
  let v := match t with
    | '0' :: 'x' :: c :: cs => digitsValue 16 0 (c :: cs)
    | c :: cs => digitsValue 10 0 (c :: cs)
    | [] => none
  match v with
  | some n => if n < 2 ^ 64 then some (BitVec.ofNat 64 n) else none
  | none => none

/-- A byte of an `mw` line: two hexadecimal digits, as 95_test_vectors.md writes them (log 20). -/
def byteToken : List Char → Option Byte
  | [c, d] =>
    match digitsValue 16 0 [c, d] with
    | some n => some (BitVec.ofNat 8 n)
    | none => none
  | _ => none

/-- All of a list, or none. -/
def allSome {α : Type} : List (Option α) → Option (List α)
  | [] => some []
  | some a :: as => (allSome as).map (a :: ·)
  | none :: _ => none

/-- The command of a mnemonic (R51). -/
def instrNamed (t : List Char) : Option Instr :=
  (opcodeMap.map Prod.snd).find? (fun i => decide (i.mnemonic.toList = t))

/-- The register of a name (R19). -/
def regNamed (t : List Char) : Option Reg := Reg.all.find? (fun r => decide (r.name.toList = t))

/-- The pseudo-instruction of a name and its operands (R57). -/
def pseudoNamed (t : List Char) (ops : List Word) : Option Pseudo :=
  match ops with
  | [] =>
    if t = "RANK".toList then some .rank
    else if t = "SYMBOLS_DECODED".toList then some .symbolsDecoded
    else if t = "SYMBOLS_PARTIALLY_DECODED".toList then some .symbolsPartiallyDecoded
    else if t = "SYMBOLS_MISSING".toList then some .symbolsMissing
    else if t = "COEFFICIENT_VECTOR_SIZE".toList then some .coefficientVectorSize
    else none
  | [x] => if t = "IS_SYMBOL_DECODED".toList then some (.isSymbolDecoded x) else none
  | [x, y, z] =>
    if t = "VADD".toList then some (.vadd x y z)
    else if t = "ENCODE_SEEDED".toList then some (.encodeSeeded x y z)
    else if t = "DECODE_SEEDED".toList then some (.decodeSeeded x y z)
    else none
  | _ => none

/-- A command line or a pseudo-instruction, by name and operands. -/
def namedLines (t : List Char) (ops : List Word) : Option (List Line) :=
  match instrNamed t with
  | some i => if ops.length = i.arity then some [.command i ops] else none
  | none => (pseudoNamed t ops).map pseudoLines

/-- The lines a list of tokens stands for; none where it is no line of R56 or R57. -/
def tokenLines : List (List Char) → Option (List Line)
  | [] => some []
  | t :: ts =>
    if t = "rd".toList then
      match ts with
      | [r] => (regNamed r).map (fun r => [.rd r])
      | _ => none
    else if t = "mw".toList then
      match ts with
      | a :: bs =>
        match numeral a, allSome (bs.map byteToken) with
        | some a, some bs => some [.mw a bs]
        | _, _ => none
      | [] => none
    else if t = "mr".toList then
      match ts with
      | [a, n] =>
        match numeral a, numeral n with
        | some a, some n => some [.mr a n.toNat]
        | _, _ => none
      | _ => none
    else
      match allSome (ts.map numeral) with
      | some ops => namedLines t ops
      | none => none

/-- The host actions of one line of program text (R56, R57). -/
def assemble (text : List Char) : Option (List HostAction) :=
  (tokenLines (tokens [] (stripComment text))).map programActions

end Sys2Proof.Machine
end

