-- ==== Sys2Proof/Safety.lean ====
section
/-! DEFINITION. The terms claims are made in: the invariants of the unit's state (R22, R23, R28, R36, R41), the
closed form of the reduction (R123 (b)), consistent rows (R30), and what a safe outcome of a step is. -/

namespace Sys2Proof.Machine

/-- The unit state *ready* of R93: configured and not in the fault state. -/
abbrev State.Active (s : State) : Prop := s.fault = false ∧ s.ready = true

/-- A safe answer: a next state outside the fault state. -/
def SafeResult (r : Result) : Prop := ∃ t, r = .next t ∧ t.fault = false

/-- The parameter `CAP` is legal (R5) and the stream fits it (R36). -/
structure State.BoundsOk (s : State) : Prop where
  cap_pos : 1 ≤ s.cap
  cap_le : s.cap ≤ Config.capMax
  lower_le : s.lower.toNat ≤ s.upper.toNat
  fits : s.upper.toNat - s.lower.toNat ≤ s.cap

/-- What `READY` says about the rest of the unit (R22, R93): before `CONFIG` every cell that only a ready
unit writes still has its reset value; after it the symbol size is legal. -/
structure State.ConfigOk (s : State) : Prop where
  unconfigured : s.ready = false →
    s.field = .binary ∧ s.symsize = 0 ∧ s.res = 0 ∧ s.adv = false ∧ s.lower = 0 ∧ s.upper = 0 ∧
      s.wlower = 0 ∧ s.wsyms = 0 ∧ s.seed = 0 ∧ s.slots = [] ∧ s.coef = []
  size_pos : s.ready = true → 1 ≤ s.symBytes
  size_even : s.ready = true → s.field = .binary16 → s.symBytes % 2 = 0

/-- `CAUSE`, `FOP` and `FINFO` are 0 outside the fault state, and `CAUSE` is not 0 in it (R23, R58). -/
structure State.FaultOk (s : State) : Prop where
  clear : s.fault = false → s.cause = .none ∧ s.fop = 0 ∧ s.finfo = 0
  named : s.fault = true → s.cause ≠ .none

/-- Memory and the two tables are in canonical form and every listed byte has an address (R40); every free
value in memory has been handed out already, and to one byte only (U4: each byte independently, log 5). -/
structure State.MemoryOk (s : State) : Prop where
  mem_wf : s.mem.wf = true
  slots_wf : tableWf natLt Slot.empty s.slots = true
  coef_wf : tableWf pairLt 0 s.coef = true
  cells_in_space : ∀ e ∈ s.mem.cells, e.1 < Config.addressSpace
  scratch_in_space : ∀ e ∈ s.mem.scratch, e.1 < Config.addressSpace
  scratch_used : ∀ e ∈ s.mem.scratch, e.2 < s.freeNext
  scratch_distinct : ∀ e ∈ s.mem.scratch, ∀ e' ∈ s.mem.scratch, e.2 = e'.2 → e = e'

/-- The payload buffers of the live slots are mapped (R41) and pairwise disjoint (R47). -/
structure State.BuffersOk (s : State) : Prop where
  mapped : ∀ i, s.isLive i = true → s.rangeOK (s.slot i).addr s.symBytes = true
  disjoint : ∀ i j, s.isLive i = true → s.isLive j = true → i ≠ j →
    overlap (s.slot i).addr.toNat s.symBytes (s.slot j).addr.toNat s.symBytes = false

/-- The invariants of the elimination state, (a) to (g) of R28. -/
structure State.RowsOk (s : State) : Prop where
  dead_clear : ∀ p, (∀ i, s.isLive i = true → s.phys i ≠ p) →
    s.slotAt p = Slot.empty ∧ ∀ q, s.coefAt p q = 0 ∧ s.coefAt q p = 0
  missing_zero : ∀ i, s.isLive i = true → (s.slot i).piv = false →
    (s.slot i).frz = false ∧ ∀ j, s.isLive j = true → s.coefOf i j = 0
  pivot_one : ∀ i, s.isLive i = true → (s.slot i).piv = true → s.coefOf i i = 1
  reduced : ∀ i r, s.isLive i = true → s.isLive r = true → i ≠ r →
    (s.slot i).piv = true → (s.slot r).piv = true → s.coefOf r i = 0
  in_field : ∀ p q, (s.coefAt p q).toNat < 2 ^ width s.field
  zero_below : ∀ i j, s.isLive i = true → (s.slot i).piv = true → s.isLive j = true → j < i →
    s.coefOf i j = 0
  unfrozen : ∀ i, s.isLive i = true → (s.slot i).frz = false

/-- Every invariant of the machine. -/
structure State.Inv (s : State) : Prop where
  bounds : s.BoundsOk
  config : s.ConfigOk
  faults : s.FaultOk
  memory : s.MemoryOk
  buffers : s.BuffersOk
  rows : s.RowsOk

/-! ### The reduction in closed form (R123 (b)) -/

/-- The incoming coefficient at stream index `j`: the vector's element inside the window, 0 outside. -/
def State.incoming (s : State) (cv : List Byte) (j : Nat) : Elem :=
  if s.wlower.toNat ≤ j ∧ j < s.wlower.toNat + s.wsyms.toNat then elemAt s.field cv (j - s.wlower.toNat)
  else 0

/-- The live indices with a stored row. -/
def State.pivots (s : State) : List Nat := s.live.filter (fun i => (s.slot i).piv)

/-- `sc - sum over pivot i of sc_original[i] * row i` at column `j` (R123 (b)). -/
def State.reducedCoef (s : State) (cv : List Byte) (j : Nat) : Elem :=
  s.pivots.foldl (fun acc i => gfAdd acc (gfMul s.field (s.incoming cv i) (s.coefOf i j)))
    (s.incoming cv j)

/-- The payload that goes with `reducedCoef`. -/
def State.reducedPayload (s : State) (cv sp : List Byte) : List Byte :=
  s.pivots.foldl (fun acc i => vecMAdd s.field acc (s.payload i) (s.incoming cv i)) sp

/-! ### Consistent rows (R30) -/

/-- Every stored row states a true equation about the source symbols `src`: its payload is the linear
combination of them that its coefficients name (R30, R120). -/
def State.Consistent (s : State) (src : Nat → List Byte) : Prop :=
  ∀ i, s.isLive i = true → (s.slot i).piv = true →
    s.payload i = linComb s.field s.symBytes (s.live.map fun j => (s.coefOf i j, src j))

/-- The bytes of the two incoming buffers of `READ_SYMBOL` fit together: the symbol is the linear combination
of the window's source symbols that the vector names (R130 says the unit cannot check it). -/
def State.ConsistentInput (s : State) (src : Nat → List Byte) : Prop :=
  s.memRead s.a0 s.symBytes = linComb s.field s.symBytes
    ((List.range s.wsyms.toNat).map fun j =>
      (elemAt s.field (s.memRead s.a1 s.vectorBytes) j, src (s.wlower.toNat + j)))

/-! ### What every command has in common -/

/-- Whether an address lies in a byte range. -/
abbrev inRange (x base n : Nat) : Prop := base ≤ x ∧ x < base + n

/-- The low `w` bits of an operand register as an element (R71). -/
def lowElem (f : FieldId) (r : Word) : Elem := BitVec.ofNat 16 (r.toNat % 2 ^ width f)

/-- What R52 says of every command but `NOP`, `RESET` and `CONFIG`: the word that issues it, that the fault
state ignores it (R144), and that it raises `F_STATE` with the old `STATUS` while the unit is unconfigured
(R93). -/
def GuardedCommand (i : Instr) (w : CommandWord) : Prop :=
  decode w = .ok i ∧
  (∀ s : State, s.fault = true → exec i s = .next s) ∧
  (∀ s : State, s.fault = false → s.ready = false →
    exec i s = .next (s.raise .state i.opcode s.status))

/-- The command `i` answers at `s` with a next state that differs from `s` in memory only, holds the bytes `bs`
from address `a` on, and reads as before at every other address. -/
def StoresExactly (i : Instr) (s : State) (a : Word) (bs : List Byte) : Prop :=
  ∃ t, exec i s = .next t ∧ t = { s with mem := t.mem } ∧
    t.mem.readBytes a.toNat bs.length = bs ∧
    ∀ x, ¬ inRange x a.toNat bs.length → t.mem.readByte x = s.mem.readByte x

end Sys2Proof.Machine
end

