-- ==== Sys2Proof/Certificates/Slice0/Obligations.lean ====
section
/-! DEFINITION. The statements about the coding unit, each with the rule of spec/ it formalises. -/

open Sys2Proof Sys2Proof.Machine

/-! ### Command words and the host's accesses -/

/-- R51, R54: a few command words and what they stand for. -/
def Obligations.OpcodeWordsDecode : Prop :=
  decode 0x00000000 = .ok .nop ∧ decode 0x00000002 = .ok .config ∧ decode 0x00000013 = .ok .vmadd ∧
  decode 0x00000021 = .ok .generate ∧ decode 0x00000032 = .ok .setWindow ∧
  decode 0x00000041 = .ok .writeSourceSymbol ∧ decode 0x00000050 = .ok .readSymbol ∧
  decode 0x00000131 = .error .reservedBits ∧ decode 0x00000003 = .error .undefinedOpcode

/-- R50, R51: decoding the word of a well-formed command gives the command back. -/
def Obligations.DecodeOfEncodeIsTheCommand : Prop :=
  ∀ i : Instr, i.wellFormed = true → decode (encode i) = .ok i

/-- R51, R54: a word is accepted exactly when it equals one of the seventeen opcodes. -/
def Obligations.AcceptedWordsAreTheSeventeenOpcodes : Prop :=
  ∀ (w : CommandWord) (i : Instr), decode w = .ok i ↔
    (w, i) ∈ ([(0x00, .nop), (0x01, .reset), (0x02, .config), (0x10, .gfadd), (0x11, .gfmul),
      (0x12, .gfinv), (0x13, .vmadd), (0x20, .setSeed), (0x21, .generate), (0x30, .push), (0x31, .pop),
      (0x32, .setWindow), (0x40, .writeSymbol), (0x41, .writeSourceSymbol), (0x50, .readSymbol),
      (0x51, .readSourceSymbol), (0x52, .qstate)] : List (CommandWord × Instr))

/-- R18, R52: a `CMD` write whose low 32 bits decode to a command runs that command on the state whose host
list has lost this action; `withFetchWord` puts a command where the next step finds it; with nothing left
in the host's list nothing happens (the host's list and its end are the model's, log 1). -/
def Obligations.StepRunsTheDecodedCommand : Prop :=
  (∀ (s : State) (v : Word) (rest : List HostAction) (i : Instr),
    s.program = .writeReg 0x00 v :: rest → decode (v.setWidth 32) = .ok i →
    step s = exec i { s with program := rest }) ∧
  (∀ (s : State) (i : Instr), step (s.withFetchWord 32 (encode i).toNat) = exec i s) ∧
  (∀ s : State, s.program = [] → step s = .next s)

/-- R54: a word that is not one of the seventeen raises `F_ILLEGAL` with the word as information; whatever
its opcode bits, it is never a no-operation. -/
def Obligations.IllegalWordRaisesIllegal : Prop :=
  ∀ (s : State) (v : Word) (rest : List HostAction),
    s.program = .writeReg 0x00 v :: rest → s.fault = false →
    (v.setWidth 32 : CommandWord) ∉ ([0x00, 0x01, 0x02, 0x10, 0x11, 0x12, 0x13, 0x20, 0x21, 0x30, 0x31, 0x32,
      0x40, 0x41, 0x50, 0x51, 0x52] : List CommandWord) →
    step s = .next { s with program := rest, fault := true, cause := .illegal, fop := v.extractLsb' 0 8,
                            finfo := (v.setWidth 32 : CommandWord).setWidth 64 }

/-- R144: in the fault state a command word other than `RESET`'s changes nothing, while the host's register
reads and its writes of `A0` to `A3` work as always. -/
def Obligations.FaultStateIgnoresCommands : Prop :=
  ∀ (s : State) (v : Word) (rest : List HostAction), s.fault = true →
    (s.program = .writeReg 0x00 v :: rest → (v.setWidth 32 : CommandWord) ≠ 0x00000001 →
      step s = .next { s with program := rest }) ∧
    (s.program = .writeReg 0x20 v :: rest → step s = .next { s with program := rest, a0 := v }) ∧
    (s.program = .writeReg 0x28 v :: rest → step s = .next { s with program := rest, a1 := v }) ∧
    (s.program = .writeReg 0x30 v :: rest → step s = .next { s with program := rest, a2 := v }) ∧
    (s.program = .writeReg 0x38 v :: rest → step s = .next { s with program := rest, a3 := v }) ∧
    (∀ offset, s.program = .readReg offset :: rest → offset % 8 = 0 → offset < 0x100 →
      step s = .next { s with program := rest,
                              returned := s.returned ++ [.reg (s.readOffset offset)] })

/-- R145, R160: the only ways out of the fault state are `RESET` and a hardware reset (an action of the host's
list in the model, log 10), and both have the same effect, that of `ResetClearsEveryCell`. -/
def Obligations.OnlyResetLeavesTheFaultState : Prop :=
  (∀ s t : State, s.fault = true → step s = .next t → t.fault = false →
    ∃ rest, (s.program = .hardReset :: rest ∨
        ∃ v : Word, s.program = .writeReg 0x00 v :: rest ∧ (v.setWidth 32 : CommandWord) = 0x00000001) ∧
      t = ({ s with program := rest } : State).toReset) ∧
  (∀ (s : State) (rest : List HostAction), s.program = .hardReset :: rest →
    step s = .next ({ s with program := rest } : State).toReset) ∧
  (∀ (s : State) (rest : List HostAction) (v : Word), s.program = .writeReg 0x00 v :: rest →
    (v.setWidth 32 : CommandWord) = 0x00000001 →
    step s = .next ({ s with program := rest } : State).toReset)

/-- R20: an access that is not at an aligned offset below 0x100 has no meaning and is refused (U9); a read
returns the register and changes nothing else; a write of a read-only or reserved register is ignored; a
write of `A0` to `A3` stores the value. All of it in every unit state. -/
def Obligations.RegisterAccessRules : Prop :=
  ∀ (s : State) (rest : List HostAction) (offset : Nat) (v : Word),
    (offset % 8 ≠ 0 ∨ 0x100 ≤ offset →
      (s.program = .readReg offset :: rest → step s = .refused .registerAccess) ∧
      (s.program = .writeReg offset v :: rest → step s = .refused .registerAccess)) ∧
    (offset % 8 = 0 → offset < 0x100 → s.program = .readReg offset :: rest →
      step s = .next { s with program := rest,
                              returned := s.returned ++ [.reg (s.readOffset offset)] }) ∧
    (offset % 8 = 0 → offset < 0x100 → offset ∉ [0x00, 0x20, 0x28, 0x30, 0x38] →
      s.program = .writeReg offset v :: rest → step s = .next { s with program := rest }) ∧
    (s.program = .writeReg 0x20 v :: rest → step s = .next { s with program := rest, a0 := v }) ∧
    (s.program = .writeReg 0x28 v :: rest → step s = .next { s with program := rest, a1 := v }) ∧
    (s.program = .writeReg 0x30 v :: rest → step s = .next { s with program := rest, a2 := v }) ∧
    (s.program = .writeReg 0x38 v :: rest → step s = .next { s with program := rest, a3 := v })

/-- R19, R22, R31 to R37: what the host reads at each offset of the register map, and 0 at the reserved
offsets. -/
def Obligations.RegisterMapContents : Prop :=
  ∀ s : State,
    s.readOffset 0x00 = 0 ∧ s.readOffset 0x08 = s.status ∧ s.readOffset 0x10 = s.res ∧
    s.readOffset 0x18 = s.finfo ∧ s.readOffset 0x20 = s.a0 ∧ s.readOffset 0x28 = s.a1 ∧
    s.readOffset 0x30 = s.a2 ∧ s.readOffset 0x38 = s.a3 ∧ s.readOffset 0x40 = fieldCode s.field ∧
    s.readOffset 0x48 = BitVec.ofNat 64 s.symsize.toNat ∧ s.readOffset 0x50 = BitVec.ofNat 64 s.cap ∧
    s.readOffset 0x58 = s.lower ∧ s.readOffset 0x60 = s.upper ∧
    s.readOffset 0x68 = BitVec.ofNat 64 (s.upper.toNat - s.lower.toNat) ∧
    s.readOffset 0x70 = s.wlower ∧ s.readOffset 0x78 = s.wsyms ∧
    s.readOffset 0x80 =
      (if s.ready then BitVec.ofNat 64 ((s.wsyms.toNat * width s.field + 7) / 8) else 0) ∧
    s.readOffset 0x88 = s.seed ∧ s.readOffset 0x90 = BitVec.ofNat 64 s.rank ∧
    s.readOffset 0x98 = BitVec.ofNat 64 (s.countState .decoded) ∧
    s.readOffset 0xA0 = BitVec.ofNat 64 (s.countState .partiallyDecoded) ∧
    s.readOffset 0xA8 = BitVec.ofNat 64 (s.countState .missing) ∧
    ∀ offset, 0xB0 ≤ offset → offset ≤ 0xF8 → s.readOffset offset = 0

/-- R23, R141: the fields of `STATUS`, its reserved bits, and the codes of the causes. -/
def Obligations.StatusHoldsTheFlags : Prop :=
  (∀ s : State,
    s.status.getLsbD 0 = s.ready ∧ s.status.getLsbD 1 = s.fault ∧ s.status.getLsbD 2 = s.adv ∧
    s.status.extractLsb' 3 5 = 0 ∧ s.status.extractLsb' 8 8 = causeCode s.cause ∧
    s.status.extractLsb' 16 8 = s.fop ∧ s.status.extractLsb' 24 40 = 0) ∧
  [Cause.none, .illegal, .state, .config, .window, .empty, .capacity, .index, .invzero, .operand,
    .bus].map causeCode = [0, 1, 2, 3, 4, 5, 6, 7, 8, 9, 10]

/-- R41, R48: a host read returns what the host wrote just before, at every address, mapped for the unit or not, and
no other byte changes. An access that runs past the last address stops: the stop is the model's choice (log 8). -/
def Obligations.HostReadsBackWhatItWrote : Prop :=
  ∀ (s : State) (a : Word) (bs : List Byte) (rest : List HostAction),
    s.program = .memWrite a bs :: .memRead a bs.length :: rest →
    (a.toNat + bs.length ≤ 2 ^ 64 →
      ∃ t, Host.Core.run Sys2Proof.core 2 s = .next t ∧
        t = { s with mem := t.mem, program := rest, returned := s.returned ++ [.bytes bs] } ∧
        ∀ x, ¬ inRange x a.toNat bs.length → t.mem.readByte x = s.mem.readByte x) ∧
    (2 ^ 64 < a.toNat + bs.length → step s = .fault .hostPastTop)

/-- R53, R56: the host actions of a command line write its operands to `A0`, `A1`, ... and then issue the
command; operand registers beyond them keep their values. -/
def Obligations.CommandLineRunsItsCommand : Prop :=
  ∀ (s : State) (i : Instr) (ops : List Word) (rest : List HostAction), ops.length = i.arity →
    s.program = lineActions (.command i ops) ++ rest →
    ∃ u : State, Host.Core.run Sys2Proof.core ops.length s = .next u ∧
      u = { s with a0 := ops.getD 0 s.a0, a1 := ops.getD 1 s.a1, a2 := ops.getD 2 s.a2,
                   a3 := ops.getD 3 s.a3, program := u.program } ∧
      step u = exec i { u with program := rest }

/-- R44: `RangeOK` holds exactly when the range does not pass the top of the address space and every byte of
it lies in a mapped region. -/
def Obligations.RangeOkMeansEveryByteMapped : Prop :=
  ∀ (s : State) (a : Word) (n : Nat), s.rangeOK a n = true ↔
    a.toNat + n ≤ 2 ^ 64 ∧
      ∀ k, k < n → ∃ r ∈ s.mapped, r.base ≤ a.toNat + k ∧ a.toNat + k < r.base + r.size

/-! ### Control commands -/

/-- R90: `NOP` changes nothing, in every unit state. -/
def Obligations.NopChangesNothing : Prop :=
  decode 0x00000000 = .ok .nop ∧ ∀ s : State, exec .nop s = .next s

/-- R91, R161: after `RESET`, in every unit state, every cell of the unit is 0, the derived registers read 0, and
memory, `CAP` and `Mapped` are as before. -/
def Obligations.ResetClearsEveryCell : Prop :=
  decode 0x00000001 = .ok .reset ∧
  ∀ s : State, ∃ t, exec .reset s = .next t ∧
    t.a0 = 0 ∧ t.a1 = 0 ∧ t.a2 = 0 ∧ t.a3 = 0 ∧ t.res = 0 ∧ t.finfo = 0 ∧ t.status = 0 ∧
    t.ready = false ∧ t.fault = false ∧ t.adv = false ∧ t.cause = .none ∧ t.fop = 0 ∧
    fieldCode t.field = 0 ∧ t.symsize = 0 ∧ t.lower = 0 ∧ t.upper = 0 ∧ t.wlower = 0 ∧ t.wsyms = 0 ∧
    t.seed = 0 ∧ (∀ p, t.slotAt p = ⟨0, false, false⟩) ∧ (∀ p q, t.coefAt p q = 0) ∧
    (∀ r ∈ [Reg.rank, .ndec, .npart, .nmiss, .nsyms, .coefbytes], t.readReg r = 0) ∧
    t.readReg .capacity = BitVec.ofNat 64 s.cap ∧ t.mem = s.mem ∧ t.cap = s.cap ∧ t.mapped = s.mapped

/-- R92: the four checks of `CONFIG` in order, and its effect when they pass. -/
def Obligations.ConfigChecksThenConfigures : Prop :=
  decode 0x00000002 = .ok .config ∧
  (∀ s : State, s.fault = true → exec .config s = .next s) ∧
  ∀ s : State, s.fault = false →
    (s.ready = true → exec .config s = .next (s.raise .state 0x02 s.status)) ∧
    (s.ready = false → 3 < s.a0.toNat → exec .config s = .next (s.raise .config 0x02 s.a0)) ∧
    (s.ready = false → s.a0.toNat ≤ 3 → s.a1 = 0 ∨ 2 ^ 32 - 1 < s.a1.toNat →
      exec .config s = .next (s.raise .config 0x02 s.a1)) ∧
    (s.ready = false → s.a0 = 3 → s.a1 ≠ 0 → s.a1.toNat ≤ 2 ^ 32 - 1 → s.a1.toNat % 2 = 1 →
      exec .config s = .next (s.raise .config 0x02 s.a1)) ∧
    (s.ready = false → s.a0.toNat ≤ 3 → s.a1 ≠ 0 → s.a1.toNat ≤ 2 ^ 32 - 1 →
      (s.a0 = 3 → s.a1.toNat % 2 = 0) →
      ∃ f : FieldId, fieldCode f = s.a0 ∧
        exec .config s = .next { s with field := f, symsize := BitVec.ofNat 32 s.a1.toNat, ready := true })

/-! ### Field arithmetic -/

/-- R72: `GFADD` writes the exclusive or of the low `w` bits of `A0` and `A1` to `RES`, and nothing else. -/
def Obligations.GfaddWritesExclusiveOr : Prop :=
  GuardedCommand .gfadd 0x00000010 ∧
  ∀ s : State, s.Active →
    exec .gfadd s = .next { s with res := (s.a0 ^^^ s.a1) &&& BitVec.ofNat 64 (2 ^ width s.field - 1) }

/-- R73: `GFMUL` writes the field product of the low `w` bits of `A0` and `A1` to `RES`, and nothing else. -/
def Obligations.GfmulWritesProduct : Prop :=
  GuardedCommand .gfmul 0x00000011 ∧
  ∀ s : State, s.Active →
    exec .gfmul s = .next { s with
      res := BitVec.ofNat 64 (gfMul s.field (lowElem s.field s.a0) (lowElem s.field s.a1)).toNat }

/-- R74: `GFINV` faults on an element 0 with the full operand as information; else it writes the inverse of
the element to `RES`, and nothing else. -/
def Obligations.GfinvWritesInverse : Prop :=
  GuardedCommand .gfinv 0x00000012 ∧
  ∀ s : State, s.Active →
    (s.a0.toNat % 2 ^ width s.field = 0 → exec .gfinv s = .next (s.raise .invzero 0x12 s.a0)) ∧
    (s.a0.toNat % 2 ^ width s.field ≠ 0 →
      exec .gfinv s =
        .next { s with res := BitVec.ofNat 64 (gfInv s.field (lowElem s.field s.a0)).toNat })

/-- R65: for `0 < a < 2^w`, `inv(a)` is the one element whose product with `a` is 1. -/
def Obligations.InverseIsTheOneElementWithProductOne : Prop :=
  ∀ (f : FieldId) (a : Elem), 0 < a.toNat → a.toNat < 2 ^ width f →
    (gfInv f a).toNat < 2 ^ width f ∧ gfMul f a (gfInv f a) = 1 ∧
    ∀ b : Elem, b.toNat < 2 ^ width f → gfMul f a b = 1 → b = gfInv f a

/-- R64: in binary the product is the bitwise and; in the other fields it is below `2^w` and congruent to the
product of the two polynomials over GF(2) modulo `P_w`. -/
def Obligations.ProductIsThePolynomialProductModP : Prop :=
  let pol : Nat → Polynomial (ZMod 2) := fun v =>
    ∑ k ∈ Finset.range 17, if v.testBit k then Polynomial.X ^ k else 0
  (∀ a b : Elem, a.toNat < 2 → b.toNat < 2 → gfMul .binary a b = a &&& b) ∧
  ∀ (f : FieldId) (p : Nat), (f, p) ∈ [(FieldId.binary4, 0x13), (.binary8, 0x11D), (.binary16, 0x1100B)] →
    ∀ a b : Elem, a.toNat < 2 ^ width f → b.toNat < 2 ^ width f →
      (gfMul f a b).toNat < 2 ^ width f ∧
      pol p ∣ pol a.toNat * pol b.toNat - pol (gfMul f a b).toNat ∧
      gfMul f a 0 = 0 ∧ gfMul f 0 a = 0 ∧ gfMul f a 1 = a

/-- R76: the elements below `2^w` are closed under `add` and `mul` and form a field of characteristic 2. -/
def Obligations.ElementsObeyTheFieldLaws : Prop :=
  ∀ (f : FieldId) (a b c : Elem),
    a.toNat < 2 ^ width f → b.toNat < 2 ^ width f → c.toNat < 2 ^ width f →
    (gfAdd a b).toNat < 2 ^ width f ∧ (gfMul f a b).toNat < 2 ^ width f ∧
    gfAdd a b = gfAdd b a ∧ gfAdd (gfAdd a b) c = gfAdd a (gfAdd b c) ∧ gfAdd a a = 0 ∧ gfAdd a 0 = a ∧
    gfMul f a b = gfMul f b a ∧ gfMul f (gfMul f a b) c = gfMul f a (gfMul f b c) ∧
    gfMul f a (gfAdd b c) = gfAdd (gfMul f a b) (gfMul f a c) ∧ gfMul f a 1 = a ∧ gfMul f a 0 = 0 ∧
    (a ≠ 0 → gfMul f a (gfInv f a) = 1) ∧ (gfMul f a b = 0 → a = 0 ∨ b = 0)

/-- R66: where an element of a packed buffer lies, and that `SetElem` replaces that element and no other, nor a
byte that belongs to no element. -/
def Obligations.PackedElementsFollowTheTable : Prop :=
  (∀ (buf : List Byte) (k : Nat),
    (elemAt .binary buf k).toNat = (buf.getD (k / 8) 0).toNat / 2 ^ (k % 8) % 2 ∧
    (elemAt .binary4 buf k).toNat =
      (if k % 2 = 0 then (buf.getD (k / 2) 0).toNat % 16 else (buf.getD (k / 2) 0).toNat / 16) ∧
    (elemAt .binary8 buf k).toNat = (buf.getD k 0).toNat ∧
    (elemAt .binary16 buf k).toNat =
      (buf.getD (2 * k) 0).toNat + 256 * (buf.getD (2 * k + 1) 0).toNat) ∧
  ∀ (f : FieldId) (buf : List Byte) (k j : Nat) (v : Elem),
    k < numElems f buf.length → j < numElems f buf.length → v.toNat < 2 ^ width f →
    (setElem f buf k v).length = buf.length ∧
    elemAt f (setElem f buf k v) j = (if j = k then v else elemAt f buf j) ∧
    ∀ m, numElems f buf.length * width f / 8 ≤ m → (setElem f buf k v).getD m 0 = buf.getD m 0

/-- R68, R69: `VecMAdd` and `VecScale` element by element, with the special cases of R68. -/
def Obligations.PackedVectorsAreElementwise : Prop :=
  ∀ (f : FieldId) (dst src : List Byte) (e : Elem), dst.length = src.length → e.toNat < 2 ^ width f →
    (f = .binary16 → dst.length % 2 = 0) →
    (vecMAdd f dst src e).length = dst.length ∧
    (∀ k, k < numElems f dst.length →
      elemAt f (vecMAdd f dst src e) k = gfAdd (elemAt f dst k) (gfMul f e (elemAt f src k))) ∧
    vecMAdd f dst src 0 = dst ∧ vecMAdd f dst src 1 = List.zipWith (· ^^^ ·) dst src ∧
    vecMAdd f (vecMAdd f dst src e) src e = dst ∧
    (vecScale f dst e).length = dst.length ∧
    ∀ k, k < numElems f dst.length → elemAt f (vecScale f dst e) k = gfMul f e (elemAt f dst k)

/-- R77: element `e` of a linear combination is the field sum of the products of the coefficients with the
elements `e` of the buffers; without terms it is zero bytes; the order of the terms does not matter. -/
def Obligations.LinearCombinationIsTheFieldSum : Prop :=
  ∀ (f : FieldId) (n : Nat) (terms : List (Elem × List Byte)),
    (∀ t ∈ terms, t.2.length = n) → (f = .binary16 → n % 2 = 0) →
    linComb f n [] = List.replicate n 0 ∧ (linComb f n terms).length = n ∧
    (∀ e, e < numElems f n →
      elemAt f (linComb f n terms) e =
        (terms.map fun t => gfMul f t.1 (elemAt f t.2 e)).foldl gfAdd 0) ∧
    ∀ terms', terms.Perm terms' → linComb f n terms' = linComb f n terms

/-- R75: the checks of `VMADD` in order, the overlap it refuses (U3), and its effect: exactly the bytes of the
destination change, to `VecMAdd` of the two buffers as they were. -/
def Obligations.VmaddChecksThenAdds : Prop :=
  GuardedCommand .vmadd 0x00000013 ∧
  ∀ s : State, s.Active →
    let n := s.a3.toNat
    (s.field = .binary16 → n % 2 = 1 → exec .vmadd s = .next (s.raise .operand 0x13 s.a3)) ∧
    ((s.field = .binary16 → n % 2 = 0) →
      (s.rangeOK s.a0 n = false → exec .vmadd s = .next (s.raise .bus 0x13 s.a0)) ∧
      (s.rangeOK s.a0 n = true → s.rangeOK s.a1 n = false →
        exec .vmadd s = .next (s.raise .bus 0x13 s.a1)) ∧
      (s.rangeOK s.a0 n = true → s.rangeOK s.a1 n = true →
        (s.a0 ≠ s.a1 → overlap s.a0.toNat n s.a1.toNat n = true →
          exec .vmadd s = .refused .overlappingBuffers) ∧
        (s.a0 = s.a1 ∨ overlap s.a0.toNat n s.a1.toNat n = false →
          (vecMAdd s.field (s.mem.readBytes s.a0.toNat n) (s.mem.readBytes s.a1.toNat n)
            (lowElem s.field s.a2)).length = n ∧
          StoresExactly .vmadd s s.a0
            (vecMAdd s.field (s.mem.readBytes s.a0.toNat n) (s.mem.readBytes s.a1.toNat n)
              (lowElem s.field s.a2)))))

/-! ### The generator -/

/-- R81: `SM64` is the printed formula over natural numbers modulo `2^64`. -/
def Obligations.Sm64IsThePrintedFormula : Prop :=
  ∀ (seed : Word) (k : Nat),
    let z0 := (seed.toNat + (k + 1) * 0x9E3779B97F4A7C15) % 2 ^ 64
    let z1 := ((z0 ^^^ (z0 >>> 30)) * 0xBF58476D1CE4E5B9) % 2 ^ 64
    let z2 := ((z1 ^^^ (z1 >>> 27)) * 0x94D049BB133111EB) % 2 ^ 64
    (sm64 seed k).toNat = z2 ^^^ (z2 >>> 31)

/-- R82: the length of a generated vector, each of its bytes, and the padding bits of the last. -/
def Obligations.GeneratedBytesComeFromTheWords : Prop :=
  ∀ (f : FieldId) (seed : Word) (ws : Nat),
    (genBytes f seed ws).length = (ws * width f + 7) / 8 ∧
    ∀ t, t < (ws * width f + 7) / 8 →
      ((genBytes f seed ws).getD t 0).toNat =
        (sm64 seed (t / 8)).toNat / 2 ^ (8 * (t % 8)) %
          (if t + 1 = (ws * width f + 7) / 8 ∧ ws * width f % 8 ≠ 0 then 2 ^ (ws * width f % 8) else 256)

/-- R83: `SET_SEED` writes `A0` to `SEED`, and nothing else. -/
def Obligations.SetSeedWritesTheSeed : Prop :=
  GuardedCommand .setSeed 0x00000020 ∧
  ∀ s : State, s.Active → exec .setSeed s = .next { s with seed := s.a0 }

/-- R84: the checks of `GENERATE` in order, the overlap it refuses (U3), and its effect: exactly the bytes of
the output buffer change, to the generated vector. -/
def Obligations.GenerateChecksThenWritesTheVector : Prop :=
  GuardedCommand .generate 0x00000021 ∧
  ∀ s : State, s.Active →
    let n := (s.wsyms.toNat * width s.field + 7) / 8
    (s.windowOK = false → exec .generate s = .next (s.raise .window 0x21 s.wlower)) ∧
    (s.windowOK = true → s.rangeOK s.a0 n = false → exec .generate s = .next (s.raise .bus 0x21 s.a0)) ∧
    (s.windowOK = true → s.rangeOK s.a0 n = true → s.overlapsLive s.a0 n = true →
      exec .generate s = .refused .overlappingBuffers) ∧
    (s.windowOK = true → s.rangeOK s.a0 n = true → s.overlapsLive s.a0 n = false →
      StoresExactly .generate s s.a0 (genBytes s.field s.seed s.wsyms.toNat))

/-- R86: two units with equal `FIELD`, `WSYMS` and `SEED` write equal bytes. -/
def Obligations.EqualSeedsGenerateEqualBytes : Prop :=
  ∀ s s' t t' : State, s.Active → s'.Active →
    s.field = s'.field → s.wsyms = s'.wsyms → s.seed = s'.seed →
    exec .generate s = .next t → t.fault = false → exec .generate s' = .next t' → t'.fault = false →
    t.mem.readBytes s.a0.toNat s.vectorBytes = t'.mem.readBytes s'.a0.toNat s'.vectorBytes

/-! ### Stream and window -/

/-- R101: the checks of `PUSH` in order, the overlap it refuses (U3), and its effect: a missing slot with the
buffer `A0` at the old `UPPER`, its row and column 0, every other slot and coefficient as before. -/
def Obligations.PushChecksThenAppendsAMissingSlot : Prop :=
  GuardedCommand .push 0x00000030 ∧
  ∀ s : State, s.Active →
    let n := s.symsize.toNat
    let p := s.upper.toNat % s.cap
    (s.upper.toNat - s.lower.toNat = s.cap → exec .push s = .next (s.raise .capacity 0x30 s.upper)) ∧
    (s.upper.toNat - s.lower.toNat ≠ s.cap →
      (s.upper.toNat = 2 ^ 64 - 1 → exec .push s = .next (s.raise .index 0x30 s.upper)) ∧
      (s.upper.toNat ≠ 2 ^ 64 - 1 → s.rangeOK s.a0 n = false →
        exec .push s = .next (s.raise .bus 0x30 s.a0)) ∧
      (s.upper.toNat ≠ 2 ^ 64 - 1 → s.rangeOK s.a0 n = true → s.overlapsLive s.a0 n = true →
        exec .push s = .refused .overlappingBuffers) ∧
      (s.upper.toNat ≠ 2 ^ 64 - 1 → s.rangeOK s.a0 n = true → s.overlapsLive s.a0 n = false →
        ∃ t, exec .push s = .next t ∧
          t = { s with res := s.upper, upper := s.upper + 1, slots := t.slots, coef := t.coef } ∧
          (∀ q, t.slotAt q = if q = p then ⟨s.a0, false, false⟩ else s.slotAt q) ∧
          ∀ q r, t.coefAt q r = if q = p ∨ r = p then 0 else s.coefAt q r))

/-- R102: `POP` on an empty stream faults; else the slot at `LOWER` goes with its row and its column, every
other stored row with a nonzero coefficient in that column is frozen, and nothing else changes. -/
def Obligations.PopDropsTheLowestSlot : Prop :=
  GuardedCommand .pop 0x00000031 ∧
  ∀ s : State, s.Active →
    let i := s.lower.toNat
    let p := s.lower.toNat % s.cap
    (s.upper = s.lower → exec .pop s = .next (s.raise .empty 0x31 s.lower)) ∧
    (s.BoundsOk → s.upper ≠ s.lower →
      ∃ t, exec .pop s = .next t ∧
        t = { s with res := s.lower, lower := s.lower + 1, slots := t.slots, coef := t.coef } ∧
        t.slotAt p = ⟨0, false, false⟩ ∧
        (∀ r, s.isLive r = true → r ≠ i →
          t.slot r = { s.slot r with
            frz := (s.slot r).frz || ((s.slot r).piv && decide (s.coefOf r i ≠ 0)) }) ∧
        (∀ q, (∀ r, s.isLive r = true → s.phys r ≠ q) → t.slotAt q = s.slotAt q) ∧
        ∀ q r, t.coefAt q r = if q = p ∨ r = p then 0 else s.coefAt q r)

/-- R104: `SET_WINDOW` accepts exactly the windows inside the stream, without wrap-around, and writes the two
window registers, and nothing else. -/
def Obligations.SetWindowChecksThenSets : Prop :=
  GuardedCommand .setWindow 0x00000032 ∧
  ∀ s : State, s.Active →
    (¬ (s.lower.toNat ≤ s.a0.toNat ∧ s.a0.toNat + s.a1.toNat ≤ s.upper.toNat) →
      exec .setWindow s = .next (s.raise .window 0x32 s.a0)) ∧
    (s.lower.toNat ≤ s.a0.toNat → s.a0.toNat + s.a1.toNat ≤ s.upper.toNat →
      exec .setWindow s = .next { s with wlower := s.a0, wsyms := s.a1 })

/-! ### The encoder -/

/-- R110: the checks of `WRITE_SYMBOL` in order, the overlaps it refuses (U3), and its effect: exactly the
bytes of the output buffer change, to the linear combination of the window's payloads. -/
def Obligations.WriteSymbolChecksThenCombines : Prop :=
  GuardedCommand .writeSymbol 0x00000040 ∧
  ∀ s : State, s.Active →
    let n := s.symsize.toNat
    let l := (s.wsyms.toNat * width s.field + 7) / 8
    let cv := s.mem.readBytes s.a1.toNat l
    (s.windowOK = false → exec .writeSymbol s = .next (s.raise .window 0x40 s.wlower)) ∧
    (s.windowOK = true → s.rangeOK s.a0 n = false →
      exec .writeSymbol s = .next (s.raise .bus 0x40 s.a0)) ∧
    (s.windowOK = true → s.rangeOK s.a0 n = true → s.rangeOK s.a1 l = false →
      exec .writeSymbol s = .next (s.raise .bus 0x40 s.a1)) ∧
    (s.windowOK = true → s.rangeOK s.a0 n = true → s.rangeOK s.a1 l = true →
      (overlap s.a0.toNat n s.a1.toNat l = true ∨ s.overlapsLive s.a0 n = true →
        exec .writeSymbol s = .refused .overlappingBuffers) ∧
      (overlap s.a0.toNat n s.a1.toNat l = false → s.overlapsLive s.a0 n = false →
        (linComb s.field n ((List.range s.wsyms.toNat).map fun j =>
          (elemAt s.field cv j, s.payload (s.wlower.toNat + j)))).length = n ∧
        StoresExactly .writeSymbol s s.a0
          (linComb s.field n ((List.range s.wsyms.toNat).map fun j =>
            (elemAt s.field cv j, s.payload (s.wlower.toNat + j))))))

/-- R111: the checks of `WRITE_SOURCE_SYMBOL` in order, the overlap it refuses (U3), and its effect: exactly
the bytes of the output buffer change, to the payload of the named slot. -/
def Obligations.WriteSourceSymbolChecksThenCopies : Prop :=
  GuardedCommand .writeSourceSymbol 0x00000041 ∧
  ∀ s : State, s.Active →
    let n := s.symsize.toNat
    let live := s.lower.toNat ≤ s.a1.toNat ∧ s.a1.toNat < s.upper.toNat
    (¬ live → exec .writeSourceSymbol s = .next (s.raise .index 0x41 s.a1)) ∧
    (live → s.rangeOK s.a0 n = false → exec .writeSourceSymbol s = .next (s.raise .bus 0x41 s.a0)) ∧
    (live → s.rangeOK s.a0 n = true → s.overlapsLive s.a0 n = true →
      exec .writeSourceSymbol s = .refused .overlappingBuffers) ∧
    (live → s.rangeOK s.a0 n = true → s.overlapsLive s.a0 n = false →
      StoresExactly .writeSourceSymbol s s.a0
        (s.mem.readBytes (s.slotAt (s.a1.toNat % s.cap)).addr.toNat n))

/-- R112: `GENERATE`, `WRITE_SYMBOL` and `WRITE_SOURCE_SYMBOL` change no register and no payload of a live
slot, so any number of them see the same window and the same symbols. -/
def Obligations.EncoderCommandsAreReadOnly : Prop :=
  ∀ (i : Instr) (s t : State), i ∈ [Instr.generate, .writeSymbol, .writeSourceSymbol] → s.Active →
    exec i s = .next t → t.fault = false →
    t = { s with mem := t.mem } ∧ ∀ j, s.isLive j = true → t.payload j = s.payload j

/-! ### The decoder -/

/-- R121: the three states of a live slot. -/
def Obligations.SlotStateFollowsTheRow : Prop :=
  ∀ (s : State) (i : Nat), s.isLive i = true →
    (s.rowState i = .missing ↔ (s.slot i).piv = false) ∧
    (s.rowState i = .partiallyDecoded ↔ (s.slot i).piv = true ∧
      ((s.slot i).frz = true ∨ ∃ j, s.isLive j = true ∧ j ≠ i ∧ s.coefOf i j ≠ 0)) ∧
    (s.rowState i = .decoded ↔ (s.slot i).piv = true ∧ (s.slot i).frz = false ∧
      ∀ j, s.isLive j = true → j ≠ i → s.coefOf i j = 0) ∧
    [RowState.missing, .partiallyDecoded, .decoded].map rowStateCode = [0, 1, 2]

/-- R126: `QSTATE` of a live index writes the code of its slot's state to `RES`, and nothing else; any other
index faults. -/
def Obligations.QstateWritesTheSlotState : Prop :=
  GuardedCommand .qstate 0x00000052 ∧
  ∀ s : State, s.Active →
    (¬ (s.lower.toNat ≤ s.a0.toNat ∧ s.a0.toNat < s.upper.toNat) →
      exec .qstate s = .next (s.raise .index 0x52 s.a0)) ∧
    (s.lower.toNat ≤ s.a0.toNat → s.a0.toNat < s.upper.toNat →
      exec .qstate s = .next { s with
        res := match s.rowState s.a0.toNat with
          | .missing => 0
          | .partiallyDecoded => 1
          | .decoded => 2 })

/-- R35: the three slot states are counted without gap or overlap, and `RANK` counts the rows with a pivot;
all counters are 0 while the unit is unconfigured. -/
def Obligations.CountersAddUp : Prop :=
  (∀ s : State,
    s.countState .decoded + s.countState .partiallyDecoded + s.countState .missing =
      s.upper.toNat - s.lower.toNat ∧
    s.rank = s.countState .decoded + s.countState .partiallyDecoded) ∧
  ∀ s : State, s.ConfigOk → s.ready = false →
    s.rank = 0 ∧ s.countState .decoded = 0 ∧ s.countState .partiallyDecoded = 0 ∧ s.countState .missing = 0

/-- R124: `BackSubstitute(v)` adds `C[r][v]` times row `v` to every other stored row `r`, coefficients and
payload, passes the frozen bit on, and leaves every other byte and every other row as it was. -/
def Obligations.BackSubstituteAddsTheNewRow : Prop :=
  ∀ (s : State) (v : Nat), s.BoundsOk → s.BuffersOk → s.isLive v = true → (s.slot v).piv = true →
    let t := s.backSubstitute v
    let changed := fun r => r ≠ v ∧ (s.slot r).piv = true ∧ s.coefOf r v ≠ 0
    t = { s with coef := t.coef, slots := t.slots, mem := t.mem } ∧
    (∀ r j, s.isLive r = true → s.isLive j = true →
      (changed r → t.coefOf r j = gfAdd (s.coefOf r j) (gfMul s.field (s.coefOf r v) (s.coefOf v j))) ∧
      (¬ changed r → t.coefOf r j = s.coefOf r j)) ∧
    (∀ r, s.isLive r = true →
      (changed r → t.payload r = vecMAdd s.field (s.payload r) (s.payload v) (s.coefOf r v) ∧
        t.slot r = { s.slot r with frz := (s.slot r).frz || (s.slot v).frz }) ∧
      (¬ changed r → t.payload r = s.payload r ∧ t.slot r = s.slot r)) ∧
    ∀ x, (∀ r, s.isLive r = true → changed r → ¬ inRange x (s.slot r).addr.toNat s.symBytes) →
      t.mem.readByte x = s.mem.readByte x

/-- R123: the checks of `READ_SYMBOL` in order and the overlaps it refuses (U3); past them it completes. -/
def Obligations.ReadSymbolChecksThenCompletes : Prop :=
  GuardedCommand .readSymbol 0x00000050 ∧
  ∀ s : State, s.Active →
    let n := s.symsize.toNat
    let l := (s.wsyms.toNat * width s.field + 7) / 8
    (s.windowOK = false → exec .readSymbol s = .next (s.raise .window 0x50 s.wlower)) ∧
    (s.windowOK = true → s.rangeOK s.a0 n = false → exec .readSymbol s = .next (s.raise .bus 0x50 s.a0)) ∧
    (s.windowOK = true → s.rangeOK s.a0 n = true → s.rangeOK s.a1 l = false →
      exec .readSymbol s = .next (s.raise .bus 0x50 s.a1)) ∧
    (s.windowOK = true → s.rangeOK s.a0 n = true → s.rangeOK s.a1 l = true →
      (s.overlapsLive s.a0 n = true ∨ s.overlapsLive s.a1 l = true ∨
          overlap s.a0.toNat n s.a1.toNat l = true →
        exec .readSymbol s = .refused .overlappingBuffers) ∧
      (s.overlapsLive s.a0 n = false → s.overlapsLive s.a1 l = false →
          overlap s.a0.toNat n s.a1.toNat l = false →
        SafeResult (exec .readSymbol s)))

/-- R123 with its point (b): the coefficient side of a completed `READ_SYMBOL` in closed form. A row that
reduces to zero leaves every row and slot as it was; any other is scaled and stored at its lowest nonzero
column, which had no pivot, and is added to every stored row that references that column. -/
def Obligations.ReadSymbolEliminatesTheIncomingRow : Prop :=
  ∀ s t : State, s.Inv → s.Active → exec .readSymbol s = .next t → t.fault = false →
    let red := s.reducedCoef (s.memRead s.a1 s.vectorBytes)
    t = { s with adv := t.adv, res := t.res, slots := t.slots, coef := t.coef, mem := t.mem,
                 freeNext := t.freeNext } ∧
    ((∀ j, s.isLive j = true → red j = 0) →
      t.adv = false ∧ t.res = 0 ∧ t.slots = s.slots ∧ t.coef = s.coef) ∧
    ∀ v, s.isLive v = true → red v ≠ 0 → (∀ j, s.isLive j = true → j < v → red j = 0) →
      t.adv = true ∧ t.res.toNat = v ∧ (s.slot v).piv = false ∧
      t.slot v = { s.slot v with piv := true, frz := false } ∧
      (∀ r, s.isLive r = true → r ≠ v → t.slot r = s.slot r) ∧
      (∀ j, s.isLive j = true → t.coefOf v j = gfMul s.field (gfInv s.field (red v)) (red j)) ∧
      ∀ r j, s.isLive r = true → s.isLive j = true → r ≠ v →
        t.coefOf r j =
          if (s.slot r).piv = true then
            gfAdd (s.coefOf r j) (gfMul s.field (s.coefOf r v) (t.coefOf v j))
          else s.coefOf r j

/-- R123, R46: the payload side of a completed `READ_SYMBOL` in closed form, and every byte it leaves alone:
all of memory but the two incoming buffers, the new row's buffer and the buffers of the rows the new row is
added to. -/
def Obligations.ReadSymbolUpdatesThePayloads : Prop :=
  ∀ s t : State, s.Inv → s.Active → exec .readSymbol s = .next t → t.fault = false →
    let cv := s.memRead s.a1 s.vectorBytes
    let red := s.reducedCoef cv
    let free := fun x => ¬ inRange x s.a0.toNat s.symBytes ∧ ¬ inRange x s.a1.toNat s.vectorBytes
    ((∀ j, s.isLive j = true → red j = 0) → ∀ x, free x → t.mem.readByte x = s.mem.readByte x) ∧
    ∀ v, s.isLive v = true → red v ≠ 0 → (∀ j, s.isLive j = true → j < v → red j = 0) →
      t.payload v = vecScale s.field (s.reducedPayload cv (s.memRead s.a0 s.symBytes))
        (gfInv s.field (red v)) ∧
      (∀ r, s.isLive r = true → r ≠ v → (s.slot r).piv = true →
        t.payload r = vecMAdd s.field (s.payload r) (t.payload v) (s.coefOf r v)) ∧
      ∀ x, free x → ¬ inRange x (s.slot v).addr.toNat s.symBytes →
        (∀ r, s.isLive r = true → (s.slot r).piv = true → s.coefOf r v ≠ 0 →
          ¬ inRange x (s.slot r).addr.toNat s.symBytes) →
        t.mem.readByte x = s.mem.readByte x

/-- U4, R168: after a completed `READ_SYMBOL` each byte of the two incoming buffers is a free value. Where memory is
well formed, the numbers of these values are new: every number that memory held before is below `freeNext`, and
afterwards no two bytes share a number. The numbering of the free values is the model's choice (log 5). -/
def Obligations.ReadSymbolForgetsTheIncomingBuffers : Prop :=
  ∀ s t : State, s.Active → exec .readSymbol s = .next t → t.fault = false →
    t.freeNext = s.freeNext + s.symBytes + s.vectorBytes ∧
    (∀ k, k < s.symBytes → t.mem.readByte (s.a0.toNat + k) = Config.freeByte (s.freeNext + k)) ∧
    (∀ k, k < s.vectorBytes →
      t.mem.readByte (s.a1.toNat + k) = Config.freeByte (s.freeNext + s.symBytes + k)) ∧
    (s.MemoryOk →
      (∀ e ∈ s.mem.scratch, e.2 < s.freeNext) ∧
      ∀ e ∈ t.mem.scratch, ∀ e' ∈ t.mem.scratch, e.2 = e'.2 → e = e')

/-- R125: the checks of `READ_SOURCE_SYMBOL` in order, the overlap it refuses (U3), and its effect: the unit
row and the incoming payload at the named slot, added to every stored row that references its column, and
every other row, slot, register and byte as before. -/
def Obligations.ReadSourceSymbolChecksThenStoresTheUnitRow : Prop :=
  GuardedCommand .readSourceSymbol 0x00000051 ∧
  ∀ s : State, s.Active →
    let n := s.symsize.toNat
    let v := s.a1.toNat
    let live := s.lower.toNat ≤ v ∧ v < s.upper.toNat
    let incoming := s.mem.readBytes s.a0.toNat n
    let changed := fun r => r ≠ v ∧ (s.slot r).piv = true ∧ s.coefOf r v ≠ 0
    (¬ live → exec .readSourceSymbol s = .next (s.raise .index 0x51 s.a1)) ∧
    (live → s.rangeOK s.a0 n = false → exec .readSourceSymbol s = .next (s.raise .bus 0x51 s.a0)) ∧
    (live → s.rangeOK s.a0 n = true → s.overlapsLive s.a0 n = true →
      exec .readSourceSymbol s = .refused .overlappingBuffers) ∧
    (s.Inv → live → s.rangeOK s.a0 n = true → s.overlapsLive s.a0 n = false →
      ∃ t, exec .readSourceSymbol s = .next t ∧
        t = { s with adv := !(s.slot v).piv, res := s.a1, slots := t.slots, coef := t.coef, mem := t.mem } ∧
        t.slot v = { s.slot v with piv := true, frz := false } ∧ t.payload v = incoming ∧
        (∀ j, s.isLive j = true → t.coefOf v j = if j = v then 1 else 0) ∧
        (∀ r, s.isLive r = true → r ≠ v →
          t.slot r = s.slot r ∧
          (∀ j, s.isLive j = true →
            t.coefOf r j = if (s.slot r).piv = true ∧ j = v then 0 else s.coefOf r j) ∧
          (changed r → t.payload r = vecMAdd s.field (s.payload r) incoming (s.coefOf r v)) ∧
          (¬ changed r → t.payload r = s.payload r)) ∧
        ∀ x, ¬ inRange x (s.slot v).addr.toNat n →
          (∀ r, s.isLive r = true → changed r → ¬ inRange x (s.slot r).addr.toNat n) →
          t.mem.readByte x = s.mem.readByte x)

/-- R122: under the two read commands the state of a live slot only moves from missing to partially decoded to
decoded, and `RANK` does not decrease; `PUSH` adds a missing slot; `POP` takes the lowest slot away, with its
pivot if it has one; neither changes the state of another slot. -/
def Obligations.SlotStatesOnlyAdvance : Prop :=
  (∀ (i : Instr) (s t : State), i = .readSymbol ∨ i = .readSourceSymbol → s.Inv → exec i s = .next t →
    s.rank ≤ t.rank ∧
    ∀ k, s.isLive k = true →
      t.isLive k = true ∧ (rowStateCode (s.rowState k)).toNat ≤ (rowStateCode (t.rowState k)).toNat) ∧
  (∀ s t : State, s.Inv → s.Active → exec .push s = .next t → t.fault = false →
    t.rank = s.rank ∧ t.isLive s.upper.toNat = true ∧ t.rowState s.upper.toNat = .missing ∧
    ∀ k, s.isLive k = true → t.isLive k = true ∧ t.rowState k = s.rowState k) ∧
  ∀ s t : State, s.Inv → s.Active → exec .pop s = .next t → t.fault = false →
    t.isLive s.lower.toNat = false ∧
    s.rank = t.rank + (if (s.slot s.lower.toNat).piv then 1 else 0) ∧
    ∀ k, t.isLive k = true → s.isLive k = true ∧ t.rowState k = s.rowState k

/-- R123, R125: when a read command completes, `RANK` grows and `NMISS` shrinks by one exactly when it sets
`ADV`. -/
def Obligations.RankGrowsExactlyWithAdv : Prop :=
  ∀ (i : Instr) (s t : State), i = .readSymbol ∨ i = .readSourceSymbol → s.Inv → s.Active →
    exec i s = .next t → t.fault = false →
    t.rank = s.rank + (if t.adv then 1 else 0) ∧
    s.countState .missing = t.countState .missing + (if t.adv then 1 else 0)

/-- R30, R129 (b): every command keeps the stored rows consistent with the source symbols, and afterwards the
payload of every decoded slot is its source symbol, if the input is true: a coded symbol is the linear combination
that its vector names, a source symbol is that of its index, and `VMADD` writes no live slot's buffer (R163). -/
def Obligations.DecodedPayloadIsTheSourceSymbol : Prop :=
  ∀ (i : Instr) (s t : State) (src : Nat → List Byte), s.Inv →
    (∀ j, (src j).length = s.symBytes) → s.Consistent src →
    (i = .readSymbol → s.ConsistentInput src) →
    (i = .readSourceSymbol → s.memRead s.a0 s.symBytes = src s.a1.toNat) →
    (i = .vmadd → s.overlapsLive s.a0 s.a3.toNat = false) →
    exec i s = .next t →
    t.Consistent src ∧
    ∀ k, t.isLive k = true → t.rowState k = .decoded → t.payload k = src k

/-! ### Invariants and rules over every command -/

/-- R39, R161: the reset state has every invariant, whatever the parameters `CAP` and `Mapped` are. -/
def Obligations.ResetHasEveryInvariant : Prop :=
  State.reset.Inv ∧
  ∀ (cap : Nat) (mapped : List Region), 1 ≤ cap → cap ≤ 65535 →
    ({ State.reset with cap := cap, mapped := mapped } : State).Inv

/-- R36: `LOWER <= UPPER` and `UPPER - LOWER <= CAP` are kept by every step. -/
def Obligations.StepKeepsTheStreamBounds : Prop :=
  ∀ s t : State, s.BoundsOk → step s = .next t → t.BoundsOk

/-- R22, R23, R58, R93: what `READY` and `FAULT` say about the configuration and the fault registers is kept
by every step. -/
def Obligations.StepKeepsConfigurationAndFaultRegisters : Prop :=
  ∀ s t : State, s.ConfigOk → s.FaultOk → step s = .next t → t.ConfigOk ∧ t.FaultOk

/-- The canonical forms of memory, of the slot table and of the coefficient store are kept by every step (the
forms are the model's, log 4 and log 11). -/
def Obligations.StepKeepsTheCanonicalForms : Prop :=
  ∀ s t : State, step s = .next t →
    (s.mem.wf = true → t.mem.wf = true) ∧
    (tableWf natLt Slot.empty s.slots = true → tableWf natLt Slot.empty t.slots = true) ∧
    (tableWf pairLt 0 s.coef = true → tableWf pairLt 0 t.coef = true)

/-- R28: (a) to (g) hold after reset and every command keeps them. The other invariants stand as hypotheses:
`StepKeepsEveryInvariant` says that they are kept too. -/
def Obligations.CommandsKeepTheEliminationInvariants : Prop :=
  (∀ (cap : Nat) (mapped : List Region),
    ({ State.reset with cap := cap, mapped := mapped } : State).RowsOk) ∧
  ∀ (i : Instr) (s t : State), s.Inv → exec i s = .next t → t.RowsOk

/-- R22, R23, R28, R36, R41: every step, the host's own actions included, keeps every invariant. -/
def Obligations.StepKeepsEveryInvariant : Prop :=
  ∀ s t : State, s.Inv → step s = .next t → t.Inv

/-- R143: fault entry sets the four fault fields and nothing else, and a command that ends in a fault has done
nothing else. -/
def Obligations.FaultsArePrecise : Prop :=
  (∀ (s : State) (c : Cause) (op : BitVec 8) (info : Word),
    s.raise c op info = { s with fault := true, cause := c, fop := op, finfo := info }) ∧
  ∀ (i : Instr) (s t : State), s.fault = false → exec i s = .next t → t.fault = true →
    t = { s with fault := true, cause := t.cause, fop := i.opcode, finfo := t.finfo } ∧ t.cause ≠ .none

/-- R47, U3: a command answers a next state in every state, but for the seven commands that take buffers, which
are refused for overlapping buffers and for nothing else, and only in the ready state. -/
def Obligations.CommandsStopOnlyOnOverlap : Prop :=
  ∀ (i : Instr) (s : State),
    (∃ t, exec i s = .next t) ∨
    (exec i s = .refused .overlappingBuffers ∧ s.Active ∧
      i ∈ [Instr.vmadd, .generate, .push, .writeSymbol, .writeSourceSymbol, .readSymbol,
        .readSourceSymbol])

/-- R36, R105: no command but `RESET` lowers a stream bound; only `POP` moves `LOWER`, only `PUSH` moves
`UPPER`, each by one. -/
def Obligations.StreamBoundsOnlyGrow : Prop :=
  ∀ (i : Instr) (s t : State), i ≠ .reset → s.BoundsOk → exec i s = .next t →
    (t.lower.toNat = s.lower.toNat ∨ (i = .pop ∧ t.lower.toNat = s.lower.toNat + 1)) ∧
    (t.upper.toNat = s.upper.toNat ∨ (i = .push ∧ t.upper.toNat = s.upper.toNat + 1))

/-- R15, R16, R22 to R26, R37, R46: which commands can change which part of the state. That no command changes
the model's own fields `program` and `returned`, and only `READ_SYMBOL` `freeNext`, is the model's choice
(log 1, log 5, log 9). -/
def Obligations.OnlyTheNamedCommandsWrite : Prop :=
  ∀ (i : Instr) (s t : State), exec i s = .next t →
    (i ≠ .reset → t.a0 = s.a0 ∧ t.a1 = s.a1 ∧ t.a2 = s.a2 ∧ t.a3 = s.a3) ∧
    (i ∉ [Instr.gfadd, .gfmul, .gfinv, .push, .pop, .readSymbol, .readSourceSymbol, .qstate, .reset] →
      t.res = s.res) ∧
    (i ∉ [Instr.config, .reset] → t.field = s.field ∧ t.symsize = s.symsize ∧ t.ready = s.ready) ∧
    (i ∉ [Instr.readSymbol, .readSourceSymbol, .reset] → t.adv = s.adv) ∧
    (i ∉ [Instr.setSeed, .reset] → t.seed = s.seed) ∧
    (i ∉ [Instr.setWindow, .reset] → t.wlower = s.wlower ∧ t.wsyms = s.wsyms) ∧
    (i ∉ [Instr.push, .pop, .readSymbol, .readSourceSymbol, .reset] →
      t.slots = s.slots ∧ t.coef = s.coef) ∧
    (i ∉ [Instr.vmadd, .generate, .writeSymbol, .writeSourceSymbol, .readSymbol, .readSourceSymbol] →
      t.mem = s.mem) ∧
    (i ≠ .readSymbol → t.freeNext = s.freeNext) ∧
    t.cap = s.cap ∧ t.mapped = s.mapped ∧ t.program = s.program ∧ t.returned = s.returned

/-- R47, R103: the window test and the two overlap tests that the statements about commands name are the conditions
of these rules, written out. -/
def Obligations.WindowAndOverlapTestsAreTheWrittenConditions : Prop :=
  (∀ s : State, s.windowOK = true ↔
    s.lower.toNat ≤ s.wlower.toNat ∧ s.wlower.toNat + s.wsyms.toNat ≤ s.upper.toNat) ∧
  (∀ a n b m : Nat, overlap a n b m = true ↔ 0 < n ∧ 0 < m ∧ a < b + m ∧ b < a + n) ∧
  ∀ (s : State) (a : Word) (n : Nat), s.overlapsLive a n = true ↔
    ∃ i, s.lower.toNat ≤ i ∧ i < s.upper.toNat ∧
      0 < n ∧ 0 < s.symsize.toNat ∧
      a.toNat < (s.slotAt (i % s.cap)).addr.toNat + s.symsize.toNat ∧
      (s.slotAt (i % s.cap)).addr.toNat < a.toNat + n
end

