-- ==== Sys2Proof/Laws/Table.lean ====
section
/-! SUPPORT. What a sparse table reads after an update, and that every update keeps the canonical form. -/

namespace Sys2Proof.Machine

variable {κ β : Type} [DecidableEq κ]

@[simp] theorem tableFind_nil (a : κ) : tableFind ([] : List (κ × β)) a = none := rfl

theorem tableFind_cons (k : κ) (v : β) (m : List (κ × β)) (a : κ) :
    tableFind ((k, v) :: m) a = if a = k then some v else tableFind m a := rfl

theorem tableFind_none_of_not_mem (m : List (κ × β)) (a : κ) (h : ∀ e ∈ m, e.1 ≠ a) :
    tableFind m a = none := by
  induction m with
  | nil => rfl
  | cons e m ih =>
    obtain ⟨k, v⟩ := e
    rw [tableFind_cons, if_neg (fun hk => h (k, v) (by simp) hk.symm)]
    exact ih (fun e he => h e (by simp [he]))

theorem tableFind_mem {m : List (κ × β)} {a : κ} {v : β} (h : tableFind m a = some v) : (a, v) ∈ m := by
  induction m with
  | nil => simp at h
  | cons e m ih =>
    obtain ⟨k, w⟩ := e
    rw [tableFind_cons] at h
    split at h
    · simp_all
    · exact List.mem_cons_of_mem _ (ih h)

/-- A filter on keys keeps exactly the cells whose key passes. -/
theorem tableFind_filter (m : List (κ × β)) (p : κ → Bool) (a : κ) :
    tableFind (m.filter (fun e => p e.1)) a = if p a then tableFind m a else none := by
  induction m with
  | nil => simp
  | cons e m ih =>
    obtain ⟨k, v⟩ := e
    rw [List.filter_cons]
    by_cases hk : p k = true
    · rw [if_pos hk, tableFind_cons, tableFind_cons, ih]
      by_cases ha : a = k
      · subst ha; simp [hk]
      · simp [ha]
    · rw [if_neg hk, ih, tableFind_cons]
      by_cases ha : a = k
      · subst ha; simp [hk]
      · simp [ha]

theorem tableFind_erase (m : List (κ × β)) (a b : κ) :
    tableFind (tableErase m a) b = if b = a then none else tableFind m b := by
  rw [tableErase, tableFind_filter m (fun k => decide (k ≠ a))]
  by_cases h : b = a <;> simp [h]

theorem tableFind_insert (lt : κ → κ → Bool) (m : List (κ × β)) (a b : κ) (v : β)
    (h : tableFind m a = none) :
    tableFind (tableInsert lt m a v) b = if b = a then some v else tableFind m b := by
  induction m with
  | nil => rfl
  | cons e m ih =>
    obtain ⟨k, w⟩ := e
    rw [tableFind_cons] at h
    have hk : a ≠ k := fun hk => by rw [if_pos hk] at h; cases h
    rw [if_neg hk] at h
    rw [tableInsert]
    split
    · rfl
    · rw [tableFind_cons, ih h, tableFind_cons]
      by_cases hb : b = k
      · rw [if_pos hb, if_pos hb, if_neg (fun h' => hk (h'.symm.trans hb))]
      · rw [if_neg hb, if_neg hb]

/-- A cell after a cell was set: the one law of tables, for every table in any form. -/
theorem tableGet_put [DecidableEq β] (lt : κ → κ → Bool) (d : β) (m : List (κ × β)) (a b : κ) (v : β) :
    tableGet d (tablePut lt d m a v) b = if b = a then v else tableGet d m b := by
  unfold tableGet tablePut
  split
  · next h => rw [tableFind_erase]; by_cases hb : b = a <;> simp [hb, h]
  · rw [tableFind_insert _ _ _ _ _ (by simp [tableFind_erase]), tableFind_erase]
    by_cases hb : b = a <;> simp [hb]

theorem tableGet_filter (d : β) (m : List (κ × β)) (p : κ → Bool) (a : κ) :
    tableGet d (m.filter (fun e => p e.1)) a = if p a then tableGet d m a else d := by
  unfold tableGet; rw [tableFind_filter]; split <;> rfl

omit [DecidableEq κ] in
theorem mem_tableInsert {lt : κ → κ → Bool} {m : List (κ × β)} {a : κ} {v : β} {e : κ × β}
    (h : e ∈ tableInsert lt m a v) : e = (a, v) ∨ e ∈ m := by
  induction m with
  | nil => simpa [tableInsert] using h
  | cons x m ih =>
    obtain ⟨k, w⟩ := x
    rw [tableInsert] at h
    split at h
    · simpa using h
    · rcases List.mem_cons.mp h with rfl | h
      · simp
      · rcases ih h with rfl | h <;> simp_all

theorem mem_tableErase {m : List (κ × β)} {a : κ} {e : κ × β} (h : e ∈ tableErase m a) :
    e ∈ m ∧ e.1 ≠ a := by
  simpa [tableErase] using h

theorem mem_tablePut [DecidableEq β] {lt : κ → κ → Bool} {d : β} {m : List (κ × β)} {a : κ} {v : β}
    {e : κ × β} (h : e ∈ tablePut lt d m a v) : (e = (a, v) ∧ v ≠ d) ∨ (e ∈ m ∧ e.1 ≠ a) := by
  unfold tablePut at h
  split at h
  · exact .inr (mem_tableErase h)
  · next hv =>
    rcases mem_tableInsert h with rfl | h
    · exact .inl ⟨rfl, hv⟩
    · exact .inr (mem_tableErase h)

/-! ### The canonical form -/

/-- The order of keys is strict and total, as `natLt` and `pairLt` are. -/
structure StrictOrder (lt : κ → κ → Bool) : Prop where
  trans : ∀ a b c, lt a b = true → lt b c = true → lt a c = true
  total : ∀ a b, a ≠ b → lt a b = false → lt b a = true

theorem natLt_strict : StrictOrder natLt where
  trans a b c := by simp only [natLt, decide_eq_true_eq]; omega
  total a b := by simp only [natLt, decide_eq_true_eq, decide_eq_false_iff_not]; omega

theorem pairLt_strict : StrictOrder pairLt where
  trans a b c := by simp only [pairLt, decide_eq_true_eq]; omega
  total a b hab := by
    have : a.1 ≠ b.1 ∨ a.2 ≠ b.2 := by
      by_contra hc
      simp only [not_or, not_not] at hc
      exact hab (Prod.ext hc.1 hc.2)
    simp only [pairLt, decide_eq_true_eq, decide_eq_false_iff_not]
    omega

omit [DecidableEq κ] in
theorem tableSorted_filter {lt : κ → κ → Bool} {m : List (κ × β)} (h : tableSorted lt m = true)
    (p : κ × β → Bool) : tableSorted lt (m.filter p) = true := by
  simp only [tableSorted, decide_eq_true_eq] at *
  exact h.filter p

omit [DecidableEq κ] in
theorem tableSorted_insert {lt : κ → κ → Bool} (ho : StrictOrder lt) {m : List (κ × β)}
    (h : tableSorted lt m = true) (a : κ) (v : β) (ha : ∀ e ∈ m, e.1 ≠ a) :
    tableSorted lt (tableInsert lt m a v) = true := by
  simp only [tableSorted, decide_eq_true_eq] at *
  induction m with
  | nil => simp [tableInsert]
  | cons e m ih =>
    obtain ⟨k, w⟩ := e
    rw [List.pairwise_cons] at h
    rw [tableInsert]
    split
    · next hlt =>
      refine List.pairwise_cons.mpr ⟨fun x hx => ?_, List.pairwise_cons.mpr h⟩
      rcases List.mem_cons.mp hx with rfl | hx
      · exact hlt
      · exact ho.trans _ _ _ hlt (h.1 x hx)
    · next hlt =>
      have hk : a ≠ k := fun h' => ha (k, w) (by simp) h'.symm
      have hka : lt k a = true := ho.total a k hk (by simpa using hlt)
      refine List.pairwise_cons.mpr ⟨fun x hx => ?_, ih (fun e he => ha e (by simp [he])) h.2⟩
      rcases mem_tableInsert hx with rfl | hx
      · exact hka
      · exact h.1 x hx

theorem tableSorted_put [DecidableEq β] {lt : κ → κ → Bool} (ho : StrictOrder lt) {d : β}
    {m : List (κ × β)} (h : tableSorted lt m = true) (a : κ) (v : β) :
    tableSorted lt (tablePut lt d m a v) = true := by
  unfold tablePut
  split
  · exact tableSorted_filter h _
  · exact tableSorted_insert ho (tableSorted_filter h _) a v (fun e he => (mem_tableErase he).2)

/-- Setting a cell keeps the canonical form. -/
theorem tableWf_put [DecidableEq β] {lt : κ → κ → Bool} (ho : StrictOrder lt) {d : β}
    {m : List (κ × β)} (h : tableWf lt d m = true) (a : κ) (v : β) :
    tableWf lt d (tablePut lt d m a v) = true := by
  simp only [tableWf, Bool.and_eq_true, List.all_eq_true, decide_eq_true_eq] at *
  refine ⟨tableSorted_put ho h.1 a v, fun e he => ?_⟩
  rcases mem_tablePut he with ⟨rfl, hv⟩ | ⟨he, -⟩
  · exact hv
  · exact h.2 e he

omit [DecidableEq κ] in
theorem tableWf_filter [DecidableEq β] {lt : κ → κ → Bool} {d : β} {m : List (κ × β)}
    (h : tableWf lt d m = true) (p : κ × β → Bool) : tableWf lt d (m.filter p) = true := by
  simp only [tableWf, Bool.and_eq_true, List.all_eq_true, decide_eq_true_eq] at *
  exact ⟨tableSorted_filter h.1 p, fun e he => h.2 e (List.mem_of_mem_filter he)⟩

end Sys2Proof.Machine
end

