-- ==== Sys2Proof/Laws/Memory.lean ====
section
/-! SUPPORT. Reads after writes, and that every memory operation keeps the canonical form. -/

namespace Sys2Proof.Machine

/-! ### One byte -/

@[simp] theorem Memory.readByte_writeByte (m : Memory) (a x : Nat) (b : Byte) :
    (m.writeByte a b).readByte x = if x = a then b else m.readByte x := by
  unfold Memory.readByte Memory.writeByte
  simp only [tableFind_erase, tableGet_put]
  by_cases h : x = a <;> simp [h]

@[simp] theorem Memory.readByte_forgetByte (m : Memory) (a k x : Nat) :
    (m.forgetByte a k).readByte x = if x = a then Config.freeByte k else m.readByte x := by
  unfold Memory.readByte Memory.forgetByte
  simp only [tableFind_insert natLt (tableErase m.scratch a) a x k (by simp [tableFind_erase]),
    tableFind_erase, tableGet]
  by_cases h : x = a <;> simp [h]

/-! ### Ranges of bytes -/

@[simp] theorem Memory.length_readBytes (m : Memory) (a n : Nat) : (m.readBytes a n).length = n := by
  induction n generalizing a with
  | zero => rfl
  | succ n ih => simp [Memory.readBytes, ih]

theorem Memory.getElem_readBytes (m : Memory) (a n k : Nat) (h : k < (m.readBytes a n).length) :
    (m.readBytes a n)[k] = m.readByte (a + k) := by
  induction n generalizing a k with
  | zero => simp [Memory.readBytes] at h
  | succ n ih =>
    cases k with
    | zero => rfl
    | succ k =>
      simp only [Memory.readBytes, List.getElem_cons_succ]
      rw [ih]
      congr 1; omega

/-- A byte after a sequence of bytes was stored. -/
theorem Memory.readByte_writeBytes (m : Memory) (a x : Nat) (bs : List Byte) :
    (m.writeBytes a bs).readByte x =
      if h : a ≤ x ∧ x < a + bs.length then bs[x - a]'(by omega) else m.readByte x := by
  induction bs generalizing m a with
  | nil => simp [Memory.writeBytes]
  | cons b bs ih =>
    rw [Memory.writeBytes, ih]
    by_cases h1 : a + 1 ≤ x ∧ x < a + 1 + bs.length
    · rw [dif_pos h1, dif_pos (by simp; omega)]
      have : x - a = (x - (a + 1)) + 1 := by omega
      simp [this]
    · rw [dif_neg h1, Memory.readByte_writeByte]
      by_cases h2 : x = a
      · subst h2; simp
      · rw [if_neg h2, dif_neg (by simp; omega)]

/-- Every byte outside a stored range is as before. -/
theorem Memory.readByte_writeBytes_outside (m : Memory) (a x : Nat) (bs : List Byte)
    (h : x < a ∨ a + bs.length ≤ x) : (m.writeBytes a bs).readByte x = m.readByte x := by
  rw [Memory.readByte_writeBytes, dif_neg (by omega)]

/-- A byte after a range became unspecified. -/
theorem Memory.readByte_forgetBytes (m : Memory) (a k n x : Nat) :
    (m.forgetBytes a k n).readByte x =
      if a ≤ x ∧ x < a + n then Config.freeByte (k + (x - a)) else m.readByte x := by
  induction n generalizing m a k with
  | zero => simp [Memory.forgetBytes]
  | succ n ih =>
    rw [Memory.forgetBytes, ih, Memory.readByte_forgetByte]
    by_cases h1 : a + 1 ≤ x ∧ x < a + 1 + n
    · rw [if_pos h1, if_pos (by omega)]; congr 1; omega
    · rw [if_neg h1]
      by_cases h2 : x = a
      · subst h2; simp
      · rw [if_neg h2, if_neg (by omega)]

/-- A range reads the same in two memories that agree on its bytes. -/
theorem Memory.readBytes_congr {m m' : Memory} {a n : Nat}
    (h : ∀ x, a ≤ x → x < a + n → m.readByte x = m'.readByte x) : m.readBytes a n = m'.readBytes a n := by
  induction n generalizing a with
  | zero => rfl
  | succ n ih =>
    simp only [Memory.readBytes]
    rw [h a (by omega) (by omega), ih (fun x h1 h2 => h x (by omega) (by omega))]

/-- A range reads back the bytes stored to it. -/
theorem Memory.readBytes_writeBytes_same (m : Memory) (a : Nat) (bs : List Byte) :
    (m.writeBytes a bs).readBytes a bs.length = bs := by
  apply List.ext_getElem (by simp)
  intro k h1 h2
  rw [Memory.getElem_readBytes, Memory.readByte_writeBytes, dif_pos (by omega)]
  simp

/-- A range that does not overlap a stored range reads as before. -/
theorem Memory.readBytes_writeBytes_disjoint (m : Memory) (a b n : Nat) (bs : List Byte)
    (h : overlap a bs.length b n = false) : (m.writeBytes a bs).readBytes b n = m.readBytes b n := by
  apply Memory.readBytes_congr
  intro x h1 h2
  apply Memory.readByte_writeBytes_outside
  simp only [overlap, decide_eq_false_iff_not] at h
  omega

/-! ### The canonical form -/

theorem Memory.wf_iff (m : Memory) :
    m.wf = true ↔ tableWf natLt Config.unwrittenByte m.cells = true ∧ tableSorted natLt m.scratch = true ∧
      ∀ e ∈ m.scratch, tableFind m.cells e.1 = none := by
  simp [Memory.wf, Bool.and_eq_true, List.all_eq_true, and_assoc]

theorem Memory.writeByte_wf {m : Memory} (h : m.wf = true) (a : Nat) (b : Byte) :
    (m.writeByte a b).wf = true := by
  rw [Memory.wf_iff] at *
  refine ⟨tableWf_put natLt_strict h.1 a b, tableSorted_filter h.2.1 _, fun e he => ?_⟩
  obtain ⟨he, hne⟩ := mem_tableErase he
  apply tableFind_none_of_not_mem
  intro x hx hxe
  rcases mem_tablePut hx with ⟨rfl, -⟩ | ⟨hx, -⟩
  · exact hne hxe.symm
  · have hn := h.2.2 e he
    have : ∀ (l : List (Nat × Byte)), x ∈ l → tableFind l e.1 ≠ none := by
      intro l
      induction l with
      | nil => simp
      | cons y l ih =>
        obtain ⟨k, w⟩ := y
        intro hxl
        rw [tableFind_cons]
        by_cases hk : e.1 = k
        · simp [hk]
        · rw [if_neg hk]
          rcases List.mem_cons.mp hxl with rfl | hxl
          · exact absurd hxe.symm hk
          · exact ih hxl
    exact this _ hx hn

theorem Memory.forgetByte_wf {m : Memory} (h : m.wf = true) (a k : Nat) :
    (m.forgetByte a k).wf = true := by
  rw [Memory.wf_iff] at *
  refine ⟨tableWf_filter h.1 _,
    tableSorted_insert natLt_strict (tableSorted_filter h.2.1 _) a k (fun e he => (mem_tableErase he).2),
    fun e he => ?_⟩
  simp only [Memory.forgetByte, tableFind_erase]
  rcases mem_tableInsert he with rfl | he
  · simp
  · obtain ⟨he, hne⟩ := mem_tableErase he
    rw [if_neg hne]
    exact h.2.2 e he

/-- A store keeps the canonical form. -/
theorem Memory.writeBytes_wf {m : Memory} (h : m.wf = true) (a : Nat) (bs : List Byte) :
    (m.writeBytes a bs).wf = true := by
  induction bs generalizing m a with
  | nil => exact h
  | cons b bs ih => exact ih (Memory.writeByte_wf h a b) (a + 1)

/-- Bytes becoming unspecified keeps the canonical form. -/
theorem Memory.forgetBytes_wf {m : Memory} (h : m.wf = true) (a k n : Nat) :
    (m.forgetBytes a k n).wf = true := by
  induction n generalizing m a k with
  | zero => exact h
  | succ n ih => exact ih (Memory.forgetByte_wf h a k) (a + 1) (k + 1)

/-- Memory after reset has the canonical form. -/
theorem reset_mem_wf : State.reset.mem.wf = true := by decide

end Sys2Proof.Machine
end

