-- ==== Sys2Proof/Laws/State.lean ====
section
/-! SUPPORT. One lemma per field of `State` for each update that the meanings are made of. -/

namespace Sys2Proof.Machine

/-! ### `State.memWrite` -/

@[simp] theorem State.memWrite_a0 (s : State) (a : Word) (bs : List Byte) :
    (s.memWrite a bs).a0 = s.a0 := rfl
@[simp] theorem State.memWrite_a1 (s : State) (a : Word) (bs : List Byte) :
    (s.memWrite a bs).a1 = s.a1 := rfl
@[simp] theorem State.memWrite_a2 (s : State) (a : Word) (bs : List Byte) :
    (s.memWrite a bs).a2 = s.a2 := rfl
@[simp] theorem State.memWrite_a3 (s : State) (a : Word) (bs : List Byte) :
    (s.memWrite a bs).a3 = s.a3 := rfl
@[simp] theorem State.memWrite_res (s : State) (a : Word) (bs : List Byte) :
    (s.memWrite a bs).res = s.res := rfl
@[simp] theorem State.memWrite_finfo (s : State) (a : Word) (bs : List Byte) :
    (s.memWrite a bs).finfo = s.finfo := rfl
@[simp] theorem State.memWrite_ready (s : State) (a : Word) (bs : List Byte) :
    (s.memWrite a bs).ready = s.ready := rfl
@[simp] theorem State.memWrite_fault (s : State) (a : Word) (bs : List Byte) :
    (s.memWrite a bs).fault = s.fault := rfl
@[simp] theorem State.memWrite_adv (s : State) (a : Word) (bs : List Byte) :
    (s.memWrite a bs).adv = s.adv := rfl
@[simp] theorem State.memWrite_cause (s : State) (a : Word) (bs : List Byte) :
    (s.memWrite a bs).cause = s.cause := rfl
@[simp] theorem State.memWrite_fop (s : State) (a : Word) (bs : List Byte) :
    (s.memWrite a bs).fop = s.fop := rfl
@[simp] theorem State.memWrite_field (s : State) (a : Word) (bs : List Byte) :
    (s.memWrite a bs).field = s.field := rfl
@[simp] theorem State.memWrite_symsize (s : State) (a : Word) (bs : List Byte) :
    (s.memWrite a bs).symsize = s.symsize := rfl
@[simp] theorem State.memWrite_lower (s : State) (a : Word) (bs : List Byte) :
    (s.memWrite a bs).lower = s.lower := rfl
@[simp] theorem State.memWrite_upper (s : State) (a : Word) (bs : List Byte) :
    (s.memWrite a bs).upper = s.upper := rfl
@[simp] theorem State.memWrite_wlower (s : State) (a : Word) (bs : List Byte) :
    (s.memWrite a bs).wlower = s.wlower := rfl
@[simp] theorem State.memWrite_wsyms (s : State) (a : Word) (bs : List Byte) :
    (s.memWrite a bs).wsyms = s.wsyms := rfl
@[simp] theorem State.memWrite_seed (s : State) (a : Word) (bs : List Byte) :
    (s.memWrite a bs).seed = s.seed := rfl
@[simp] theorem State.memWrite_slots (s : State) (a : Word) (bs : List Byte) :
    (s.memWrite a bs).slots = s.slots := rfl
@[simp] theorem State.memWrite_coef (s : State) (a : Word) (bs : List Byte) :
    (s.memWrite a bs).coef = s.coef := rfl
@[simp] theorem State.memWrite_cap (s : State) (a : Word) (bs : List Byte) :
    (s.memWrite a bs).cap = s.cap := rfl
@[simp] theorem State.memWrite_mapped (s : State) (a : Word) (bs : List Byte) :
    (s.memWrite a bs).mapped = s.mapped := rfl
@[simp] theorem State.memWrite_mem (s : State) (a : Word) (bs : List Byte) :
    (s.memWrite a bs).mem = s.mem.writeBytes a.toNat bs := rfl
@[simp] theorem State.memWrite_freeNext (s : State) (a : Word) (bs : List Byte) :
    (s.memWrite a bs).freeNext = s.freeNext := rfl
@[simp] theorem State.memWrite_program (s : State) (a : Word) (bs : List Byte) :
    (s.memWrite a bs).program = s.program := rfl
@[simp] theorem State.memWrite_returned (s : State) (a : Word) (bs : List Byte) :
    (s.memWrite a bs).returned = s.returned := rfl

/-! ### `State.memForget` -/

@[simp] theorem State.memForget_a0 (s : State) (a : Word) (n : Nat) :
    (s.memForget a n).a0 = s.a0 := rfl
@[simp] theorem State.memForget_a1 (s : State) (a : Word) (n : Nat) :
    (s.memForget a n).a1 = s.a1 := rfl
@[simp] theorem State.memForget_a2 (s : State) (a : Word) (n : Nat) :
    (s.memForget a n).a2 = s.a2 := rfl
@[simp] theorem State.memForget_a3 (s : State) (a : Word) (n : Nat) :
    (s.memForget a n).a3 = s.a3 := rfl
@[simp] theorem State.memForget_res (s : State) (a : Word) (n : Nat) :
    (s.memForget a n).res = s.res := rfl
@[simp] theorem State.memForget_finfo (s : State) (a : Word) (n : Nat) :
    (s.memForget a n).finfo = s.finfo := rfl
@[simp] theorem State.memForget_ready (s : State) (a : Word) (n : Nat) :
    (s.memForget a n).ready = s.ready := rfl
@[simp] theorem State.memForget_fault (s : State) (a : Word) (n : Nat) :
    (s.memForget a n).fault = s.fault := rfl
@[simp] theorem State.memForget_adv (s : State) (a : Word) (n : Nat) :
    (s.memForget a n).adv = s.adv := rfl
@[simp] theorem State.memForget_cause (s : State) (a : Word) (n : Nat) :
    (s.memForget a n).cause = s.cause := rfl
@[simp] theorem State.memForget_fop (s : State) (a : Word) (n : Nat) :
    (s.memForget a n).fop = s.fop := rfl
@[simp] theorem State.memForget_field (s : State) (a : Word) (n : Nat) :
    (s.memForget a n).field = s.field := rfl
@[simp] theorem State.memForget_symsize (s : State) (a : Word) (n : Nat) :
    (s.memForget a n).symsize = s.symsize := rfl
@[simp] theorem State.memForget_lower (s : State) (a : Word) (n : Nat) :
    (s.memForget a n).lower = s.lower := rfl
@[simp] theorem State.memForget_upper (s : State) (a : Word) (n : Nat) :
    (s.memForget a n).upper = s.upper := rfl
@[simp] theorem State.memForget_wlower (s : State) (a : Word) (n : Nat) :
    (s.memForget a n).wlower = s.wlower := rfl
@[simp] theorem State.memForget_wsyms (s : State) (a : Word) (n : Nat) :
    (s.memForget a n).wsyms = s.wsyms := rfl
@[simp] theorem State.memForget_seed (s : State) (a : Word) (n : Nat) :
    (s.memForget a n).seed = s.seed := rfl
@[simp] theorem State.memForget_slots (s : State) (a : Word) (n : Nat) :
    (s.memForget a n).slots = s.slots := rfl
@[simp] theorem State.memForget_coef (s : State) (a : Word) (n : Nat) :
    (s.memForget a n).coef = s.coef := rfl
@[simp] theorem State.memForget_cap (s : State) (a : Word) (n : Nat) :
    (s.memForget a n).cap = s.cap := rfl
@[simp] theorem State.memForget_mapped (s : State) (a : Word) (n : Nat) :
    (s.memForget a n).mapped = s.mapped := rfl
@[simp] theorem State.memForget_mem (s : State) (a : Word) (n : Nat) :
    (s.memForget a n).mem = s.mem.forgetBytes a.toNat s.freeNext n := rfl
@[simp] theorem State.memForget_freeNext (s : State) (a : Word) (n : Nat) :
    (s.memForget a n).freeNext = s.freeNext + n := rfl
@[simp] theorem State.memForget_program (s : State) (a : Word) (n : Nat) :
    (s.memForget a n).program = s.program := rfl
@[simp] theorem State.memForget_returned (s : State) (a : Word) (n : Nat) :
    (s.memForget a n).returned = s.returned := rfl

/-! ### `State.setSlot` -/

@[simp] theorem State.setSlot_a0 (s : State) (i : Nat) (v : Slot) :
    (s.setSlot i v).a0 = s.a0 := rfl
@[simp] theorem State.setSlot_a1 (s : State) (i : Nat) (v : Slot) :
    (s.setSlot i v).a1 = s.a1 := rfl
@[simp] theorem State.setSlot_a2 (s : State) (i : Nat) (v : Slot) :
    (s.setSlot i v).a2 = s.a2 := rfl
@[simp] theorem State.setSlot_a3 (s : State) (i : Nat) (v : Slot) :
    (s.setSlot i v).a3 = s.a3 := rfl
@[simp] theorem State.setSlot_res (s : State) (i : Nat) (v : Slot) :
    (s.setSlot i v).res = s.res := rfl
@[simp] theorem State.setSlot_finfo (s : State) (i : Nat) (v : Slot) :
    (s.setSlot i v).finfo = s.finfo := rfl
@[simp] theorem State.setSlot_ready (s : State) (i : Nat) (v : Slot) :
    (s.setSlot i v).ready = s.ready := rfl
@[simp] theorem State.setSlot_fault (s : State) (i : Nat) (v : Slot) :
    (s.setSlot i v).fault = s.fault := rfl
@[simp] theorem State.setSlot_adv (s : State) (i : Nat) (v : Slot) :
    (s.setSlot i v).adv = s.adv := rfl
@[simp] theorem State.setSlot_cause (s : State) (i : Nat) (v : Slot) :
    (s.setSlot i v).cause = s.cause := rfl
@[simp] theorem State.setSlot_fop (s : State) (i : Nat) (v : Slot) :
    (s.setSlot i v).fop = s.fop := rfl
@[simp] theorem State.setSlot_field (s : State) (i : Nat) (v : Slot) :
    (s.setSlot i v).field = s.field := rfl
@[simp] theorem State.setSlot_symsize (s : State) (i : Nat) (v : Slot) :
    (s.setSlot i v).symsize = s.symsize := rfl
@[simp] theorem State.setSlot_lower (s : State) (i : Nat) (v : Slot) :
    (s.setSlot i v).lower = s.lower := rfl
@[simp] theorem State.setSlot_upper (s : State) (i : Nat) (v : Slot) :
    (s.setSlot i v).upper = s.upper := rfl
@[simp] theorem State.setSlot_wlower (s : State) (i : Nat) (v : Slot) :
    (s.setSlot i v).wlower = s.wlower := rfl
@[simp] theorem State.setSlot_wsyms (s : State) (i : Nat) (v : Slot) :
    (s.setSlot i v).wsyms = s.wsyms := rfl
@[simp] theorem State.setSlot_seed (s : State) (i : Nat) (v : Slot) :
    (s.setSlot i v).seed = s.seed := rfl
@[simp] theorem State.setSlot_slots (s : State) (i : Nat) (v : Slot) :
    (s.setSlot i v).slots = tablePut natLt Slot.empty s.slots (s.phys i) v := rfl
@[simp] theorem State.setSlot_coef (s : State) (i : Nat) (v : Slot) :
    (s.setSlot i v).coef = s.coef := rfl
@[simp] theorem State.setSlot_cap (s : State) (i : Nat) (v : Slot) :
    (s.setSlot i v).cap = s.cap := rfl
@[simp] theorem State.setSlot_mapped (s : State) (i : Nat) (v : Slot) :
    (s.setSlot i v).mapped = s.mapped := rfl
@[simp] theorem State.setSlot_mem (s : State) (i : Nat) (v : Slot) :
    (s.setSlot i v).mem = s.mem := rfl
@[simp] theorem State.setSlot_freeNext (s : State) (i : Nat) (v : Slot) :
    (s.setSlot i v).freeNext = s.freeNext := rfl
@[simp] theorem State.setSlot_program (s : State) (i : Nat) (v : Slot) :
    (s.setSlot i v).program = s.program := rfl
@[simp] theorem State.setSlot_returned (s : State) (i : Nat) (v : Slot) :
    (s.setSlot i v).returned = s.returned := rfl

/-! ### `State.setCoef` -/

@[simp] theorem State.setCoef_a0 (s : State) (i j : Nat) (e : Elem) :
    (s.setCoef i j e).a0 = s.a0 := rfl
@[simp] theorem State.setCoef_a1 (s : State) (i j : Nat) (e : Elem) :
    (s.setCoef i j e).a1 = s.a1 := rfl
@[simp] theorem State.setCoef_a2 (s : State) (i j : Nat) (e : Elem) :
    (s.setCoef i j e).a2 = s.a2 := rfl
@[simp] theorem State.setCoef_a3 (s : State) (i j : Nat) (e : Elem) :
    (s.setCoef i j e).a3 = s.a3 := rfl
@[simp] theorem State.setCoef_res (s : State) (i j : Nat) (e : Elem) :
    (s.setCoef i j e).res = s.res := rfl
@[simp] theorem State.setCoef_finfo (s : State) (i j : Nat) (e : Elem) :
    (s.setCoef i j e).finfo = s.finfo := rfl
@[simp] theorem State.setCoef_ready (s : State) (i j : Nat) (e : Elem) :
    (s.setCoef i j e).ready = s.ready := rfl
@[simp] theorem State.setCoef_fault (s : State) (i j : Nat) (e : Elem) :
    (s.setCoef i j e).fault = s.fault := rfl
@[simp] theorem State.setCoef_adv (s : State) (i j : Nat) (e : Elem) :
    (s.setCoef i j e).adv = s.adv := rfl
@[simp] theorem State.setCoef_cause (s : State) (i j : Nat) (e : Elem) :
    (s.setCoef i j e).cause = s.cause := rfl
@[simp] theorem State.setCoef_fop (s : State) (i j : Nat) (e : Elem) :
    (s.setCoef i j e).fop = s.fop := rfl
@[simp] theorem State.setCoef_field (s : State) (i j : Nat) (e : Elem) :
    (s.setCoef i j e).field = s.field := rfl
@[simp] theorem State.setCoef_symsize (s : State) (i j : Nat) (e : Elem) :
    (s.setCoef i j e).symsize = s.symsize := rfl
@[simp] theorem State.setCoef_lower (s : State) (i j : Nat) (e : Elem) :
    (s.setCoef i j e).lower = s.lower := rfl
@[simp] theorem State.setCoef_upper (s : State) (i j : Nat) (e : Elem) :
    (s.setCoef i j e).upper = s.upper := rfl
@[simp] theorem State.setCoef_wlower (s : State) (i j : Nat) (e : Elem) :
    (s.setCoef i j e).wlower = s.wlower := rfl
@[simp] theorem State.setCoef_wsyms (s : State) (i j : Nat) (e : Elem) :
    (s.setCoef i j e).wsyms = s.wsyms := rfl
@[simp] theorem State.setCoef_seed (s : State) (i j : Nat) (e : Elem) :
    (s.setCoef i j e).seed = s.seed := rfl
@[simp] theorem State.setCoef_slots (s : State) (i j : Nat) (e : Elem) :
    (s.setCoef i j e).slots = s.slots := rfl
@[simp] theorem State.setCoef_coef (s : State) (i j : Nat) (e : Elem) :
    (s.setCoef i j e).coef = tablePut pairLt 0 s.coef (s.phys i, s.phys j) e := rfl
@[simp] theorem State.setCoef_cap (s : State) (i j : Nat) (e : Elem) :
    (s.setCoef i j e).cap = s.cap := rfl
@[simp] theorem State.setCoef_mapped (s : State) (i j : Nat) (e : Elem) :
    (s.setCoef i j e).mapped = s.mapped := rfl
@[simp] theorem State.setCoef_mem (s : State) (i j : Nat) (e : Elem) :
    (s.setCoef i j e).mem = s.mem := rfl
@[simp] theorem State.setCoef_freeNext (s : State) (i j : Nat) (e : Elem) :
    (s.setCoef i j e).freeNext = s.freeNext := rfl
@[simp] theorem State.setCoef_program (s : State) (i j : Nat) (e : Elem) :
    (s.setCoef i j e).program = s.program := rfl
@[simp] theorem State.setCoef_returned (s : State) (i j : Nat) (e : Elem) :
    (s.setCoef i j e).returned = s.returned := rfl

/-! ### `State.clearCross` -/

@[simp] theorem State.clearCross_a0 (s : State) (p : Nat) :
    (s.clearCross p).a0 = s.a0 := rfl
@[simp] theorem State.clearCross_a1 (s : State) (p : Nat) :
    (s.clearCross p).a1 = s.a1 := rfl
@[simp] theorem State.clearCross_a2 (s : State) (p : Nat) :
    (s.clearCross p).a2 = s.a2 := rfl
@[simp] theorem State.clearCross_a3 (s : State) (p : Nat) :
    (s.clearCross p).a3 = s.a3 := rfl
@[simp] theorem State.clearCross_res (s : State) (p : Nat) :
    (s.clearCross p).res = s.res := rfl
@[simp] theorem State.clearCross_finfo (s : State) (p : Nat) :
    (s.clearCross p).finfo = s.finfo := rfl
@[simp] theorem State.clearCross_ready (s : State) (p : Nat) :
    (s.clearCross p).ready = s.ready := rfl
@[simp] theorem State.clearCross_fault (s : State) (p : Nat) :
    (s.clearCross p).fault = s.fault := rfl
@[simp] theorem State.clearCross_adv (s : State) (p : Nat) :
    (s.clearCross p).adv = s.adv := rfl
@[simp] theorem State.clearCross_cause (s : State) (p : Nat) :
    (s.clearCross p).cause = s.cause := rfl
@[simp] theorem State.clearCross_fop (s : State) (p : Nat) :
    (s.clearCross p).fop = s.fop := rfl
@[simp] theorem State.clearCross_field (s : State) (p : Nat) :
    (s.clearCross p).field = s.field := rfl
@[simp] theorem State.clearCross_symsize (s : State) (p : Nat) :
    (s.clearCross p).symsize = s.symsize := rfl
@[simp] theorem State.clearCross_lower (s : State) (p : Nat) :
    (s.clearCross p).lower = s.lower := rfl
@[simp] theorem State.clearCross_upper (s : State) (p : Nat) :
    (s.clearCross p).upper = s.upper := rfl
@[simp] theorem State.clearCross_wlower (s : State) (p : Nat) :
    (s.clearCross p).wlower = s.wlower := rfl
@[simp] theorem State.clearCross_wsyms (s : State) (p : Nat) :
    (s.clearCross p).wsyms = s.wsyms := rfl
@[simp] theorem State.clearCross_seed (s : State) (p : Nat) :
    (s.clearCross p).seed = s.seed := rfl
@[simp] theorem State.clearCross_slots (s : State) (p : Nat) :
    (s.clearCross p).slots = s.slots := rfl
@[simp] theorem State.clearCross_coef (s : State) (p : Nat) :
    (s.clearCross p).coef = s.coef.filter (fun e => decide (e.1.1 ≠ p ∧ e.1.2 ≠ p)) := rfl
@[simp] theorem State.clearCross_cap (s : State) (p : Nat) :
    (s.clearCross p).cap = s.cap := rfl
@[simp] theorem State.clearCross_mapped (s : State) (p : Nat) :
    (s.clearCross p).mapped = s.mapped := rfl
@[simp] theorem State.clearCross_mem (s : State) (p : Nat) :
    (s.clearCross p).mem = s.mem := rfl
@[simp] theorem State.clearCross_freeNext (s : State) (p : Nat) :
    (s.clearCross p).freeNext = s.freeNext := rfl
@[simp] theorem State.clearCross_program (s : State) (p : Nat) :
    (s.clearCross p).program = s.program := rfl
@[simp] theorem State.clearCross_returned (s : State) (p : Nat) :
    (s.clearCross p).returned = s.returned := rfl

/-! ### `State.setPayload` -/

@[simp] theorem State.setPayload_a0 (s : State) (i : Nat) (bs : List Byte) :
    (s.setPayload i bs).a0 = s.a0 := rfl
@[simp] theorem State.setPayload_a1 (s : State) (i : Nat) (bs : List Byte) :
    (s.setPayload i bs).a1 = s.a1 := rfl
@[simp] theorem State.setPayload_a2 (s : State) (i : Nat) (bs : List Byte) :
    (s.setPayload i bs).a2 = s.a2 := rfl
@[simp] theorem State.setPayload_a3 (s : State) (i : Nat) (bs : List Byte) :
    (s.setPayload i bs).a3 = s.a3 := rfl
@[simp] theorem State.setPayload_res (s : State) (i : Nat) (bs : List Byte) :
    (s.setPayload i bs).res = s.res := rfl
@[simp] theorem State.setPayload_finfo (s : State) (i : Nat) (bs : List Byte) :
    (s.setPayload i bs).finfo = s.finfo := rfl
@[simp] theorem State.setPayload_ready (s : State) (i : Nat) (bs : List Byte) :
    (s.setPayload i bs).ready = s.ready := rfl
@[simp] theorem State.setPayload_fault (s : State) (i : Nat) (bs : List Byte) :
    (s.setPayload i bs).fault = s.fault := rfl
@[simp] theorem State.setPayload_adv (s : State) (i : Nat) (bs : List Byte) :
    (s.setPayload i bs).adv = s.adv := rfl
@[simp] theorem State.setPayload_cause (s : State) (i : Nat) (bs : List Byte) :
    (s.setPayload i bs).cause = s.cause := rfl
@[simp] theorem State.setPayload_fop (s : State) (i : Nat) (bs : List Byte) :
    (s.setPayload i bs).fop = s.fop := rfl
@[simp] theorem State.setPayload_field (s : State) (i : Nat) (bs : List Byte) :
    (s.setPayload i bs).field = s.field := rfl
@[simp] theorem State.setPayload_symsize (s : State) (i : Nat) (bs : List Byte) :
    (s.setPayload i bs).symsize = s.symsize := rfl
@[simp] theorem State.setPayload_lower (s : State) (i : Nat) (bs : List Byte) :
    (s.setPayload i bs).lower = s.lower := rfl
@[simp] theorem State.setPayload_upper (s : State) (i : Nat) (bs : List Byte) :
    (s.setPayload i bs).upper = s.upper := rfl
@[simp] theorem State.setPayload_wlower (s : State) (i : Nat) (bs : List Byte) :
    (s.setPayload i bs).wlower = s.wlower := rfl
@[simp] theorem State.setPayload_wsyms (s : State) (i : Nat) (bs : List Byte) :
    (s.setPayload i bs).wsyms = s.wsyms := rfl
@[simp] theorem State.setPayload_seed (s : State) (i : Nat) (bs : List Byte) :
    (s.setPayload i bs).seed = s.seed := rfl
@[simp] theorem State.setPayload_slots (s : State) (i : Nat) (bs : List Byte) :
    (s.setPayload i bs).slots = s.slots := rfl
@[simp] theorem State.setPayload_coef (s : State) (i : Nat) (bs : List Byte) :
    (s.setPayload i bs).coef = s.coef := rfl
@[simp] theorem State.setPayload_cap (s : State) (i : Nat) (bs : List Byte) :
    (s.setPayload i bs).cap = s.cap := rfl
@[simp] theorem State.setPayload_mapped (s : State) (i : Nat) (bs : List Byte) :
    (s.setPayload i bs).mapped = s.mapped := rfl
@[simp] theorem State.setPayload_mem (s : State) (i : Nat) (bs : List Byte) :
    (s.setPayload i bs).mem = s.mem.writeBytes (s.slot i).addr.toNat bs := rfl
@[simp] theorem State.setPayload_freeNext (s : State) (i : Nat) (bs : List Byte) :
    (s.setPayload i bs).freeNext = s.freeNext := rfl
@[simp] theorem State.setPayload_program (s : State) (i : Nat) (bs : List Byte) :
    (s.setPayload i bs).program = s.program := rfl
@[simp] theorem State.setPayload_returned (s : State) (i : Nat) (bs : List Byte) :
    (s.setPayload i bs).returned = s.returned := rfl

/-! ### `State.raise` -/

@[simp] theorem State.raise_a0 (s : State) (c : Cause) (op : BitVec 8) (info : Word) :
    (s.raise c op info).a0 = s.a0 := rfl
@[simp] theorem State.raise_a1 (s : State) (c : Cause) (op : BitVec 8) (info : Word) :
    (s.raise c op info).a1 = s.a1 := rfl
@[simp] theorem State.raise_a2 (s : State) (c : Cause) (op : BitVec 8) (info : Word) :
    (s.raise c op info).a2 = s.a2 := rfl
@[simp] theorem State.raise_a3 (s : State) (c : Cause) (op : BitVec 8) (info : Word) :
    (s.raise c op info).a3 = s.a3 := rfl
@[simp] theorem State.raise_res (s : State) (c : Cause) (op : BitVec 8) (info : Word) :
    (s.raise c op info).res = s.res := rfl
@[simp] theorem State.raise_finfo (s : State) (c : Cause) (op : BitVec 8) (info : Word) :
    (s.raise c op info).finfo = info := rfl
@[simp] theorem State.raise_ready (s : State) (c : Cause) (op : BitVec 8) (info : Word) :
    (s.raise c op info).ready = s.ready := rfl
@[simp] theorem State.raise_fault (s : State) (c : Cause) (op : BitVec 8) (info : Word) :
    (s.raise c op info).fault = true := rfl
@[simp] theorem State.raise_adv (s : State) (c : Cause) (op : BitVec 8) (info : Word) :
    (s.raise c op info).adv = s.adv := rfl
@[simp] theorem State.raise_cause (s : State) (c : Cause) (op : BitVec 8) (info : Word) :
    (s.raise c op info).cause = c := rfl
@[simp] theorem State.raise_fop (s : State) (c : Cause) (op : BitVec 8) (info : Word) :
    (s.raise c op info).fop = op := rfl
@[simp] theorem State.raise_field (s : State) (c : Cause) (op : BitVec 8) (info : Word) :
    (s.raise c op info).field = s.field := rfl
@[simp] theorem State.raise_symsize (s : State) (c : Cause) (op : BitVec 8) (info : Word) :
    (s.raise c op info).symsize = s.symsize := rfl
@[simp] theorem State.raise_lower (s : State) (c : Cause) (op : BitVec 8) (info : Word) :
    (s.raise c op info).lower = s.lower := rfl
@[simp] theorem State.raise_upper (s : State) (c : Cause) (op : BitVec 8) (info : Word) :
    (s.raise c op info).upper = s.upper := rfl
@[simp] theorem State.raise_wlower (s : State) (c : Cause) (op : BitVec 8) (info : Word) :
    (s.raise c op info).wlower = s.wlower := rfl
@[simp] theorem State.raise_wsyms (s : State) (c : Cause) (op : BitVec 8) (info : Word) :
    (s.raise c op info).wsyms = s.wsyms := rfl
@[simp] theorem State.raise_seed (s : State) (c : Cause) (op : BitVec 8) (info : Word) :
    (s.raise c op info).seed = s.seed := rfl
@[simp] theorem State.raise_slots (s : State) (c : Cause) (op : BitVec 8) (info : Word) :
    (s.raise c op info).slots = s.slots := rfl
@[simp] theorem State.raise_coef (s : State) (c : Cause) (op : BitVec 8) (info : Word) :
    (s.raise c op info).coef = s.coef := rfl
@[simp] theorem State.raise_cap (s : State) (c : Cause) (op : BitVec 8) (info : Word) :
    (s.raise c op info).cap = s.cap := rfl
@[simp] theorem State.raise_mapped (s : State) (c : Cause) (op : BitVec 8) (info : Word) :
    (s.raise c op info).mapped = s.mapped := rfl
@[simp] theorem State.raise_mem (s : State) (c : Cause) (op : BitVec 8) (info : Word) :
    (s.raise c op info).mem = s.mem := rfl
@[simp] theorem State.raise_freeNext (s : State) (c : Cause) (op : BitVec 8) (info : Word) :
    (s.raise c op info).freeNext = s.freeNext := rfl
@[simp] theorem State.raise_program (s : State) (c : Cause) (op : BitVec 8) (info : Word) :
    (s.raise c op info).program = s.program := rfl
@[simp] theorem State.raise_returned (s : State) (c : Cause) (op : BitVec 8) (info : Word) :
    (s.raise c op info).returned = s.returned := rfl

/-! ### `State.toReset` -/

@[simp] theorem State.toReset_a0 (s : State) :
    s.toReset.a0 = 0 := rfl
@[simp] theorem State.toReset_a1 (s : State) :
    s.toReset.a1 = 0 := rfl
@[simp] theorem State.toReset_a2 (s : State) :
    s.toReset.a2 = 0 := rfl
@[simp] theorem State.toReset_a3 (s : State) :
    s.toReset.a3 = 0 := rfl
@[simp] theorem State.toReset_res (s : State) :
    s.toReset.res = 0 := rfl
@[simp] theorem State.toReset_finfo (s : State) :
    s.toReset.finfo = 0 := rfl
@[simp] theorem State.toReset_ready (s : State) :
    s.toReset.ready = false := rfl
@[simp] theorem State.toReset_fault (s : State) :
    s.toReset.fault = false := rfl
@[simp] theorem State.toReset_adv (s : State) :
    s.toReset.adv = false := rfl
@[simp] theorem State.toReset_cause (s : State) :
    s.toReset.cause = .none := rfl
@[simp] theorem State.toReset_fop (s : State) :
    s.toReset.fop = 0 := rfl
@[simp] theorem State.toReset_field (s : State) :
    s.toReset.field = .binary := rfl
@[simp] theorem State.toReset_symsize (s : State) :
    s.toReset.symsize = 0 := rfl
@[simp] theorem State.toReset_lower (s : State) :
    s.toReset.lower = 0 := rfl
@[simp] theorem State.toReset_upper (s : State) :
    s.toReset.upper = 0 := rfl
@[simp] theorem State.toReset_wlower (s : State) :
    s.toReset.wlower = 0 := rfl
@[simp] theorem State.toReset_wsyms (s : State) :
    s.toReset.wsyms = 0 := rfl
@[simp] theorem State.toReset_seed (s : State) :
    s.toReset.seed = 0 := rfl
@[simp] theorem State.toReset_slots (s : State) :
    s.toReset.slots = [] := rfl
@[simp] theorem State.toReset_coef (s : State) :
    s.toReset.coef = [] := rfl
@[simp] theorem State.toReset_cap (s : State) :
    s.toReset.cap = s.cap := rfl
@[simp] theorem State.toReset_mapped (s : State) :
    s.toReset.mapped = s.mapped := rfl
@[simp] theorem State.toReset_mem (s : State) :
    s.toReset.mem = s.mem := rfl
@[simp] theorem State.toReset_freeNext (s : State) :
    s.toReset.freeNext = s.freeNext := rfl
@[simp] theorem State.toReset_program (s : State) :
    s.toReset.program = s.program := rfl
@[simp] theorem State.toReset_returned (s : State) :
    s.toReset.returned = s.returned := rfl

end Sys2Proof.Machine
end

