-- ==== Sys2Proof/Laws/Ops.lean ====
section
/-! SUPPORT. What the shared operations over the slot table, the coefficient store and the guards can do. -/

namespace Sys2Proof.Machine

/-! ### The guards -/

/-- In the fault state a guarded command answers the same state; outside it, what its body answers. -/
theorem State.unlessFault_next {s t : State} {body : State → Result} :
    s.unlessFault body = .next t ↔ (s.fault = true ∧ t = s) ∨ (s.fault = false ∧ body s = .next t) := by
  unfold State.unlessFault
  cases s.fault <;> simp [eq_comm]

/-- Everything a command behind `whenReady` can answer as a next state: ignored, `F_STATE`, or its body. -/
theorem State.whenReady_next {s t : State} {i : Instr} {body : State → Result} :
    s.whenReady i body = .next t ↔
      (s.fault = true ∧ t = s) ∨
      (s.fault = false ∧ s.ready = false ∧ t = s.raise .state i.opcode s.status) ∨
      (s.fault = false ∧ s.ready = true ∧ body s = .next t) := by
  unfold State.whenReady
  rw [State.unlessFault_next]
  refine or_congr Iff.rfl ?_
  cases hr : s.ready
  · simp only [Bool.false_eq_true, if_false, State.fail, Host.Outcome.next.injEq, true_and, false_and,
      and_false, or_false]
    exact and_congr_right fun _ => ⟨Eq.symm, Eq.symm⟩
  · simp

/-- A guarded command is refused only by its body, in the ready state. -/
theorem State.whenReady_refused {s : State} {i : Instr} {body : State → Result} {r : Refusal} :
    s.whenReady i body = .refused r ↔ s.fault = false ∧ s.ready = true ∧ body s = .refused r := by
  unfold State.whenReady State.unlessFault
  cases hf : s.fault <;> cases hr : s.ready <;> simp [hr, State.fail]

theorem State.whenReady_active {s : State} (i : Instr) (body : State → Result) (hf : s.fault = false)
    (hr : s.ready = true) : s.whenReady i body = body s := by
  simp [State.whenReady, State.unlessFault, hf, hr]

theorem State.whenReady_unconfigured {s : State} (i : Instr) (body : State → Result)
    (hf : s.fault = false) (hr : s.ready = false) :
    s.whenReady i body = .next (s.raise .state i.opcode s.status) := by
  simp [State.whenReady, State.unlessFault, State.fail, hf, hr]

/-! ### Live indices and physical slots -/

theorem State.isLive_iff (s : State) (i : Nat) :
    s.isLive i = true ↔ s.lower.toNat ≤ i ∧ i < s.upper.toNat := by
  simp [State.isLive]

theorem State.mem_live (s : State) (i : Nat) : i ∈ s.live ↔ s.isLive i = true := by
  rw [State.isLive_iff, State.live, State.nsyms, List.mem_range'_1]
  omega

theorem State.live_length (s : State) : s.live.length = s.nsyms := by simp [State.live]

theorem State.live_getElem (s : State) (k : Nat) (h : k < s.live.length) :
    s.live[k] = s.lower.toNat + k := by simp [State.live]

theorem State.live_nodup (s : State) : s.live.Nodup := List.nodup_range'

/-- Two live indices share a physical slot only if they are equal (R27). -/
theorem State.phys_inj {s : State} (hfit : s.upper.toNat - s.lower.toNat ≤ s.cap) {i j : Nat}
    (hi : s.isLive i = true) (hj : s.isLive j = true) (h : s.phys i = s.phys j) : i = j := by
  rw [State.isLive_iff] at hi hj
  unfold State.phys at h
  rcases Nat.lt_trichotomy i j with hlt | heq | hlt
  · exfalso
    have hd : s.cap ∣ j - i := (Nat.modEq_iff_dvd' hlt.le).mp h
    exact absurd (Nat.le_of_dvd (by omega) hd) (by omega)
  · exact heq
  · exfalso
    have hd : s.cap ∣ i - j := (Nat.modEq_iff_dvd' hlt.le).mp h.symm
    exact absurd (Nat.le_of_dvd (by omega) hd) (by omega)

/-! ### Cells after one update -/

theorem State.slotAt_setSlot (s : State) (i p : Nat) (v : Slot) :
    (s.setSlot i v).slotAt p = if p = s.phys i then v else s.slotAt p := by
  simp only [State.slotAt, State.setSlot_slots, tableGet_put]

theorem State.coefAt_setCoef (s : State) (i j p q : Nat) (e : Elem) :
    (s.setCoef i j e).coefAt p q = if p = s.phys i ∧ q = s.phys j then e else s.coefAt p q := by
  simp only [State.coefAt, State.setCoef_coef, tableGet_put, Prod.mk.injEq]

/-- After row and column `p` were cleared (R101, R102). -/
theorem State.coefAt_clearCross (s : State) (p a b : Nat) :
    (s.clearCross p).coefAt a b = if a ≠ p ∧ b ≠ p then s.coefAt a b else 0 := by
  simp only [State.coefAt, State.clearCross_coef]
  rw [tableGet_filter (0 : Elem) s.coef (fun k => decide (k.1 ≠ p ∧ k.2 ≠ p)) (a, b)]
  simp

@[simp] theorem State.coefAt_setSlot (s : State) (i p q : Nat) (v : Slot) :
    (s.setSlot i v).coefAt p q = s.coefAt p q := rfl

@[simp] theorem State.coefAt_setPayload (s : State) (i p q : Nat) (bs : List Byte) :
    (s.setPayload i bs).coefAt p q = s.coefAt p q := rfl

@[simp] theorem State.slotAt_setPayload (s : State) (i p : Nat) (bs : List Byte) :
    (s.setPayload i bs).slotAt p = s.slotAt p := rfl

@[simp] theorem State.slotAt_clearCross (s : State) (p q : Nat) :
    (s.clearCross p).slotAt q = s.slotAt q := rfl

/-! ### The loops: which fields they can change -/

/-- Writing a row changes the coefficient store only. -/
theorem State.setRow_eq (s : State) (i : Nat) (cs : List Elem) :
    s.setRow i cs = { s with coef := (s.setRow i cs).coef } := by
  unfold State.setRow
  generalize s.live.zip cs = l
  induction l using List.reverseRecOn with
  | nil => rfl
  | append_singleton l jc ih => rw [List.foldl_append, ih]; rfl

/-- The freezing loop changes the slot table only. -/
theorem State.freezeDependents_eq (s : State) (i : Nat) :
    s.freezeDependents i = { s with slots := (s.freezeDependents i).slots } := by
  unfold State.freezeDependents
  generalize s.live = l
  induction l using List.reverseRecOn with
  | nil => rfl
  | append_singleton l r ih =>
    rw [List.foldl_append, ih]
    simp only [List.foldl_cons, List.foldl_nil]
    split <;> rfl

/-- Storing a row changes the coefficient store, the slot table and memory only. -/
theorem State.storeRow_eq (s : State) (v : Nat) (st : Staging) :
    s.storeRow v st =
      { s with coef := (s.storeRow v st).coef, slots := (s.storeRow v st).slots,
               mem := (s.storeRow v st).mem } := by
  unfold State.storeRow
  rw [State.setRow_eq]
  rfl

/-- One pass of back-substitution changes the coefficient store, the slot table and memory only. -/
theorem State.substituteAt_eq (v : Nat) (p : List Byte) (s : State) (r : Nat) :
    State.substituteAt v p s r =
      { s with coef := (State.substituteAt v p s r).coef, slots := (State.substituteAt v p s r).slots,
               mem := (State.substituteAt v p s r).mem } := by
  unfold State.substituteAt
  simp only
  split
  · rw [State.setRow_eq]; rfl
  · rfl

/-- Back-substitution changes the coefficient store, the slot table and memory only. -/
theorem State.backSubstitute_eq (s : State) (v : Nat) :
    s.backSubstitute v =
      { s with coef := (s.backSubstitute v).coef, slots := (s.backSubstitute v).slots,
               mem := (s.backSubstitute v).mem } := by
  unfold State.backSubstitute
  generalize s.payload v = p
  generalize s.live = l
  induction l using List.reverseRecOn with
  | nil => rfl
  | append_singleton l r ih =>
    rw [List.foldl_append, ih]
    simp only [List.foldl_cons, List.foldl_nil]
    rw [State.substituteAt_eq]

/-- The effect of `READ_SYMBOL` on the unit changes `ADV`, `RES`, the tables and memory only. -/
theorem State.absorb_eq (s : State) (cv sp : List Byte) :
    s.absorb cv sp =
      { s with adv := (s.absorb cv sp).adv, res := (s.absorb cv sp).res,
               coef := (s.absorb cv sp).coef, slots := (s.absorb cv sp).slots,
               mem := (s.absorb cv sp).mem } := by
  unfold State.absorb
  simp only
  split
  · rfl
  · rw [State.backSubstitute_eq, State.storeRow_eq]

/-- The effect of `READ_SOURCE_SYMBOL` changes `ADV`, `RES`, the tables and memory only. -/
theorem State.absorbSource_eq (s : State) (v : Nat) (sp : List Byte) :
    s.absorbSource v sp =
      { s with adv := (s.absorbSource v sp).adv, res := (s.absorbSource v sp).res,
               coef := (s.absorbSource v sp).coef, slots := (s.absorbSource v sp).slots,
               mem := (s.absorbSource v sp).mem } := by
  unfold State.absorbSource
  rw [State.backSubstitute_eq, State.storeRow_eq]

/-! ### A row after it was written -/

/-- The cells of row `i` after a loop of `C[i][j] <- e` over distinct live columns. -/
theorem State.coefAt_foldl_setCoef (l : List (Nat × Elem)) (s : State) (i p q : Nat)
    (hp : p ≠ s.phys i ∨ ∀ jc ∈ l, q ≠ s.phys jc.1) :
    (l.foldl (fun t jc => t.setCoef i jc.1 jc.2) s).coefAt p q = s.coefAt p q := by
  induction l generalizing s with
  | nil => rfl
  | cons jc l ih =>
    rw [List.foldl_cons, ih]
    · rw [State.coefAt_setCoef, if_neg]
      rintro ⟨h1, h2⟩
      rcases hp with hp | hp
      · exact hp h1
      · exact hp jc (by simp) h2
    · rcases hp with hp | hp
      · exact .inl hp
      · exact .inr (fun x hx => hp x (by simp [hx]))

/-- A row that was written reads back over the live columns, and every other row is as before. -/
theorem State.coefOf_setRow {s : State} (hfit : s.upper.toNat - s.lower.toNat ≤ s.cap) {i r j : Nat}
    (hi : s.isLive i = true) (hr : s.isLive r = true) (hj : s.isLive j = true) {cs : List Elem}
    (hlen : cs.length = s.nsyms) :
    (s.setRow i cs).coefOf r j = if r = i then cs.getD (j - s.lower.toNat) 0 else s.coefOf r j := by
  have hcoef : ∀ p q, (s.setRow i cs).coefAt p q =
      ((s.live.zip cs).foldl (fun t jc => t.setCoef i jc.1 jc.2) s).coefAt p q := fun _ _ => rfl
  have hphys : ∀ k, (s.setRow i cs).phys k = s.phys k := by
    intro k; rw [State.setRow_eq]; rfl
  rw [State.coefOf, hphys, hphys, hcoef]
  by_cases hri : r = i
  · subst hri
    rw [if_pos rfl]
    have hj' := (State.isLive_iff s j).mp hj
    have hk : j - s.lower.toNat < s.live.length := by rw [State.live_length, State.nsyms]; omega
    have hkc : j - s.lower.toNat < cs.length := by rw [hlen, ← State.live_length]; exact hk
    have hsplit : s.live.zip cs =
        (s.live.zip cs).take (j - s.lower.toNat) ++
          (j, cs[j - s.lower.toNat]) :: (s.live.zip cs).drop (j - s.lower.toNat + 1) := by
      have hkz : j - s.lower.toNat < (s.live.zip cs).length := by
        rw [List.length_zip]; omega
      have hget : (s.live.zip cs)[j - s.lower.toNat] = (j, cs[j - s.lower.toNat]) := by
        rw [List.getElem_zip, State.live_getElem]
        congr 1; omega
      rw [← hget, List.getElem_cons_drop, List.take_append_drop]
    rw [hsplit, List.foldl_append, List.foldl_cons]
    have hfst : ∀ (t : State) (l : List (Nat × Elem)) (k : Nat),
        (l.foldl (fun t jc => t.setCoef r jc.1 jc.2) t).phys k = t.phys k := by
      intro t l k
      induction l generalizing t with
      | nil => rfl
      | cons x l ih => rw [List.foldl_cons, ih]; rfl
    rw [State.coefAt_foldl_setCoef]
    · rw [State.coefAt_setCoef, hfst, hfst, if_pos ⟨rfl, rfl⟩]
      simp [List.getD, hkc]
    · right
      intro jc hjc heq
      have hph : ∀ k, ((List.foldl (fun t jc => t.setCoef r jc.1 jc.2) s
          ((s.live.zip cs).take (j - s.lower.toNat))).setCoef r j
            cs[j - s.lower.toNat]).phys k = s.phys k := by
        intro k; exact hfst s _ k
      rw [hph] at heq
      obtain ⟨n, hn, hnget⟩ := List.getElem_of_mem hjc
      rw [List.getElem_drop, List.getElem_zip] at hnget
      have hn1 : jc.1 = s.lower.toNat + (j - s.lower.toNat + 1 + n) := by
        rw [← hnget]; exact State.live_getElem s _ _
      have hlive1 : s.isLive jc.1 = true := by
        rw [State.isLive_iff, hn1]
        rw [List.length_drop, List.length_zip, State.live_length, State.nsyms] at hn
        omega
      have := State.phys_inj hfit hj hlive1 heq
      omega
  · rw [if_neg hri, State.coefAt_foldl_setCoef]
    · rfl
    · left
      intro h
      exact hri (State.phys_inj hfit hr hi h)

/-! ### The tables stay canonical -/

theorem State.setSlot_wf {s : State} (h : tableWf natLt Slot.empty s.slots = true) (i : Nat) (v : Slot) :
    tableWf natLt Slot.empty (s.setSlot i v).slots = true :=
  tableWf_put natLt_strict h _ _

theorem State.setCoef_wf {s : State} (h : tableWf pairLt 0 s.coef = true) (i j : Nat) (e : Elem) :
    tableWf pairLt 0 (s.setCoef i j e).coef = true :=
  tableWf_put pairLt_strict h _ _

theorem State.clearCross_wf {s : State} (h : tableWf pairLt 0 s.coef = true) (p : Nat) :
    tableWf pairLt 0 (s.clearCross p).coef = true :=
  tableWf_filter h _

theorem State.setRow_wf {s : State} (h : tableWf pairLt 0 s.coef = true) (i : Nat) (cs : List Elem) :
    tableWf pairLt 0 (s.setRow i cs).coef = true := by
  unfold State.setRow
  generalize s.live.zip cs = l
  induction l using List.reverseRecOn with
  | nil => exact h
  | append_singleton l jc ih => rw [List.foldl_append]; exact State.setCoef_wf ih _ _ _

end Sys2Proof.Machine
end

