-- ==== Sys2Proof/Laws/Exec.lean ====
section
/-! SUPPORT. For each command, everything its meaning can answer as a next state, said once. -/

namespace Sys2Proof.Machine

variable {s t : State}

/-- `CONFIG` (R92). -/
theorem execConfig_next (h : execConfig s = .next t) :
    (s.fault = true ∧ t = s) ∨
    (s.fault = false ∧ s.ready = true ∧ t = s.raise .state 0x02 s.status) ∨
    (s.fault = false ∧ s.ready = false ∧
      (t = s.raise .config 0x02 s.a0 ∨ t = s.raise .config 0x02 s.a1 ∨
        ∃ f, fieldOf s.a0 = some f ∧ s.a1 ≠ 0 ∧ s.a1.toNat ≤ Config.symMax ∧
          (f = .binary16 → s.a1.toNat % 2 = 0) ∧
          t = { s with field := f, symsize := s.a1.setWidth 32, ready := true })) := by
  unfold execConfig at h
  rw [State.unlessFault_next] at h
  rcases h with h | ⟨hf, h⟩
  · exact .inl h
  · refine .inr ?_
    simp only [State.fail] at h
    repeat' split at h
    all_goals cases h
    · exact .inl ⟨hf, ‹_›, rfl⟩
    all_goals refine .inr ⟨hf, by simpa using ‹¬ s.ready = true›, ?_⟩
    · exact .inl rfl
    · exact .inr (.inl rfl)
    · exact .inr (.inl rfl)
    · rename_i f hfo hz ho
      refine .inr (.inr ⟨f, hfo, ?_, ?_, ?_, rfl⟩)
      · exact fun h => hz (.inl h)
      · exact Nat.le_of_not_lt fun h => hz (.inr h)
      · intro hf16
        by_contra hodd
        exact ho ⟨hf16, by omega⟩

/-- `GFADD`: ignored, `F_STATE`, or its own outcomes. -/
theorem execGfadd_next (h : execGfadd s = .next t) :
    (s.fault = true ∧ t = s) ∨
    (s.fault = false ∧ s.ready = false ∧ t = s.raise .state (Instr.opcode .gfadd) s.status) ∨
    (s.fault = false ∧ s.ready = true ∧
      (t = { s with res := elemResult (gfAdd (elemOperand s.field s.a0) (elemOperand s.field s.a1)) })) := by
  rcases State.whenReady_next.mp h with h | h | ⟨hf, hr, h⟩
  · exact .inl h
  · exact .inr (.inl h)
  · refine .inr (.inr ⟨hf, hr, ?_⟩)
    exact (Host.Outcome.next.inj h).symm

/-- `GFMUL`: ignored, `F_STATE`, or its own outcomes. -/
theorem execGfmul_next (h : execGfmul s = .next t) :
    (s.fault = true ∧ t = s) ∨
    (s.fault = false ∧ s.ready = false ∧ t = s.raise .state (Instr.opcode .gfmul) s.status) ∨
    (s.fault = false ∧ s.ready = true ∧
      (t = { s with res := elemResult (gfMul s.field (elemOperand s.field s.a0) (elemOperand s.field s.a1)) })) := by
  rcases State.whenReady_next.mp h with h | h | ⟨hf, hr, h⟩
  · exact .inl h
  · exact .inr (.inl h)
  · refine .inr (.inr ⟨hf, hr, ?_⟩)
    exact (Host.Outcome.next.inj h).symm

/-- `GFINV`: ignored, `F_STATE`, or its own outcomes. -/
theorem execGfinv_next (h : execGfinv s = .next t) :
    (s.fault = true ∧ t = s) ∨
    (s.fault = false ∧ s.ready = false ∧ t = s.raise .state (Instr.opcode .gfinv) s.status) ∨
    (s.fault = false ∧ s.ready = true ∧
      (t = s.raise .invzero 0x12 s.a0 ∨
        t = { s with res := elemResult (gfInv s.field (elemOperand s.field s.a0)) })) := by
  rcases State.whenReady_next.mp h with h | h | ⟨hf, hr, h⟩
  · exact .inl h
  · exact .inr (.inl h)
  · refine .inr (.inr ⟨hf, hr, ?_⟩)
    simp only [State.fail] at h
    repeat' split at h
    all_goals cases h
    all_goals simp_all [Instr.opcode, encode, CommandWord.op]

/-- `VMADD`: ignored, `F_STATE`, or its own outcomes. -/
theorem execVmadd_next (h : execVmadd s = .next t) :
    (s.fault = true ∧ t = s) ∨
    (s.fault = false ∧ s.ready = false ∧ t = s.raise .state (Instr.opcode .vmadd) s.status) ∨
    (s.fault = false ∧ s.ready = true ∧
      (t = s.raise .operand 0x13 s.a3 ∨ t = s.raise .bus 0x13 s.a0 ∨ t = s.raise .bus 0x13 s.a1 ∨
        t = s.memWrite s.a0 (vecMAdd s.field (s.memRead s.a0 s.a3.toNat) (s.memRead s.a1 s.a3.toNat)
          (elemOperand s.field s.a2)))) := by
  rcases State.whenReady_next.mp h with h | h | ⟨hf, hr, h⟩
  · exact .inl h
  · exact .inr (.inl h)
  · refine .inr (.inr ⟨hf, hr, ?_⟩)
    simp only [State.fail] at h
    repeat' split at h
    all_goals cases h
    all_goals simp_all [Instr.opcode, encode, CommandWord.op]

/-- `SET_SEED`: ignored, `F_STATE`, or its own outcomes. -/
theorem execSetSeed_next (h : execSetSeed s = .next t) :
    (s.fault = true ∧ t = s) ∨
    (s.fault = false ∧ s.ready = false ∧ t = s.raise .state (Instr.opcode .setSeed) s.status) ∨
    (s.fault = false ∧ s.ready = true ∧
      (t = { s with seed := s.a0 })) := by
  rcases State.whenReady_next.mp h with h | h | ⟨hf, hr, h⟩
  · exact .inl h
  · exact .inr (.inl h)
  · refine .inr (.inr ⟨hf, hr, ?_⟩)
    exact (Host.Outcome.next.inj h).symm

/-- `GENERATE`: ignored, `F_STATE`, or its own outcomes. -/
theorem execGenerate_next (h : execGenerate s = .next t) :
    (s.fault = true ∧ t = s) ∨
    (s.fault = false ∧ s.ready = false ∧ t = s.raise .state (Instr.opcode .generate) s.status) ∨
    (s.fault = false ∧ s.ready = true ∧
      (t = s.raise .window 0x21 s.wlower ∨ t = s.raise .bus 0x21 s.a0 ∨
        t = s.memWrite s.a0 (genBytes s.field s.seed s.wsyms.toNat))) := by
  rcases State.whenReady_next.mp h with h | h | ⟨hf, hr, h⟩
  · exact .inl h
  · exact .inr (.inl h)
  · refine .inr (.inr ⟨hf, hr, ?_⟩)
    simp only [State.fail] at h
    repeat' split at h
    all_goals cases h
    all_goals simp_all [Instr.opcode, encode, CommandWord.op]

/-- `PUSH`: ignored, `F_STATE`, or its own outcomes. -/
theorem execPush_next (h : execPush s = .next t) :
    (s.fault = true ∧ t = s) ∨
    (s.fault = false ∧ s.ready = false ∧ t = s.raise .state (Instr.opcode .push) s.status) ∨
    (s.fault = false ∧ s.ready = true ∧
      (t = s.raise .capacity 0x30 s.upper ∨ t = s.raise .index 0x30 s.upper ∨ t = s.raise .bus 0x30 s.a0 ∨
        (s.nsyms ≠ s.cap ∧ s.upper.toNat ≠ 2 ^ 64 - 1 ∧ s.rangeOK s.a0 s.symBytes = true ∧
          s.overlapsLive s.a0 s.symBytes = false ∧ t = s.appendSlot s.a0))) := by
  rcases State.whenReady_next.mp h with h | h | ⟨hf, hr, h⟩
  · exact .inl h
  · exact .inr (.inl h)
  · refine .inr (.inr ⟨hf, hr, ?_⟩)
    simp only [State.fail] at h
    repeat' split at h
    all_goals cases h
    all_goals simp_all [Instr.opcode, encode, CommandWord.op]

/-- `POP`: ignored, `F_STATE`, or its own outcomes. -/
theorem execPop_next (h : execPop s = .next t) :
    (s.fault = true ∧ t = s) ∨
    (s.fault = false ∧ s.ready = false ∧ t = s.raise .state (Instr.opcode .pop) s.status) ∨
    (s.fault = false ∧ s.ready = true ∧
      (t = s.raise .empty 0x31 s.lower ∨ (s.upper ≠ s.lower ∧ t = s.dropLowest))) := by
  rcases State.whenReady_next.mp h with h | h | ⟨hf, hr, h⟩
  · exact .inl h
  · exact .inr (.inl h)
  · refine .inr (.inr ⟨hf, hr, ?_⟩)
    simp only [State.fail] at h
    repeat' split at h
    all_goals cases h
    all_goals simp_all [Instr.opcode, encode, CommandWord.op]

/-- `SET_WINDOW`: ignored, `F_STATE`, or its own outcomes. -/
theorem execSetWindow_next (h : execSetWindow s = .next t) :
    (s.fault = true ∧ t = s) ∨
    (s.fault = false ∧ s.ready = false ∧ t = s.raise .state (Instr.opcode .setWindow) s.status) ∨
    (s.fault = false ∧ s.ready = true ∧
      (t = s.raise .window 0x32 s.a0 ∨
        (s.windowFits s.a0 s.a1 = true ∧ t = { s with wlower := s.a0, wsyms := s.a1 }))) := by
  rcases State.whenReady_next.mp h with h | h | ⟨hf, hr, h⟩
  · exact .inl h
  · exact .inr (.inl h)
  · refine .inr (.inr ⟨hf, hr, ?_⟩)
    simp only [State.fail] at h
    repeat' split at h
    all_goals cases h
    all_goals simp_all [Instr.opcode, encode, CommandWord.op]

/-- `WRITE_SYMBOL`: ignored, `F_STATE`, or its own outcomes. -/
theorem execWriteSymbol_next (h : execWriteSymbol s = .next t) :
    (s.fault = true ∧ t = s) ∨
    (s.fault = false ∧ s.ready = false ∧ t = s.raise .state (Instr.opcode .writeSymbol) s.status) ∨
    (s.fault = false ∧ s.ready = true ∧
      (t = s.raise .window 0x40 s.wlower ∨ t = s.raise .bus 0x40 s.a0 ∨ t = s.raise .bus 0x40 s.a1 ∨
        (s.windowOK = true ∧ s.overlapsLive s.a0 s.symBytes = false ∧
          t = s.memWrite s.a0 (s.codedSymbol (s.memRead s.a1 s.vectorBytes))))) := by
  rcases State.whenReady_next.mp h with h | h | ⟨hf, hr, h⟩
  · exact .inl h
  · exact .inr (.inl h)
  · refine .inr (.inr ⟨hf, hr, ?_⟩)
    simp only [State.fail] at h
    repeat' split at h
    all_goals cases h
    all_goals simp_all [Instr.opcode, encode, CommandWord.op]

/-- `WRITE_SOURCE_SYMBOL`: ignored, `F_STATE`, or its own outcomes. -/
theorem execWriteSourceSymbol_next (h : execWriteSourceSymbol s = .next t) :
    (s.fault = true ∧ t = s) ∨
    (s.fault = false ∧ s.ready = false ∧ t = s.raise .state (Instr.opcode .writeSourceSymbol) s.status) ∨
    (s.fault = false ∧ s.ready = true ∧
      (t = s.raise .index 0x41 s.a1 ∨ t = s.raise .bus 0x41 s.a0 ∨
        (s.isLive s.a1.toNat = true ∧ s.overlapsLive s.a0 s.symBytes = false ∧
          t = s.memWrite s.a0 (s.payload s.a1.toNat)))) := by
  rcases State.whenReady_next.mp h with h | h | ⟨hf, hr, h⟩
  · exact .inl h
  · exact .inr (.inl h)
  · refine .inr (.inr ⟨hf, hr, ?_⟩)
    simp only [State.fail] at h
    repeat' split at h
    all_goals cases h
    all_goals simp_all [Instr.opcode, encode, CommandWord.op]

/-- `READ_SYMBOL`: ignored, `F_STATE`, or its own outcomes. -/
theorem execReadSymbol_next (h : execReadSymbol s = .next t) :
    (s.fault = true ∧ t = s) ∨
    (s.fault = false ∧ s.ready = false ∧ t = s.raise .state (Instr.opcode .readSymbol) s.status) ∨
    (s.fault = false ∧ s.ready = true ∧
      (t = s.raise .window 0x50 s.wlower ∨ t = s.raise .bus 0x50 s.a0 ∨ t = s.raise .bus 0x50 s.a1 ∨
        (s.windowOK = true ∧ s.rangeOK s.a0 s.symBytes = true ∧ s.rangeOK s.a1 s.vectorBytes = true ∧
          s.overlapsLive s.a0 s.symBytes = false ∧ s.overlapsLive s.a1 s.vectorBytes = false ∧
          overlap s.a0.toNat s.symBytes s.a1.toNat s.vectorBytes = false ∧
          t = ((s.absorb (s.memRead s.a1 s.vectorBytes) (s.memRead s.a0 s.symBytes)).memForget s.a0
            s.symBytes).memForget s.a1 s.vectorBytes))) := by
  rcases State.whenReady_next.mp h with h | h | ⟨hf, hr, h⟩
  · exact .inl h
  · exact .inr (.inl h)
  · refine .inr (.inr ⟨hf, hr, ?_⟩)
    simp only [State.fail] at h
    repeat' split at h
    all_goals cases h
    all_goals simp_all [Instr.opcode, encode, CommandWord.op]

/-- `READ_SOURCE_SYMBOL`: ignored, `F_STATE`, or its own outcomes. -/
theorem execReadSourceSymbol_next (h : execReadSourceSymbol s = .next t) :
    (s.fault = true ∧ t = s) ∨
    (s.fault = false ∧ s.ready = false ∧ t = s.raise .state (Instr.opcode .readSourceSymbol) s.status) ∨
    (s.fault = false ∧ s.ready = true ∧
      (t = s.raise .index 0x51 s.a1 ∨ t = s.raise .bus 0x51 s.a0 ∨
        (s.isLive s.a1.toNat = true ∧ s.rangeOK s.a0 s.symBytes = true ∧
          s.overlapsLive s.a0 s.symBytes = false ∧
          t = s.absorbSource s.a1.toNat (s.memRead s.a0 s.symBytes)))) := by
  rcases State.whenReady_next.mp h with h | h | ⟨hf, hr, h⟩
  · exact .inl h
  · exact .inr (.inl h)
  · refine .inr (.inr ⟨hf, hr, ?_⟩)
    simp only [State.fail] at h
    repeat' split at h
    all_goals cases h
    all_goals simp_all [Instr.opcode, encode, CommandWord.op]

/-- `QSTATE`: ignored, `F_STATE`, or its own outcomes. -/
theorem execQstate_next (h : execQstate s = .next t) :
    (s.fault = true ∧ t = s) ∨
    (s.fault = false ∧ s.ready = false ∧ t = s.raise .state (Instr.opcode .qstate) s.status) ∨
    (s.fault = false ∧ s.ready = true ∧
      (t = s.raise .index 0x52 s.a0 ∨
        (s.isLive s.a0.toNat = true ∧ t = { s with res := rowStateCode (s.rowState s.a0.toNat) }))) := by
  rcases State.whenReady_next.mp h with h | h | ⟨hf, hr, h⟩
  · exact .inl h
  · exact .inr (.inl h)
  · refine .inr (.inr ⟨hf, hr, ?_⟩)
    simp only [State.fail] at h
    repeat' split at h
    all_goals cases h
    all_goals simp_all [Instr.opcode, encode, CommandWord.op]

end Sys2Proof.Machine
end

