-- ==== Sys2Proof/Laws/Field.lean ====
section
/-! SUPPORT. The lengths of packed buffers under the vector operations (R66 to R69, R77). -/

namespace Sys2Proof.Machine

theorem length_zipPairs (op : Elem → Elem → Elem) (as bs : List Byte) :
    (zipPairs op as bs).length = as.length := by
  induction as, bs using zipPairs.induct with
  | case1 a0 a1 as b0 b1 bs ih => simp [zipPairs, ih]
  | case2 as bs h =>
    unfold zipPairs
    split
    · rename_i a0 a1 as b0 b1 bs
      exact (h a0 a1 as b0 b1 bs rfl rfl).elim
    · rfl

theorem length_zipElems (f : FieldId) (op : Elem → Elem → Elem) {as bs : List Byte}
    (h : as.length = bs.length) : (zipElems f op as bs).length = as.length := by
  cases f <;> simp [zipElems, length_zipPairs, h]

theorem length_vecMAdd (f : FieldId) {dst src : List Byte} (s : Elem) (h : dst.length = src.length) :
    (vecMAdd f dst src s).length = dst.length := length_zipElems f _ h

theorem length_vecScale (f : FieldId) (buf : List Byte) (s : Elem) :
    (vecScale f buf s).length = buf.length := length_zipElems f _ rfl

theorem length_setElem (f : FieldId) (buf : List Byte) (k : Nat) (v : Elem) :
    (setElem f buf k v).length = buf.length := by
  cases f <;> simp only [setElem] <;> (try split) <;> simp

end Sys2Proof.Machine
end

