-- ==== Sys2Proof/Laws/Host.lean ====
section
/-! SUPPORT. For each action of the host, everything it can answer as a next state, said once. -/

namespace Sys2Proof.Machine

variable {s t : State}

theorem rangeFits_iff (a n : Nat) : rangeFits a n = true ↔ a + n ≤ 2 ^ 64 := by
  exact decide_eq_true_iff

/-- A host write of memory: the bytes stored, or the stop past the last address. -/
theorem State.hostMemWrite_next {a : Word} {bs : List Byte} :
    s.hostMemWrite a bs = .next t ↔ a.toNat + bs.length ≤ 2 ^ 64 ∧ t = s.memWrite a bs := by
  unfold State.hostMemWrite
  rw [← rangeFits_iff]
  cases rangeFits a.toNat bs.length <;> simp [eq_comm]

/-- A host read of memory: the bytes recorded, or the stop past the last address. -/
theorem State.hostMemRead_next {a : Word} {n : Nat} :
    s.hostMemRead a n = .next t ↔
      a.toNat + n ≤ 2 ^ 64 ∧ t = { s with returned := s.returned ++ [.bytes (s.memRead a n)] } := by
  unfold State.hostMemRead
  rw [← rangeFits_iff]
  cases rangeFits a.toNat n <;> simp [eq_comm]

/-- A host read of a register: its value recorded, or the refusal of an odd offset. -/
theorem State.hostReadReg_next {offset : Nat} :
    s.hostReadReg offset = .next t ↔
      validOffset offset = true ∧ t = { s with returned := s.returned ++ [.reg (s.readOffset offset)] } := by
  unfold State.hostReadReg
  cases validOffset offset <;> simp [eq_comm]

/-- A command word that decodes runs its command; any other is ignored in the fault state and else raises
`F_ILLEGAL`. -/
theorem issue_next {cw : CommandWord} (h : issue cw s = .next t) :
    (∃ i, decode cw = .ok i ∧ exec i s = .next t) ∨
    (s.fault = true ∧ t = s) ∨
    (s.fault = false ∧ t = s.raise .illegal (CommandWord.op cw) (cw.setWidth 64)) := by
  unfold issue at h
  split at h
  · exact .inl ⟨_, ‹_›, h⟩
  · rcases State.unlessFault_next.mp h with h | ⟨hf, h⟩
    · exact .inr (.inl h)
    · exact .inr (.inr ⟨hf, (Host.Outcome.next.inj h).symm⟩)

/-- A host write of a register: a command issued, a register stored or left alone. -/
theorem State.hostWriteReg_next {offset : Nat} {v : Word} (h : s.hostWriteReg offset v = .next t) :
    validOffset offset = true ∧
      (regAt offset = some .cmd ∧ issue (v.setWidth 32) s = .next t ∨
        t = s ∨ ∃ r, regAt offset = some r ∧ t = s.writeReg r v) := by
  unfold State.hostWriteReg at h
  split at h
  · refine ⟨‹_›, ?_⟩
    split at h
    · exact .inl ⟨‹_›, h⟩
    · exact .inr (.inr ⟨_, ‹_›, (Host.Outcome.next.inj h).symm⟩)
    · exact .inr (.inl (Host.Outcome.next.inj h).symm)
  · cases h

/-- A step: nothing left in the host's list, or its first action performed on the rest. -/
theorem step_next (h : step s = .next t) :
    (s.program = [] ∧ t = s) ∨
    ∃ a rest, s.program = a :: rest ∧ hostAct { s with program := rest } a = .next t := by
  unfold step stepHost at h
  split at h
  · exact .inl ⟨‹_›, (Host.Outcome.next.inj h).symm⟩
  · exact .inr ⟨_, _, ‹_›, h⟩

end Sys2Proof.Machine
end

