-- ==== Sys2Proof/Laws/PerInstr.lean ====
section
/-! SUPPORT. The facts proved for every command by itself: its row of the opcode map and its word. -/

namespace Sys2Proof

/-- The opcode map lists the command under its opcode, and its word is that opcode, zero-extended (R50, R51). -/
def Laws.OpcodeInMap.Statement (i : Instr) : Prop :=
  (i.opcode, i) ∈ opcodeMap ∧ encode i = i.opcode.setWidth 32

theorem Laws.OpcodeInMap.nop : Laws.OpcodeInMap.Statement .nop := by
  unfold Laws.OpcodeInMap.Statement; decide

theorem Laws.OpcodeInMap.reset : Laws.OpcodeInMap.Statement .reset := by
  unfold Laws.OpcodeInMap.Statement; decide

theorem Laws.OpcodeInMap.config : Laws.OpcodeInMap.Statement .config := by
  unfold Laws.OpcodeInMap.Statement; decide

theorem Laws.OpcodeInMap.gfadd : Laws.OpcodeInMap.Statement .gfadd := by
  unfold Laws.OpcodeInMap.Statement; decide

theorem Laws.OpcodeInMap.gfmul : Laws.OpcodeInMap.Statement .gfmul := by
  unfold Laws.OpcodeInMap.Statement; decide

theorem Laws.OpcodeInMap.gfinv : Laws.OpcodeInMap.Statement .gfinv := by
  unfold Laws.OpcodeInMap.Statement; decide

theorem Laws.OpcodeInMap.vmadd : Laws.OpcodeInMap.Statement .vmadd := by
  unfold Laws.OpcodeInMap.Statement; decide

theorem Laws.OpcodeInMap.setSeed : Laws.OpcodeInMap.Statement .setSeed := by
  unfold Laws.OpcodeInMap.Statement; decide

theorem Laws.OpcodeInMap.generate : Laws.OpcodeInMap.Statement .generate := by
  unfold Laws.OpcodeInMap.Statement; decide

theorem Laws.OpcodeInMap.push : Laws.OpcodeInMap.Statement .push := by
  unfold Laws.OpcodeInMap.Statement; decide

theorem Laws.OpcodeInMap.pop : Laws.OpcodeInMap.Statement .pop := by
  unfold Laws.OpcodeInMap.Statement; decide

theorem Laws.OpcodeInMap.setWindow : Laws.OpcodeInMap.Statement .setWindow := by
  unfold Laws.OpcodeInMap.Statement; decide

theorem Laws.OpcodeInMap.writeSymbol : Laws.OpcodeInMap.Statement .writeSymbol := by
  unfold Laws.OpcodeInMap.Statement; decide

theorem Laws.OpcodeInMap.writeSourceSymbol : Laws.OpcodeInMap.Statement .writeSourceSymbol := by
  unfold Laws.OpcodeInMap.Statement; decide

theorem Laws.OpcodeInMap.readSymbol : Laws.OpcodeInMap.Statement .readSymbol := by
  unfold Laws.OpcodeInMap.Statement; decide

theorem Laws.OpcodeInMap.readSourceSymbol : Laws.OpcodeInMap.Statement .readSourceSymbol := by
  unfold Laws.OpcodeInMap.Statement; decide

theorem Laws.OpcodeInMap.qstate : Laws.OpcodeInMap.Statement .qstate := by
  unfold Laws.OpcodeInMap.Statement; decide

end Sys2Proof
end

