-- ==== Sys2Proof/Tests/Slice0.lean ====
section
/-! SUPPORT. Tests: words written out bit by bit, refused ill-formed terms, single steps whose results stand in
95_test_vectors.md (the vector's name stands in each docstring), and states that meet the hypotheses of the
statements. -/

namespace Sys2Proof.Tests

open Sys2Proof.Machine

set_option maxRecDepth 100000

/-! ### Command words: the opcode of R51 in bits 7:0, bits 31:8 zero (R50) -/

theorem test_decode_nop : decode 0b00000000000000000000000000000000 = .ok .nop := by decide
theorem test_decode_reset : decode 0b00000000000000000000000000000001 = .ok .reset := by decide
theorem test_decode_config : decode 0b00000000000000000000000000000010 = .ok .config := by decide
theorem test_decode_gfadd : decode 0b00000000000000000000000000010000 = .ok .gfadd := by decide
theorem test_decode_gfmul : decode 0b00000000000000000000000000010001 = .ok .gfmul := by decide
theorem test_decode_gfinv : decode 0b00000000000000000000000000010010 = .ok .gfinv := by decide
theorem test_decode_vmadd : decode 0b00000000000000000000000000010011 = .ok .vmadd := by decide
theorem test_decode_set_seed : decode 0b00000000000000000000000000100000 = .ok .setSeed := by decide
theorem test_decode_generate : decode 0b00000000000000000000000000100001 = .ok .generate := by decide
theorem test_decode_push : decode 0b00000000000000000000000000110000 = .ok .push := by decide
theorem test_decode_pop : decode 0b00000000000000000000000000110001 = .ok .pop := by decide
theorem test_decode_set_window : decode 0b00000000000000000000000000110010 = .ok .setWindow := by decide
theorem test_decode_write_symbol : decode 0b00000000000000000000000001000000 = .ok .writeSymbol := by
  decide
theorem test_decode_write_source_symbol :
    decode 0b00000000000000000000000001000001 = .ok .writeSourceSymbol := by decide
theorem test_decode_read_symbol : decode 0b00000000000000000000000001010000 = .ok .readSymbol := by
  decide
theorem test_decode_read_source_symbol :
    decode 0b00000000000000000000000001010001 = .ok .readSourceSymbol := by decide
theorem test_decode_qstate : decode 0b00000000000000000000000001010010 = .ok .qstate := by decide

/-- K15, K16, K18 and the word with only bit 31 set. -/
theorem test_decode_illegal :
    decode 0x00000131 = .error .reservedBits ∧ decode 0x00000003 = .error .undefinedOpcode ∧
    decode 0x000000FF = .error .undefinedOpcode ∧ decode 0x80000000 = .error .reservedBits := by decide

theorem test_table_word : decodeTableWord 32 0x51 = some .readSourceSymbol ∧
    decodeTableWord 32 0x151 = none := by decide

/-! ### Well-formedness: each check refuses an ill-formed term -/

theorem test_offset_not_multiple_of_8 : HostAction.wellFormed (.writeReg 0x0C 0) = false := by decide
theorem test_offset_past_the_map : HostAction.wellFormed (.readReg 0x100) = false := by decide
theorem test_write_past_the_top :
    HostAction.wellFormed (.memWrite 0xFFFFFFFFFFFFFFFF [1, 2]) = false := by decide
theorem test_read_past_the_top : HostAction.wellFormed (.memRead 0xFFFFFFFFFFFFFFFF 2) = false := by
  decide
theorem test_line_operand_missing : Line.wellFormed (.command .config [3]) = false := by decide
theorem test_line_write_past_the_top : Line.wellFormed (.mw 0xFFFFFFFFFFFFFFFF [1, 2]) = false := by
  decide
theorem test_line_read_past_the_top : Line.wellFormed (.mr 0xFFFFFFFFFFFFFFFF 2) = false := by decide
theorem test_wellFormed_accepts :
    HostAction.wellFormed (.readReg 0xF8) = true ∧
    HostAction.wellFormed (.memRead 0xFFFFFFFFFFFFFFFF 1) = true ∧
    Line.wellFormed (.command .config [3, 8]) = true := by decide

/-! ### Helpers -/

/-- The answer is a next state with the property. -/
def answers (r : Result) (p : State → Bool) : Bool :=
  match r with
  | .next t => p t
  | _ => false

theorem next_of {r : Result} {P : State → Prop} [DecidablePred P]
    (h : answers r (fun t => decide (P t)) = true) : ∃ t, r = .next t ∧ P t := by
  cases r with
  | next t => exact ⟨t, rfl, by simpa [answers] using h⟩
  | fault _ => simp [answers] at h
  | refused _ => simp [answers] at h

/-- A ready unit from reset with `CONFIG f, n`, capacity `c`, and `[0x1000, 0x1100)` mapped. -/
def unit (f : FieldId) (n : BitVec 32) (c : Nat) : State :=
  { State.reset with ready := true, field := f, symsize := n, cap := c, mapped := [⟨0x1000, 0x100⟩] }

/-- A state with its four operand registers set. -/
def ops (s : State) (a b c d : Word) : State := { s with a0 := a, a1 := b, a2 := c, a3 := d }

/-- A state with missing slots at the given buffers, from index 0 on, and the window `(lo, n)`. -/
def slotsAt (s : State) (addrs : List Word) (lo n : Word) : State :=
  { s with
    slots := (List.range addrs.length).zip (addrs.map fun a => ⟨a, false, false⟩)
    upper := BitVec.ofNat 64 addrs.length, wlower := lo, wsyms := n }

/-! ### Single commands -/

/-- K12. -/
theorem test_nop :
    answers (exec .nop (ops State.reset 1 2 3 4)) (fun t => decide (t = ops State.reset 1 2 3 4)) = true := by
  decide

/-- K13; R91: `CAP`, `Mapped` and memory stay. -/
theorem test_reset :
    answers (exec .reset ((ops (unit .binary4 3 7) 1 2 3 4).memWrite 0x1000 [9])) (fun t =>
      decide (t.a3 = 0 ∧ t.status = 0 ∧ t.cap = 7 ∧ t.mem.readByte 0x1000 = 9)) = true := by decide

/-- K7. -/
theorem test_config :
    answers (exec .config (ops State.reset 3 8 0 0)) (fun t =>
      decide (t.status = 0x1 ∧ t.readReg .field = 3 ∧ t.readReg .symsize = 8)) = true := by decide

/-- K6: check 3 fires before check 4. -/
theorem test_config_zero_size :
    answers (exec .config (ops State.reset 3 0 0 0)) (fun t =>
      decide (t.status = 0x020302 ∧ t.finfo = 0 ∧ t.readReg .field = 0)) = true := by decide

/-- F8, binary4. -/
theorem test_gfadd :
    answers (exec .gfadd (ops (unit .binary4 1 4) 0x1F 3 0 0)) (fun t => decide (t.res = 0xC)) = true := by
  decide

/-- K14. -/
theorem test_gfadd_unconfigured :
    answers (exec .gfadd (ops State.reset 1 1 0 0)) (fun t =>
      decide (t.status = 0x100202 ∧ t.finfo = 0 ∧ t.res = 0)) = true := by decide

/-- F9, binary4. -/
theorem test_gfmul_binary4 :
    answers (exec .gfmul (ops (unit .binary4 1 4) 7 9 0 0)) (fun t => decide (t.res = 0xA)) = true := by
  decide

/-- F10, binary16. -/
theorem test_gfmul_binary16 :
    answers (exec .gfmul (ops (unit .binary16 2 4) 0xFFFFFFFFFFFFFFFF 0xFFFFFFFFFFFFFFFF 0 0))
      (fun t => decide (t.res = 0x733)) = true := by decide

/-- F11, binary8. -/
theorem test_gfinv :
    answers (exec .gfinv (ops (unit .binary8 1 4) 3 0 0 0)) (fun t => decide (t.res = 0xF4)) = true := by
  decide

/-- F12, binary16. -/
theorem test_gfinv_zero :
    answers (exec .gfinv (ops (unit .binary16 2 4) 0x10000 0 0 0)) (fun t =>
      decide (t.status = 0x120803 ∧ t.finfo = 0x10000 ∧ t.res = 0)) = true := by decide

/-- V7. -/
theorem test_vmadd :
    answers (exec .vmadd (((ops (unit .binary16 2 4) 0x1000 0x1010 2 4).memWrite 0x1000
        [0x34, 0x12, 0x00, 0x00]).memWrite 0x1010 [0x78, 0x56, 0x00, 0x80])) (fun t =>
      decide (t.memRead 0x1000 4 = [0xC4, 0xBE, 0x0B, 0x10] ∧
        t.memRead 0x1010 4 = [0x78, 0x56, 0x00, 0x80])) = true := by decide

/-- V4, with a multiplier whose bits above the element are ignored (R71). -/
theorem test_vmadd_binary4 :
    answers (exec .vmadd (((ops (unit .binary4 2 4) 0x1000 0x1010 0x79 2).memWrite 0x1000
        [0x21, 0x43]).memWrite 0x1010 [0x7F, 0x10])) (fun t =>
      decide (t.memRead 0x1000 3 = [0x8F, 0xD3, 0x00])) = true := by decide

/-- `SEED` takes all 64 bits (R83). -/
theorem test_set_seed :
    answers (exec .setSeed (ops (unit .binary 1 4) 0xFFFFFFFFFFFFFFFF 0 0 0)) (fun t =>
      decide (t.seed = 0xFFFFFFFFFFFFFFFF)) = true := by decide

/-- K19. -/
theorem test_set_seed_unconfigured :
    answers (exec .setSeed (ops State.reset 5 0 0 0)) (fun t =>
      decide (t.status = 0x200202 ∧ t.seed = 0)) = true := by decide

/-- G1. -/
theorem test_generate :
    answers (exec .generate { unit .binary8 1 16 with a0 := 0x1080, upper := 10, wsyms := 10 }) (fun t =>
      decide (t.memRead 0x1080 11 =
        [0xAF, 0xCD, 0x1D, 0x7B, 0x39, 0xA8, 0x20, 0xE2, 0xF4, 0x65, 0x00])) = true := by decide

/-- G5: the padding bits of the last byte are 0. -/
theorem test_generate_padding :
    answers (exec .generate { unit .binary 1 16 with a0 := 0x1080, upper := 11, wsyms := 11 }) (fun t =>
      decide (t.memRead 0x1080 2 = [0xAF, 0x05])) = true := by decide

/-- W6, second line: adjacent buffers do not overlap. -/
theorem test_push :
    answers (exec .push (ops (slotsAt (unit .binary8 4 2) [0x1000] 0 0) 0x1004 0 0 0)) (fun t =>
      decide (t.res = 1 ∧ t.upper = 2 ∧ t.readReg .nmiss = 2 ∧ (t.slot 1).addr = 0x1004)) = true := by decide

/-- W12, third line: the capacity check comes first. -/
theorem test_push_full :
    answers (exec .push (ops (slotsAt (unit .binary8 4 2) [0x1000, 0x1010] 0 0) 0x1020 0 0 0)) (fun t =>
      decide (t.status = 0x300603 ∧ t.finfo = 2 ∧ t.upper = 2)) = true := by decide

/-- W3. -/
theorem test_pop_empty :
    answers (exec .pop (unit .binary8 4 2)) (fun t => decide (t.status = 0x310503 ∧ t.finfo = 0)) = true := by
  decide

/-- D7: the freezing loop, in a state that no run reaches. -/
theorem test_pop_freezes :
    answers (exec .pop { unit .binary8 2 4 with
        upper := 3, slots := [(0, ⟨0x1000, false, false⟩), (1, ⟨0x1010, true, false⟩), (2, ⟨0x1020, true, false⟩)]
        coef := [((1, 0), 5), ((1, 1), 1), ((2, 2), 1)] }) (fun t =>
      decide (t.res = 0 ∧ t.lower = 1 ∧ (t.slot 1).frz = true ∧ t.coefOf 1 0 = 0 ∧ t.coefOf 1 1 = 1 ∧
        t.coefOf 1 2 = 0 ∧ t.rowState 1 = .partiallyDecoded ∧ t.rowState 2 = .decoded ∧
        [Reg.rank, .ndec, .npart, .nmiss].map t.readReg = [2, 1, 1, 0])) = true := by decide

/-- W7, first acceptance: an empty window at `UPPER`. -/
theorem test_set_window :
    answers (exec .setWindow (ops (slotsAt (unit .binary8 4 2) [0x1000, 0x1004] 0 0) 2 0 0 0)) (fun t =>
      decide (t.wlower = 2 ∧ t.wsyms = 0 ∧ t.fault = false)) = true := by decide

/-- W7, last line: the sum does not wrap. -/
theorem test_set_window_no_wrap :
    answers (exec .setWindow (ops (slotsAt (unit .binary8 4 2) [0x1000, 0x1004] 1 1)
        0xFFFFFFFFFFFFFFFF 2 0 0)) (fun t =>
      decide (t.status = 0x320403 ∧ t.finfo = 0xFFFFFFFFFFFFFFFF ∧ t.wlower = 1 ∧ t.wsyms = 1)) = true := by
  decide

/-- E4 with the slot buffers inside the mapped range: the padding nibble is ignored. -/
theorem test_write_symbol :
    answers (exec .writeSymbol (((((ops (slotsAt (unit .binary4 2 4) [0x1000, 0x1010, 0x1020] 0 3)
        0x1040 0x1050 0 0).memWrite 0x1000 [0x21, 0x43]).memWrite 0x1010 [0x7F, 0x10]).memWrite 0x1020
        [0xFF, 0xFF]).memWrite 0x1050 [0x91, 0xF0])) (fun t =>
      decide (t.memRead 0x1040 3 = [0x8F, 0xD3, 0x00])) = true := by decide

/-- X9: an empty window writes zeros, and its vector is not checked against `Mapped`. -/
theorem test_write_symbol_empty_window :
    answers (exec .writeSymbol ((ops (slotsAt (unit .binary8 4 2) [0x1000] 0 0) 0x1010 0x3000 0 0).memWrite
        0x1010 [1, 2, 3, 4])) (fun t =>
      decide (t.memRead 0x1010 4 = [0, 0, 0, 0] ∧ t.fault = false)) = true := by decide

/-- E7 with E6's symbols. -/
theorem test_write_source_symbol :
    answers (exec .writeSourceSymbol ((ops (slotsAt (unit .binary16 4 4) [0x1000, 0x1010] 0 2)
        0x1020 1 0 0).memWrite 0x1010 [0xFF, 0xFF, 0x00, 0x80])) (fun t =>
      decide (t.memRead 0x1020 4 = [0xFF, 0xFF, 0x00, 0x80])) = true := by decide

/-- X1. -/
theorem test_write_source_symbol_index :
    answers (exec .writeSourceSymbol (ops (slotsAt (unit .binary8 4 2) [0x1000] 0 0) 0x1010 1 0 0)) (fun t =>
      decide (t.status = 0x410703 ∧ t.finfo = 1)) = true := by decide

/-- P7, step 5: the row is scaled and its payload goes to the slot of its pivot. -/
theorem test_read_symbol :
    answers (exec .readSymbol (((ops (slotsAt (unit .binary16 4 4) [0x1000, 0x1010] 0 2)
        0x1020 0x1030 0 0).memWrite 0x1020 [0x62, 0x34, 0xFB, 0x3C]).memWrite 0x1030 [2, 0, 3, 0])) (fun t =>
      decide (t.res = 0 ∧ t.adv = true ∧ t.coefOf 0 0 = 0x0001 ∧ t.coefOf 0 1 = 0x8804 ∧
        t.payload 0 = [0x31, 0x1A, 0x78, 0x96] ∧
        [Reg.rank, .npart, .nmiss].map t.readReg = [1, 1, 1])) = true := by decide

/-- D5, step c: the pivot lies outside the window and back-substitution clears its column. -/
theorem test_read_symbol_outside_window :
    answers (exec .readSymbol (({ unit .binary8 2 4 with
        a0 := 0x1040, a1 := 0x1050, upper := 3, wlower := 1, wsyms := 1
        slots := [(0, ⟨0x1000, true, false⟩), (1, ⟨0x1010, true, false⟩), (2, ⟨0x1020, false, false⟩)]
        coef := [((0, 0), 1), ((0, 2), 0xC5), ((1, 1), 1), ((1, 2), 0x52)] : State }
        |>.memWrite 0x1000 [0xAA, 0x65]) |>.memWrite 0x1010 [0xF0, 0x89] |>.memWrite 0x1040 [0x10, 0x20]
        |>.memWrite 0x1050 [0x01])) (fun t =>
      decide (t.res = 2 ∧ t.adv = true ∧ t.coef = [((0, 0), 1), ((1, 1), 1), ((2, 2), 1)] ∧
        t.payload 0 = [0x01, 0x02] ∧ t.payload 1 = [0x10, 0x20] ∧ t.payload 2 = [0xA0, 0xB0])) = true := by
  decide

/-- D1: a source symbol over a partial row. -/
theorem test_read_source_symbol :
    answers (exec .readSourceSymbol (({ unit .binary8 4 4 with
        a0 := 0x1020, a1 := 0, adv := true, res := 7, upper := 2, wsyms := 2
        slots := [(0, ⟨0x1000, true, false⟩), (1, ⟨0x1010, false, false⟩)]
        coef := [((0, 0), 1), ((0, 1), 0x8F)] : State }
        |>.memWrite 0x1000 [0x19, 0x32, 0x2B, 0x64]) |>.memWrite 0x1020 [1, 2, 3, 4])) (fun t =>
      decide (t.status = 0x1 ∧ t.res = 0 ∧ t.coef = [((0, 0), 1)] ∧ t.payload 0 = [1, 2, 3, 4] ∧
        [Reg.rank, .ndec, .npart, .nmiss].map t.readReg = [1, 1, 0, 1])) = true := by decide

/-- X3: the index check comes before the bus check. -/
theorem test_read_source_symbol_index :
    answers (exec .readSourceSymbol (ops (slotsAt (unit .binary8 4 2) [0x1000] 0 0) 0x2000 5 0 0)) (fun t =>
      decide (t.status = 0x510703 ∧ t.finfo = 5)) = true := by decide

/-- D6, second line, with `RES` set before. -/
theorem test_qstate :
    answers (exec .qstate { slotsAt (unit .binary8 4 2) [0x1000] 0 0 with res := 9 }) (fun t =>
      decide (t.res = 0 ∧ t.fault = false)) = true := by decide

/-- D6, first line. -/
theorem test_qstate_index :
    answers (exec .qstate (ops (slotsAt (unit .binary8 4 2) [0x1000] 0 0) 1 0 0 0)) (fun t =>
      decide (t.status = 0x520703 ∧ t.finfo = 1)) = true := by decide

/-! ### The host's actions -/

/-- K15. -/
theorem test_illegal_word :
    answers (step (State.reset.withFetchWord 32 0x131)) (fun t =>
      decide (t.status = 0x310102 ∧ t.finfo = 0x131)) = true := by decide

/-- K17: bits 63:32 of a `CMD` write are ignored. -/
theorem test_cmd_upper_bits :
    answers (step { State.reset with program := [.writeReg 0x00 0xFFFFFFFF00000000] }) (fun t =>
      decide (t = State.reset)) = true := by decide

/-- The line `SET_WINDOW 3, 5` of 30_encoding.md R56, with a comment. -/
theorem test_assemble :
    assemble "SET_WINDOW 3, 0x5 ; window".toList =
      some [.writeReg 0x20 3, .writeReg 0x28 5, .writeReg 0x00 0x32] := by decide

/-- A host access goes past what `Mapped` gives the unit (R41, R48), but not past the last address (R40). -/
theorem test_host_memory :
    answers (step { unit .binary8 4 2 with program := [.memWrite 0xFFFFFFFFFFFFFFFF [7]] }) (fun t =>
      decide (t.memRead 0xFFFFFFFFFFFFFFFF 1 = [7])) = true ∧
    answers (step { unit .binary8 4 2 with program := [.memRead 0xFFFFFFFFFFFFFFFF 2] }) (fun _ => true) =
      false := by decide

/-- The digits of R56 in both cases; a letter is no decimal digit. -/
theorem test_numeral : numeral "0xAf".toList = some 0xAF ∧ numeral "19".toList = some 19 ∧
    numeral "1A".toList = none ∧ numeral "0x1G".toList = none := by decide

theorem test_reset_memory_wf : State.reset.mem.wf = true := by decide

/-- The generator's words for seed 1234567 (95_test_vectors.md, 2.5). -/
theorem test_sm64 : sm64 1234567 0 = 0x599ED017FB08FC85 ∧ sm64 1234567 2 = 0x883EBCE5A3F27C77 := by decide

/-! ### States that meet the hypotheses of the statements

`witness_<statement>` shows for each clause of the statement a concrete state and operands, at a boundary of the
clause's range where it has one, that meet all hypotheses of the clause together. -/

/-- A unit in the fault state (after W3), with the host's list. -/
def faulted (program : List HostAction) : State :=
  { unit .binary8 4 2 with fault := true, cause := .empty, fop := 0x31, program := program }

/-- A unit from reset with other parameters: not configured. -/
def fresh (program : List HostAction) : State :=
  { State.reset with cap := 3, mapped := [⟨0x1000, 0x10⟩], program := program }

/-- Every premise on the host's list is met by the list itself. -/
theorem witness_program (program : List HostAction) :
    (fresh program).program = program ∧ (faulted program).program = program := ⟨rfl, rfl⟩

/-- `GuardedCommand`: the two states its clauses speak of. -/
theorem witness_GuardedCommand :
    (faulted []).fault = true ∧ (fresh []).fault = false ∧ (fresh []).ready = false := by decide

theorem witness_DecodeOfEncodeIsTheCommand : Instr.wellFormed .qstate = true := by decide

theorem witness_StepRunsTheDecodedCommand :
    decode ((0xFFFFFFFF00000052 : Word).setWidth 32) = .ok .qstate ∧
    decode ((0 : Word).setWidth 32) = .ok .nop := by decide

theorem witness_IllegalWordRaisesIllegal : (fresh []).fault = false ∧
    [0x03, 0x53, 0x100, 0x131, 0xFFFFFFFF].all (fun v =>
      decide (((BitVec.ofNat 64 v).setWidth 32 : CommandWord) ∉ ([0x00, 0x01, 0x02, 0x10, 0x11, 0x12, 0x13,
        0x20, 0x21, 0x30, 0x31, 0x32, 0x40, 0x41, 0x50, 0x51, 0x52] : List CommandWord))) = true := by decide

theorem witness_FaultStateIgnoresCommands :
    (faulted []).fault = true ∧
    [0x00, 0x02, 0x52, 0x131].all (fun v =>
      decide (((BitVec.ofNat 64 v).setWidth 32 : CommandWord) ≠ 0x00000001)) = true ∧
    ∀ o ∈ [0x00, 0xF8], o % 8 = 0 ∧ o < 0x100 := by decide

theorem witness_OnlyResetLeavesTheFaultState :
    (faulted [.hardReset]).fault = true ∧
    (∃ t, step (faulted [.hardReset]) = .next t ∧ t.fault = false) ∧
    (∃ t, step (faulted [.writeReg 0x00 0x01]) = .next t ∧ t.fault = false) ∧
    ((0xFFFFFFFF00000001 : Word).setWidth 32 : CommandWord) = 0x00000001 :=
  ⟨rfl, next_of (by decide), next_of (by decide), by decide⟩

theorem witness_RegisterAccessRules :
    (∀ o ∈ [0x04, 0x0C, 0x100, 0x108], o % 8 ≠ 0 ∨ 0x100 ≤ o) ∧
    (∀ o ∈ [0x00, 0x08, 0xF8], o % 8 = 0 ∧ o < 0x100) ∧
    ∀ o ∈ [0x08, 0x18, 0x40, 0xA8, 0xB0, 0xF8], o % 8 = 0 ∧ o < 0x100 ∧
      o ∉ [0x00, 0x20, 0x28, 0x30, 0x38] := by decide

theorem witness_RegisterMapContents : ∀ o ∈ [0xB0, 0xF8], 0xB0 ≤ o ∧ o ≤ 0xF8 := by decide

theorem witness_HostReadsBackWhatItWrote :
    (0xFFFFFFFFFFFFFFFE : Word).toNat + 2 ≤ 2 ^ 64 ∧ (0xFFFFFFFFFFFFFFFF : Word).toNat + 0 ≤ 2 ^ 64 ∧
    2 ^ 64 < (0xFFFFFFFFFFFFFFFF : Word).toNat + 2 ∧ ¬ inRange 0x0FFF 0x1000 2 ∧ ¬ inRange 0x1002 0x1000 2 := by decide

theorem witness_CommandLineRunsItsCommand :
    ([1, 2, 3, 4] : List Word).length = Instr.vmadd.arity ∧ ([] : List Word).length = Instr.pop.arity := by
  decide

theorem witness_ConfigChecksThenConfigures :
    (faulted []).fault = true ∧ (fresh []).fault = false ∧ (fresh []).ready = false ∧
    (unit .binary 1 4).fault = false ∧ (unit .binary 1 4).ready = true ∧
    3 < (ops (fresh []) 4 4 0 0).a0.toNat ∧
    ((ops (fresh []) 3 0 0 0).a0.toNat ≤ 3 ∧ (ops (fresh []) 3 0 0 0).a1 = 0) ∧
    ((ops (fresh []) 0 0x100000000 0 0).a0.toNat ≤ 3 ∧
      2 ^ 32 - 1 < (ops (fresh []) 0 0x100000000 0 0).a1.toNat) ∧
    ((3 : Word) ≠ 0 ∧ (0xFFFFFFFF : Word) ≠ 0 ∧ (0xFFFFFFFF : Word).toNat ≤ 2 ^ 32 - 1 ∧
      (0xFFFFFFFF : Word).toNat % 2 = 1) ∧
    ((2 : Word).toNat ≤ 3 ∧ ((2 : Word) = 3 → (0xFFFFFFFF : Word).toNat % 2 = 0)) ∧
    ((3 : Word).toNat ≤ 3 ∧ (2 : Word) ≠ 0 ∧ ((3 : Word) = 3 → (2 : Word).toNat % 2 = 0)) := by decide

/-- `GFADD`, `GFMUL`, `SET_SEED`: the ready state, in each field. -/
theorem witness_Active : ∀ f ∈ [FieldId.binary, .binary4, .binary8, .binary16], (unit f 2 4).Active := by
  decide

theorem witness_GfinvWritesInverse :
    (unit .binary16 2 4).Active ∧
    (ops (unit .binary16 2 4) 0x10000 0 0 0).a0.toNat % 2 ^ width .binary16 = 0 ∧
    (ops (unit .binary16 2 4) 0xFFFF 0 0 0).a0.toNat % 2 ^ width .binary16 ≠ 0 ∧
    (ops (unit .binary 2 4) 1 0 0 0).a0.toNat % 2 ^ width .binary ≠ 0 := by decide

theorem witness_InverseIsTheOneElementWithProductOne :
    0 < (0x8E : Elem).toNat ∧ (0x8E : Elem).toNat < 2 ^ width .binary8 ∧
    (0x02 : Elem).toNat < 2 ^ width .binary8 ∧ gfMul .binary8 0x8E 0x02 = 1 ∧
    0 < (1 : Elem).toNat ∧ (1 : Elem).toNat < 2 ^ width .binary ∧ gfMul .binary 1 1 = 1 ∧
    (0xFFFF : Elem).toNat < 2 ^ width .binary16 ∧ gfMul .binary16 0xFFFF 0x0894 = 1 := by decide

theorem witness_ProductIsThePolynomialProductModP :
    (1 : Elem).toNat < 2 ∧
    (FieldId.binary16, 0x1100B) ∈ [(FieldId.binary4, 0x13), (.binary8, 0x11D), (.binary16, 0x1100B)] ∧
    (0xFFFF : Elem).toNat < 2 ^ width .binary16 ∧ (0xF : Elem).toNat < 2 ^ width .binary4 := by decide

theorem witness_ElementsObeyTheFieldLaws : (0xFF : Elem) ≠ 0 ∧
    (0xFF : Elem).toNat < 2 ^ width .binary8 ∧ (0 : Elem).toNat < 2 ^ width .binary8 ∧
    gfMul .binary8 0xFF 0 = 0 := by decide

theorem witness_PackedElementsFollowTheTable :
    15 < numElems .binary [0xF0, 0x0F].length ∧ 0 < numElems .binary [0xF0, 0x0F].length ∧
    (1 : Elem).toNat < 2 ^ width .binary ∧
    1 < numElems .binary16 [1, 2, 3, 4, 5].length ∧ (0xFFFF : Elem).toNat < 2 ^ width .binary16 ∧
    numElems .binary16 [1, 2, 3, 4, 5].length * width .binary16 / 8 ≤ 4 := by decide

theorem witness_PackedVectorsAreElementwise :
    [1, 2, 3, 4].length = [5, 6, 7, 8].length ∧ (0xFFFF : Elem).toNat < 2 ^ width .binary16 ∧
    (FieldId.binary16 = .binary16 → [1, 2, 3, 4].length % 2 = 0) ∧ 1 < numElems .binary16 4 := by decide

theorem witness_LinearCombinationIsTheFieldSum :
    (∀ t ∈ ([(2, [1, 2]), (3, [4, 5])] : List (Elem × List Byte)), t.2.length = 2) ∧
    (FieldId.binary16 = .binary16 → 2 % 2 = 0) ∧ 0 < numElems .binary16 2 ∧
    ([(2, [1, 2]), (3, [4, 5])] : List (Elem × List Byte)).Perm [(3, [4, 5]), (2, [1, 2])] :=
  ⟨by decide, by decide, by decide, List.Perm.swap _ _ _⟩

theorem witness_VmaddChecksThenAdds :
    (unit .binary16 2 4).Active ∧
    (ops (unit .binary16 2 4) 0x2000 0x3000 1 3).a3.toNat % 2 = 1 ∧
    (∀ n ∈ [0, 2], (unit .binary16 2 4).rangeOK 0x10FE n = true ∧
      (FieldId.binary16 = .binary16 → n % 2 = 0)) ∧
    (unit .binary16 2 4).rangeOK 0x10FF 2 = false ∧
    (unit .binary8 2 4).rangeOK 0x1000 3 = true ∧ (unit .binary8 2 4).rangeOK 0x1001 3 = true ∧
    (FieldId.binary8 = .binary16 → 3 % 2 = 0) ∧
    overlap 0x1000 3 0x1001 3 = true ∧ overlap 0x1000 3 0x1003 3 = false := by decide

theorem witness_GeneratedBytesComeFromTheWords :
    0 < (1 * width .binary + 7) / 8 ∧ 8 < (17 * width .binary4 + 7) / 8 := by decide

theorem witness_GenerateChecksThenWritesTheVector :
    let s := { slotsAt (unit .binary8 4 2) [0x1000] 0 1 with a0 := 0x1004 }
    s.Active ∧ s.windowOK = true ∧ s.rangeOK 0x1004 1 = true ∧ s.overlapsLive 0x1004 1 = false ∧
    s.overlapsLive 0x1003 1 = true ∧ s.rangeOK 0x1003 1 = true ∧ s.rangeOK 0x1100 1 = false ∧
    (s.wsyms.toNat * width s.field + 7) / 8 = 1 ∧
    ({ s with lower := 1 } : State).windowOK = false ∧ ({ s with wsyms := 2 } : State).windowOK = false := by
  decide

theorem witness_EqualSeedsGenerateEqualBytes :
    let s := { slotsAt (unit .binary4 4 2) [0x1000] 0 1 with a0 := 0x1004, seed := 7 }
    let s' := { slotsAt (unit .binary4 9 3) [0x1020, 0x1040] 1 1 with a0 := 0x10FF, seed := 7 }
    s.Active ∧ s'.Active ∧ s.field = s'.field ∧ s.wsyms = s'.wsyms ∧ s.seed = s'.seed ∧
    answers (exec .generate s) (fun t => decide (t.fault = false)) = true ∧
    answers (exec .generate s') (fun t => decide (t.fault = false)) = true := by decide

theorem witness_PushChecksThenAppendsAMissingSlot :
    let s := slotsAt (unit .binary8 4 2) [0x1000] 0 0
    let full := slotsAt (unit .binary8 4 1) [0x1000] 0 0
    let last := { unit .binary8 4 2 with lower := 0xFFFFFFFFFFFFFFFE, upper := 0xFFFFFFFFFFFFFFFF }
    let before := { unit .binary8 4 2 with lower := 0xFFFFFFFFFFFFFFFE, upper := 0xFFFFFFFFFFFFFFFE }
    s.Active ∧ full.upper.toNat - full.lower.toNat = full.cap ∧
    (last.upper.toNat - last.lower.toNat ≠ last.cap ∧ last.upper.toNat = 2 ^ 64 - 1) ∧
    (s.upper.toNat - s.lower.toNat ≠ s.cap ∧ s.upper.toNat ≠ 2 ^ 64 - 1 ∧ s.rangeOK 0x10FD 4 = false ∧
      s.rangeOK 0x1003 4 = true ∧ s.overlapsLive 0x1003 4 = true ∧
      s.rangeOK 0x1004 4 = true ∧ s.overlapsLive 0x1004 4 = false) ∧
    (before.upper.toNat - before.lower.toNat ≠ before.cap ∧ before.upper.toNat ≠ 2 ^ 64 - 1 ∧
      before.rangeOK 0x10FC 4 = true ∧ before.overlapsLive 0x10FC 4 = false) := by decide

theorem witness_SetWindowChecksThenSets :
    let s := slotsAt (unit .binary8 4 2) [0x1000, 0x1004] 0 0
    s.Active ∧ s.lower.toNat = 0 ∧ s.upper.toNat = 2 ∧
    (∀ ab ∈ [(3, 0), (1, 2), (2 ^ 64 - 1, 2)], ¬ (0 ≤ ab.1 ∧ ab.1 + ab.2 ≤ 2)) ∧
    ∀ ab ∈ [(0, 0), (0, 2), (2, 0)], 0 ≤ ab.1 ∧ ab.1 + ab.2 ≤ 2 := by decide

/-- `WRITE_SYMBOL` and `READ_SYMBOL` have the same clauses, `WRITE_SYMBOL` without the second overlap. -/
theorem witness_SymbolCommandChecks :
    let s := slotsAt (unit .binary8 4 2) [0x1000] 0 1
    s.Active ∧ s.windowOK = true ∧ ({ s with wsyms := 2 } : State).windowOK = false ∧
    (s.wsyms.toNat * width s.field + 7) / 8 = 1 ∧ s.symsize.toNat = 4 ∧
    s.rangeOK 0x10FD 4 = false ∧ s.rangeOK 0x10FC 4 = true ∧ s.rangeOK 0x1100 1 = false ∧
    s.rangeOK 0x10FF 1 = true ∧ s.rangeOK 0x1003 4 = true ∧ s.overlapsLive 0x1003 4 = true ∧
    s.overlapsLive 0x1004 4 = false ∧ s.overlapsLive 0x1003 1 = true ∧ s.overlapsLive 0x1008 1 = false ∧
    overlap 0x1004 4 0x1007 1 = true ∧ overlap 0x1004 4 0x1008 1 = false := by decide

/-- `WRITE_SOURCE_SYMBOL`, `QSTATE` and the checks of `READ_SOURCE_SYMBOL`: live indices at both ends. -/
theorem witness_IndexCommandChecks :
    let s := { slotsAt (unit .binary8 4 4) [0, 0x1000, 0x1010] 0 0 with lower := 1 }
    s.Active ∧ (∀ i ∈ [0, 3], ¬ (s.lower.toNat ≤ i ∧ i < s.upper.toNat)) ∧
    (∀ i ∈ [1, 2], s.lower.toNat ≤ i ∧ i < s.upper.toNat ∧ s.isLive i = true) ∧
    s.rangeOK 0x10FD 4 = false ∧ s.rangeOK 0x1013 4 = true ∧ s.overlapsLive 0x1013 4 = true ∧
    s.rangeOK 0x1014 4 = true ∧ s.overlapsLive 0x1014 4 = false := by decide

theorem witness_EncoderCommandsAreReadOnly :
    let s := slotsAt (unit .binary8 4 2) [0x1000] 0 1
    s.Active ∧ s.isLive 0 = true ∧
    answers (exec .writeSymbol (ops s 0x1010 0x1020 0 0)) (fun t => decide (t.fault = false)) = true ∧
    answers (exec .writeSourceSymbol (ops s 0x1010 0 0 0)) (fun t => decide (t.fault = false)) = true := by
  decide

/-! ### A decoder with one stored row -/

/-- binary8, two bytes per symbol, two live slots: row 0 is `(1, 5)`, slot 1 is missing, the window is the
stream. At `0x1020` and `0x1030` stand the symbol and the vector of D5's step b, at `0x1040` and `0x1050` row 0
itself, at `0x1060` the source symbol of index 1. The rows are those of the source symbols `01 02` and `10 20`. -/
def sample (a0 a1 : Word) (program : List HostAction) : State :=
  { unit .binary8 2 4 with
    a0 := a0, a1 := a1, a2 := 1, a3 := 2, program := program, upper := 2, wsyms := 2
    slots := [(0, ⟨0x1000, true, false⟩), (1, ⟨0x1010, false, false⟩)]
    coef := [((0, 0), 1), ((0, 1), 5)]
    mem := ⟨[(0x1000, 0x51), (0x1001, 0xA2), (0x1020, 0x13), (0x1021, 0x26), (0x1030, 0x03), (0x1031, 0x01),
      (0x1040, 0x51), (0x1041, 0xA2), (0x1050, 0x01), (0x1051, 0x05), (0x1060, 0x10), (0x1061, 0x20)], []⟩ }

/-- The source symbols behind `sample`. -/
def sampleSource (j : Nat) : List Byte := if j = 0 then [0x01, 0x02] else if j = 1 then [0x10, 0x20] else [0, 0]

variable (a0 a1 : Word) (program : List HostAction)

theorem sample_live {i : Nat} (h : (sample a0 a1 program).isLive i = true) : i = 0 ∨ i = 1 := by
  rw [State.isLive_iff] at h
  have h2 : i < 2 := h.2
  omega

theorem sample_bounds : (sample a0 a1 program).BoundsOk where
  cap_pos := by simp [sample, unit]
  cap_le := by simp [sample, unit, Config.capMax]
  lower_le := by simp [sample, unit, State.reset]
  fits := by simp [sample, unit, State.reset]

theorem sample_buffers : (sample a0 a1 program).BuffersOk where
  mapped i h := by
    rcases sample_live a0 a1 program h with rfl | rfl <;>
      simp [sample, unit, State.reset, State.slot, State.slotAt, State.phys, tableGet, tableFind, State.rangeOK,
        uncovered, Region.cut, State.symBytes, Config.addressSpace]
  disjoint i j hi hj hne := by
    rcases sample_live a0 a1 program hi with rfl | rfl <;> rcases sample_live a0 a1 program hj with rfl | rfl <;>
      simp_all [sample, unit, State.reset, State.slot, State.slotAt, State.phys, tableGet, tableFind, overlap,
        State.symBytes]

theorem sample_coef (p q : Nat) : (sample a0 a1 program).coefAt p q =
    if p = 0 ∧ q = 0 then 1 else if p = 0 ∧ q = 1 then 5 else 0 := by
  simp only [sample, State.coefAt, tableGet, tableFind, Prod.mk.injEq]
  split <;> [rfl; (split <;> rfl)]

theorem sample_rows : (sample a0 a1 program).RowsOk where
  dead_clear p h := by
    have h0 : p ≠ 0 := fun hp => h 0 rfl (by subst hp; rfl)
    have h1 : p ≠ 1 := fun hp => h 1 rfl (by subst hp; rfl)
    refine ⟨?_, fun q => ⟨?_, ?_⟩⟩
    · simp [sample, State.slotAt, tableGet, tableFind, h0, h1]
    · simp [sample_coef, h0]
    · simp [sample_coef, h0, h1]
  missing_zero i hi hp := by
    rcases sample_live a0 a1 program hi with rfl | rfl
    · exact absurd hp (by simp [sample, unit, State.slot, State.slotAt, State.phys, tableGet, tableFind])
    · refine ⟨rfl, fun j hj => ?_⟩
      rcases sample_live a0 a1 program hj with rfl | rfl <;> rfl
  pivot_one i hi hp := by
    rcases sample_live a0 a1 program hi with rfl | rfl
    · rfl
    · exact absurd hp (by simp [sample, unit, State.slot, State.slotAt, State.phys, tableGet, tableFind])
  reduced i r hi hr hne hpi hpr := by
    rcases sample_live a0 a1 program hi with rfl | rfl <;> rcases sample_live a0 a1 program hr with rfl | rfl
    · exact absurd rfl hne
    · exact absurd hpr (by simp [sample, unit, State.slot, State.slotAt, State.phys, tableGet, tableFind])
    · exact absurd hpi (by simp [sample, unit, State.slot, State.slotAt, State.phys, tableGet, tableFind])
    · exact absurd rfl hne
  in_field p q := by
    rw [sample_coef]
    change _ < 256
    split
    · decide
    · split <;> decide
  zero_below i j hi hp hj hlt := by
    rcases sample_live a0 a1 program hi with rfl | rfl
    · omega
    · exact absurd hp (by simp [sample, unit, State.slot, State.slotAt, State.phys, tableGet, tableFind])
  unfrozen i hi := by rcases sample_live a0 a1 program hi with rfl | rfl <;> rfl

theorem sample_inv : (sample a0 a1 program).Inv where
  bounds := sample_bounds a0 a1 program
  config := by
    refine ⟨fun h => ?_, fun _ => ?_, fun _ h => ?_⟩
    · exact absurd h (by simp [sample, unit])
    · simp [sample, unit, State.symBytes]
    · exact absurd h (by simp [sample, unit])
  faults := ⟨fun _ => ⟨rfl, rfl, rfl⟩, fun h => absurd h (by simp [sample, unit, State.reset])⟩
  memory := by
    refine ⟨?_, ?_, ?_, ?_, ?_, ?_, ?_⟩
    · change (sample 0 0 []).mem.wf = true; decide
    · change tableWf natLt Slot.empty (sample 0 0 []).slots = true; decide
    · change tableWf pairLt 0 (sample 0 0 []).coef = true; decide
    · change ∀ e ∈ (sample 0 0 []).mem.cells, e.1 < Config.addressSpace; decide
    · intro e he; cases he
    · intro e he; cases he
    · intro e he; cases he
  buffers := sample_buffers a0 a1 program
  rows := sample_rows a0 a1 program

/-- The hypotheses of the statements about a completed `READ_SYMBOL`: a fruitful row, whose lowest nonzero
reduced column is 1, and a redundant row. -/
theorem witness_ReadSymbol :
    ((sample 0x1020 0x1030 []).Inv ∧ (sample 0x1020 0x1030 []).Active ∧
      ∃ t, exec .readSymbol (sample 0x1020 0x1030 []) = .next t ∧
        (t.fault = false ∧ t.adv = true ∧ t.res = 1 ∧ t.rowState 0 = .decoded ∧ t.rowState 1 = .decoded)) ∧
    ((sample 0x1040 0x1050 []).Inv ∧ (sample 0x1040 0x1050 []).Active ∧
      ∃ t, exec .readSymbol (sample 0x1040 0x1050 []) = .next t ∧ (t.fault = false ∧ t.adv = false)) ∧
    ((sample 0x1020 0x1030 []).isLive 1 = true ∧ (sample 0x1020 0x1030 []).reducedCoef [3, 1] 1 ≠ 0 ∧
      ∀ j, (sample 0x1020 0x1030 []).isLive j = true → j < 1 →
        (sample 0x1020 0x1030 []).reducedCoef [3, 1] j = 0) ∧
    (∀ j, (sample 0x1040 0x1050 []).isLive j = true → (sample 0x1040 0x1050 []).reducedCoef [1, 5] j = 0) ∧
    (sample 0x1020 0x1030 []).memRead 0x1030 (sample 0x1020 0x1030 []).vectorBytes = [3, 1] ∧
    (sample 0x1040 0x1050 []).memRead 0x1050 (sample 0x1040 0x1050 []).vectorBytes = [1, 5] := by
  refine ⟨⟨sample_inv _ _ _, by decide, next_of (by decide)⟩, ⟨sample_inv _ _ _, by decide, next_of (by decide)⟩,
    ⟨by decide, by decide, fun j hj hlt => ?_⟩, fun j hj => ?_, by decide, by decide⟩
  · rcases sample_live _ _ _ hj with rfl | rfl
    · decide
    · omega
  · rcases sample_live _ _ _ hj with rfl | rfl <;> decide

theorem sample_consistent : (sample a0 a1 program).Consistent sampleSource := by
  intro i hi hp
  rcases sample_live _ _ _ hi with rfl | rfl
  · change (sample 0 0 []).payload 0 = linComb (sample 0 0 []).field (sample 0 0 []).symBytes
      ((sample 0 0 []).live.map fun j => ((sample 0 0 []).coefOf 0 j, sampleSource j))
    decide
  · exact absurd hp (by simp [sample, unit, State.slot, State.slotAt, State.phys, tableGet, tableFind])

theorem witness_DecodedPayloadIsTheSourceSymbol :
    (∀ a b, (sample a b []).Inv ∧ (sample a b []).Consistent sampleSource ∧
      ∀ j, (sampleSource j).length = (sample a b []).symBytes) ∧
    ((sample 0x1020 0x1030 []).ConsistentInput sampleSource ∧
      ∃ t, exec .readSymbol (sample 0x1020 0x1030 []) = .next t ∧
        (t.fault = false ∧ t.isLive 0 = true ∧ t.rowState 0 = .decoded)) ∧
    ((sample 0x1060 1 []).memRead 0x1060 2 = sampleSource 1 ∧
      ∃ t, exec .readSourceSymbol (sample 0x1060 1 []) = .next t ∧
        (t.fault = false ∧ t.isLive 1 = true ∧ t.rowState 1 = .decoded)) ∧
    ((sample 0x1012 0x1020 []).overlapsLive 0x1012 2 = false ∧
      ∃ t, exec .vmadd (sample 0x1012 0x1020 []) = .next t ∧ (t.fault = false ∧ t.mem.readByte 0x1012 = 0x13)) ∧
    (∃ t, exec .push (sample 0x10FE 0 []) = .next t ∧ (t.fault = false ∧ t.isLive 2 = true)) ∧
    ∃ t, exec .pop (sample 0 0 []) = .next t ∧ (t.fault = false ∧ t.isLive 1 = true) := by
  refine ⟨fun a b => ⟨sample_inv _ _ _, sample_consistent _ _ _, fun j => ?_⟩,
    ⟨?_, next_of (by decide)⟩, ⟨by decide, next_of (by decide)⟩, ⟨by decide, next_of (by decide)⟩,
    next_of (by decide), next_of (by decide)⟩
  · unfold sampleSource
    split <;> [rfl; (split <;> rfl)]
  · unfold State.ConsistentInput; decide

theorem witness_WindowAndOverlapTestsAreTheWrittenConditions :
    (slotsAt (unit .binary8 4 2) [0x1000] 1 0).windowOK = true ∧
    (slotsAt (unit .binary8 4 2) [0x1000] 1 1).windowOK = false ∧
    overlap 0x1000 4 0x1003 1 = true ∧ overlap 0x1000 4 0x1004 1 = false ∧
    overlap 0x1000 4 0x1003 0 = false ∧
    (slotsAt (unit .binary8 4 2) [0x1000] 0 0).overlapsLive 0x1003 1 = true ∧
    (slotsAt (unit .binary8 4 2) [0x1000] 0 0).overlapsLive 0x1004 1 = false := by decide

theorem witness_ReadSourceSymbol : ∀ i ∈ ([0, 1] : List Word),
    (sample 0x1020 i []).Inv ∧ (sample 0x1020 i []).Active ∧
    (sample 0x1020 i []).rangeOK 0x1020 2 = true ∧ (sample 0x1020 i []).overlapsLive 0x1020 2 = false ∧
    (sample 0x1020 i []).lower.toNat ≤ i.toNat ∧ i.toNat < (sample 0x1020 i []).upper.toNat ∧
    ∃ t, exec .readSourceSymbol (sample 0x1020 i []) = .next t ∧ t.fault = false := by
  intro i hi
  refine ⟨sample_inv _ _ _, ?_⟩
  simp only [List.mem_cons, List.not_mem_nil, or_false] at hi
  rcases hi with rfl | rfl
  · exact ⟨by decide, by decide, by decide, by decide, by decide, next_of (by decide)⟩
  · exact ⟨by decide, by decide, by decide, by decide, by decide, next_of (by decide)⟩

theorem witness_PopDropsTheLowestSlot :
    (slotsAt (unit .binary8 4 2) [] 0 0).Active ∧
    (slotsAt (unit .binary8 4 2) [] 0 0).upper = (slotsAt (unit .binary8 4 2) [] 0 0).lower ∧
    (sample 0 0 []).Active ∧ (sample 0 0 []).BoundsOk ∧ (sample 0 0 []).upper ≠ (sample 0 0 []).lower ∧
    (sample 0 0 []).isLive 1 = true ∧ ∀ r, (sample 0 0 []).isLive r = true → (sample 0 0 []).phys r ≠ 2 := by
  refine ⟨by decide, by decide, by decide, sample_bounds _ _ _, by decide, by decide, fun r hr => ?_⟩
  rcases sample_live _ _ _ hr with rfl | rfl <;> decide

theorem witness_SlotStateFollowsTheRow :
    (sample 0 0 []).isLive 0 = true ∧ (sample 0 0 []).rowState 0 = .partiallyDecoded ∧
    (sample 0 0 []).isLive 1 = true ∧ (sample 0 0 []).rowState 1 = .missing := by decide

theorem witness_CountersAddUp : (fresh []).ConfigOk ∧ (fresh []).ready = false :=
  ⟨⟨fun _ => by decide, fun h => absurd h (by decide), fun h => absurd h (by decide)⟩, by decide⟩

/-- Two stored rows, the first with a coefficient at the second's column, as they stand before R124's loop. -/
def paired : State :=
  { sample 0 0 [] with
    slots := [(0, ⟨0x1000, true, false⟩), (1, ⟨0x1010, true, false⟩)]
    coef := [((0, 0), 1), ((0, 1), 5), ((1, 1), 1)] }

theorem witness_BackSubstituteAddsTheNewRow :
    paired.BoundsOk ∧ paired.BuffersOk ∧ paired.isLive 1 = true ∧ (paired.slot 1).piv = true ∧
    (paired.isLive 0 = true ∧ (paired.slot 0).piv = true ∧ paired.coefOf 0 1 ≠ 0) := by
  have hl : ∀ i, paired.isLive i = true → i = 0 ∨ i = 1 := fun i h => sample_live 0 0 [] h
  refine ⟨?_, ⟨fun i h => ?_, fun i j hi hj hne => ?_⟩, by decide, by decide, by decide⟩
  · obtain ⟨h1, h2, h3, h4⟩ := sample_bounds 0 0 []
    exact ⟨h1, h2, h3, h4⟩
  · rcases hl i h with rfl | rfl <;> decide
  · rcases hl i hi with rfl | rfl <;> rcases hl j hj with rfl | rfl <;> first | exact absurd rfl hne | decide

/-- The two read commands as `SlotStatesOnlyAdvance` and `RankGrowsExactlyWithAdv` take them. -/
theorem witness_ReadCommands :
    (sample 0x1020 0x1030 []).Inv ∧ (sample 0x1020 0x1030 []).Active ∧
    (∃ t, exec .readSymbol (sample 0x1020 0x1030 []) = .next t ∧ (t.fault = false ∧ t.rank = 2)) ∧
    (sample 0x1020 1 []).Inv ∧ (sample 0x1020 1 []).Active ∧
    (∃ t, exec .readSourceSymbol (sample 0x1020 1 []) = .next t ∧ (t.fault = false ∧ t.rank = 2)) ∧
    (sample 0x1020 1 []).isLive 0 = true ∧ (sample 0x1020 1 []).isLive 1 = true :=
  ⟨sample_inv _ _ _, by decide, next_of (by decide), sample_inv _ _ _, by decide, next_of (by decide),
    by decide, by decide⟩

theorem witness_ResetHasEveryInvariant : 1 ≤ 1 ∧ 1 ≤ 65535 ∧ 65535 ≤ 65535 := by decide

/-- One state and step for every statement of the form "every step keeps". -/
theorem witness_StepKeeps :
    (sample 0x1020 0x1030 [.writeReg 0x00 0x50]).Inv ∧
    (sample 0x1020 0x1030 [.writeReg 0x00 0x50]).BoundsOk ∧
    (sample 0x1020 0x1030 [.writeReg 0x00 0x50]).ConfigOk ∧
    (sample 0x1020 0x1030 [.writeReg 0x00 0x50]).FaultOk ∧
    (sample 0x1020 0x1030 [.writeReg 0x00 0x50]).MemoryOk ∧
    ∃ t, step (sample 0x1020 0x1030 [.writeReg 0x00 0x50]) = .next t ∧ (t.adv = true ∧ t.program = []) :=
  ⟨sample_inv _ _ _, (sample_inv _ _ _).bounds, (sample_inv _ _ _).config, (sample_inv _ _ _).faults,
    (sample_inv _ _ _).memory, next_of (by decide)⟩

theorem witness_CommandsKeepTheEliminationInvariants :
    (sample 0x1020 0x1030 []).Inv ∧
    (∃ t, exec .readSymbol (sample 0x1020 0x1030 []) = .next t ∧ t.adv = true) ∧
    (∃ t, exec .pop (sample 0x1020 0x1030 []) = .next t ∧ t.lower = 1) :=
  ⟨sample_inv _ _ _, next_of (by decide), next_of (by decide)⟩

theorem witness_FaultsArePrecise :
    (sample 0x1001 0 []).fault = false ∧
    (∃ t, exec .qstate (sample 0x1001 0 []) = .next t ∧ t.fault = true) ∧
    ∃ t, exec .config (sample 0 0 []) = .next t ∧ t.fault = true :=
  ⟨by decide, next_of (by decide), next_of (by decide)⟩

/-- `StreamBoundsOnlyGrow`, and `PUSH` and `POP` as `SlotStatesOnlyAdvance` takes them. -/
theorem witness_StreamBoundsOnlyGrow :
    (sample 0x10FE 0 []).BoundsOk ∧ (sample 0x10FE 0 []).Inv ∧ (sample 0x10FE 0 []).Active ∧
    (∃ t, exec .push (sample 0x10FE 0 []) = .next t ∧ (t.fault = false ∧ t.upper = 3)) ∧
    (∃ t, exec .pop (sample 0x10FE 0 []) = .next t ∧ (t.fault = false ∧ t.lower = 1)) :=
  ⟨sample_bounds _ _ _, sample_inv _ _ _, by decide, next_of (by decide), next_of (by decide)⟩

theorem witness_OnlyTheNamedCommandsWrite :
    (∃ t, exec .gfadd (sample 3 1 []) = .next t ∧ t.res = 2) ∧
    (∃ t, exec .readSymbol (sample 0x1020 0x1030 []) = .next t ∧ t.freeNext = 4) :=
  ⟨next_of (by decide), next_of (by decide)⟩

end Sys2Proof.Tests
end

section
/-! A step that finds a `CMD` write at the front of the host's list runs the command its word decodes to
(R18, R52). First what each layer does, from the host's list down to the decoder, then the two ways a word
gets there: written by the host, or put there by `withFetchWord`. -/

namespace Sys2Proof

/-- Each command's word has `rsv = 0` and its own row of the opcode map (R50, R51). -/
theorem decode_encode (i : Instr) : decode (encode i) = .ok i := by
  cases i <;> rfl

namespace Machine

theorem step_of_program_nil {s : State} (h : s.program = []) : step s = .next s := by
  unfold step stepHost
  rw [h]

theorem step_of_program_cons {s : State} {a : HostAction} {rest : List HostAction}
    (h : s.program = a :: rest) : step s = hostAct { s with program := rest } a := by
  unfold step stepHost
  rw [h]

/-- The offset 0x00 is valid and is that of `CMD` (R19). -/
@[simp] theorem hostAct_writeReg_cmd (s : State) (v : Word) :
    hostAct s (.writeReg 0x00 v) = issue (v.setWidth 32) s := rfl

theorem issue_of_decode {cw : CommandWord} {i : Instr} (h : decode cw = .ok i) (s : State) :
    issue cw s = exec i s := by
  unfold issue
  rw [h]

theorem step_of_cmd_write {s : State} {v : Word} {rest : List HostAction} {i : Instr}
    (hprog : s.program = .writeReg 0x00 v :: rest) (hdec : decode (v.setWidth 32) = .ok i) :
    step s = exec i { s with program := rest } := by
  rw [step_of_program_cons hprog, hostAct_writeReg_cmd, issue_of_decode hdec]

/-- A command word fits in 32 bits, so the host writes it zero-extended. -/
theorem cmdWrite_toNat (cw : CommandWord) :
    cmdWrite 32 cw.toNat = .writeReg 0x00 (cw.setWidth 64) := by
  have hfits : cw.toNat % 2 ^ 32 = cw.toNat := Nat.mod_eq_of_lt cw.isLt
  rw [cmdWrite, hfits, BitVec.ofNat_toNat, Reg.offset]

theorem withFetchWord_program (s : State) (cw : CommandWord) :
    (s.withFetchWord 32 cw.toNat).program = .writeReg 0x00 (cw.setWidth 64) :: s.program := by
  rw [State.withFetchWord, cmdWrite_toNat]

theorem setWidth_setWidth_command (cw : CommandWord) : (cw.setWidth 64).setWidth 32 = cw := by
  rw [BitVec.setWidth_setWidth_of_le cw (by decide), BitVec.setWidth_eq]

/-- The step takes the word off the list again, so the command runs on the state as it was. -/
theorem step_withFetchWord_of_decode {cw : CommandWord} {i : Instr} (h : decode cw = .ok i) (s : State) :
    step (s.withFetchWord 32 cw.toNat) = exec i s := by
  have hdec : decode ((cw.setWidth 64).setWidth 32) = .ok i := by rwa [setWidth_setWidth_command]
  exact step_of_cmd_write (withFetchWord_program s cw) hdec

/-- Settles O4: both ways to issue a command come down to `step_of_cmd_write`. -/
theorem stepRunsTheDecodedCommand : Obligations.StepRunsTheDecodedCommand :=
  ⟨fun _ _ _ _ hprog hdec => step_of_cmd_write hprog hdec,
    fun s i => step_withFetchWord_of_decode (decode_encode i) s,
    fun _ hnil => step_of_program_nil hnil⟩

end Machine

end Sys2Proof
end

section
/-! What any command, and any step, can do, said once for all seventeen commands: it is ignored, it enters the
fault state, or it completes with one of the effects of `Completes` (R52, R143). A property of states that every
effect keeps is then kept by every step (`step_keeps`). -/

namespace Sys2Proof.Machine

/-- A completed `READ_SYMBOL` (R123, U4). -/
def State.afterRead (s : State) : State :=
  ((s.absorb (s.memRead s.a1 s.vectorBytes) (s.memRead s.a0 s.symBytes)).memForget s.a0
    s.symBytes).memForget s.a1 s.vectorBytes

/-- The effects a command can complete with, each with the checks that stand before it. -/
inductive Completes (s : State) : Instr → State → Prop
  | reset : Completes s .reset s.toReset
  | config (f : FieldId) (hready : s.ready = false) (hpos : s.a1 ≠ 0) (hmax : s.a1.toNat ≤ Config.symMax)
      (heven : f = .binary16 → s.a1.toNat % 2 = 0) :
      Completes s .config { s with field := f, symsize := s.a1.setWidth 32, ready := true }
  | result {i : Instr} (hi : i ∈ [Instr.gfadd, .gfmul, .gfinv, .qstate]) (hready : s.ready = true) (r : Word) :
      Completes s i { s with res := r }
  | seed (hready : s.ready = true) : Completes s .setSeed { s with seed := s.a0 }
  | window (hready : s.ready = true) : Completes s .setWindow { s with wlower := s.a0, wsyms := s.a1 }
  | store {i : Instr} (hi : i ∈ [Instr.vmadd, .generate, .writeSymbol, .writeSourceSymbol])
      (hready : s.ready = true) (bs : List Byte) (hrange : s.rangeOK s.a0 bs.length = true)
      (hvmadd : i = .vmadd → bs.length = s.a3.toNat)
      (hfree : i ≠ .vmadd → s.overlapsLive s.a0 bs.length = false) : Completes s i (s.memWrite s.a0 bs)
  | push (hready : s.ready = true) (hroom : s.nsyms ≠ s.cap) (hlast : s.upper.toNat ≠ 2 ^ 64 - 1)
      (hrange : s.rangeOK s.a0 s.symBytes = true) (hfree : s.overlapsLive s.a0 s.symBytes = false) :
      Completes s .push (s.appendSlot s.a0)
  | pop (hready : s.ready = true) (hne : s.upper ≠ s.lower) : Completes s .pop s.dropLowest
  | readSymbol (hready : s.ready = true) (hwindow : s.windowOK = true)
      (hsym : s.rangeOK s.a0 s.symBytes = true) (hvec : s.rangeOK s.a1 s.vectorBytes = true)
      (hsymFree : s.overlapsLive s.a0 s.symBytes = false)
      (hvecFree : s.overlapsLive s.a1 s.vectorBytes = false) :
      Completes s .readSymbol s.afterRead
  | readSourceSymbol (hready : s.ready = true) (hlive : s.isLive s.a1.toNat = true)
      (hsym : s.rangeOK s.a0 s.symBytes = true) (hfree : s.overlapsLive s.a0 s.symBytes = false) :
      Completes s .readSourceSymbol (s.absorbSource s.a1.toNat (s.memRead s.a0 s.symBytes))

/-- What a command makes of the state: nothing, a fault entry, or one of its effects. -/
def Outcomes (s : State) (i : Instr) (t : State) : Prop :=
  t = s ∨ (∃ c info, c ≠ .none ∧ s.fault = false ∧ t = s.raise c i.opcode info) ∨ Completes s i t

section
variable {s t : State} {i : Instr}

theorem Completes.outcomes (h : Completes s i t) : Outcomes s i t := .inr (.inr h)

theorem Outcomes.of_raise {c : Cause} {op : BitVec 8} {info : Word} (hf : s.fault = false) (hc : c ≠ .none)
    (hop : op = i.opcode) (h : t = s.raise c op info) : Outcomes s i t :=
  .inr (.inl ⟨c, info, hc, hf, hop ▸ h⟩)

theorem Outcomes.of_fail {c : Cause} {info : Word} (hf : s.fault = false) (hc : c ≠ .none)
    (h : s.fail i c info = .next t) : Outcomes s i t :=
  .of_raise hf hc rfl (Host.Outcome.next.inj h).symm

/-- A guarded command has the outcomes of its body, besides those of the guard (R52, R93, R144). -/
theorem Outcomes.of_whenReady {body : State → Result} (h : s.whenReady i body = .next t)
    (hbody : s.fault = false → s.ready = true → body s = .next t → Outcomes s i t) : Outcomes s i t := by
  rcases State.whenReady_next.mp h with ⟨-, ht⟩ | ⟨hf, -, ht⟩ | ⟨hf, hr, hb⟩
  · exact .inl ht
  · exact .of_raise hf (by decide) rfl ht
  · exact hbody hf hr hb

end

/-! ### Lengths of what the encoder and the generator store -/

theorem length_payload (s : State) (i : Nat) : (s.payload i).length = s.symBytes :=
  Memory.length_readBytes _ _ _

theorem length_memRead (s : State) (a : Word) (n : Nat) : (s.memRead a n).length = n :=
  Memory.length_readBytes _ _ _

theorem length_foldl_vecMAdd (f : FieldId) {n : Nat} (terms : List (Elem × List Byte)) {acc : List Byte}
    (hacc : acc.length = n) (h : ∀ t ∈ terms, t.2.length = n) :
    (terms.foldl (fun acc t => vecMAdd f acc t.2 t.1) acc).length = n := by
  induction terms generalizing acc with
  | nil => exact hacc
  | cons t terms ih =>
    have ht : acc.length = t.2.length := by rw [hacc, h t (by simp)]
    exact ih ((length_vecMAdd f t.1 ht).trans hacc) fun u hu => h u (by simp [hu])

theorem length_linComb (f : FieldId) {n : Nat} {terms : List (Elem × List Byte)}
    (h : ∀ t ∈ terms, t.2.length = n) : (linComb f n terms).length = n :=
  length_foldl_vecMAdd f terms (by simp) h

theorem length_codedSymbol (s : State) (cv : List Byte) : (s.codedSymbol cv).length = s.symBytes := by
  refine length_linComb _ fun t ht => ?_
  obtain ⟨j, -, rfl⟩ := List.mem_map.mp ht
  exact length_payload s _

theorem length_genBytes (f : FieldId) (seed : Word) (ws : Nat) :
    (genBytes f seed ws).length = coefBytes f ws := by
  simp [genBytes]

/-! ### The outcomes of each command -/

section
variable {s t : State}

theorem execConfig_outcomes (h : execConfig s = .next t) : Outcomes s .config t := by
  rcases execConfig_next h with ⟨-, ht⟩ | ⟨hf, -, ht⟩ | ⟨hf, hr, ht | ht | ⟨f, -, hpos, hmax, heven, ht⟩⟩
  · exact .inl ht
  · exact .of_raise hf (by decide) rfl ht
  · exact .of_raise hf (by decide) rfl ht
  · exact .of_raise hf (by decide) rfl ht
  · exact .inr (.inr (ht ▸ .config f hr hpos hmax heven))

theorem execVmadd_outcomes (h : execVmadd s = .next t) : Outcomes s .vmadd t := by
  refine .of_whenReady h fun hf hr hb => ?_
  have hlen : (vecMAdd s.field (s.memRead s.a0 s.a3.toNat) (s.memRead s.a1 s.a3.toNat)
      (elemOperand s.field s.a2)).length = s.a3.toNat := by
    rw [length_vecMAdd _ _ (by simp [length_memRead]), length_memRead]
  simp only at hb
  split at hb
  · exact .of_fail hf (by decide) hb
  split at hb
  · exact .of_fail hf (by decide) hb
  next hrange =>
  split at hb
  · exact .of_fail hf (by decide) hb
  split at hb
  · cases hb
  · cases hb
    exact .inr (.inr (.store (by decide) hr _ (by simpa [hlen] using hrange) (fun _ => hlen) (absurd rfl)))

theorem execGenerate_outcomes (h : execGenerate s = .next t) : Outcomes s .generate t := by
  refine .of_whenReady h fun hf hr hb => ?_
  have hlen := length_genBytes s.field s.seed s.wsyms.toNat
  split at hb
  · exact .of_fail hf (by decide) hb
  split at hb
  · exact .of_fail hf (by decide) hb
  next hrange =>
  split at hb
  · cases hb
  next hfree =>
  cases hb
  refine .inr (.inr (.store (by decide) hr _ ?_ nofun fun _ => ?_))
  · rw [hlen]; exact Bool.not_eq_false _ ▸ hrange
  · rw [hlen]; exact Bool.not_eq_true _ ▸ hfree

theorem execWriteSymbol_outcomes (h : execWriteSymbol s = .next t) : Outcomes s .writeSymbol t := by
  refine .of_whenReady h fun hf hr hb => ?_
  have hlen := length_codedSymbol s (s.memRead s.a1 s.vectorBytes)
  split at hb
  · exact .of_fail hf (by decide) hb
  split at hb
  · exact .of_fail hf (by decide) hb
  next hrange =>
  split at hb
  · exact .of_fail hf (by decide) hb
  split at hb
  · cases hb
  next hfree =>
  cases hb
  refine .inr (.inr (.store (by decide) hr _ ?_ nofun fun _ => ?_))
  · rw [hlen]; exact Bool.not_eq_false _ ▸ hrange
  · rw [hlen]; exact Bool.not_eq_true _ ▸ (not_or.mp hfree).2

theorem execWriteSourceSymbol_outcomes (h : execWriteSourceSymbol s = .next t) :
    Outcomes s .writeSourceSymbol t := by
  refine .of_whenReady h fun hf hr hb => ?_
  have hlen := length_payload s s.a1.toNat
  split at hb
  · exact .of_fail hf (by decide) hb
  split at hb
  · exact .of_fail hf (by decide) hb
  next hrange =>
  split at hb
  · cases hb
  next hfree =>
  cases hb
  refine .inr (.inr (.store (by decide) hr _ ?_ nofun fun _ => ?_))
  · rw [hlen]; exact Bool.not_eq_false _ ▸ hrange
  · rw [hlen]; exact Bool.not_eq_true _ ▸ hfree

theorem execReadSymbol_outcomes (h : execReadSymbol s = .next t) : Outcomes s .readSymbol t := by
  rcases execReadSymbol_next h with
    ⟨-, ht⟩ | ⟨hf, -, ht⟩ | ⟨hf, hr, ht | ht | ht | ⟨hw, hsym, hvec, hsf, hvf, -, ht⟩⟩
  · exact .inl ht
  · exact .of_raise hf (by decide) rfl ht
  · exact .of_raise hf (by decide) rfl ht
  · exact .of_raise hf (by decide) rfl ht
  · exact .of_raise hf (by decide) rfl ht
  · exact .inr (.inr (ht ▸ .readSymbol hr hw hsym hvec hsf hvf))

theorem execReadSourceSymbol_outcomes (h : execReadSourceSymbol s = .next t) :
    Outcomes s .readSourceSymbol t := by
  rcases execReadSourceSymbol_next h with
    ⟨-, ht⟩ | ⟨hf, -, ht⟩ | ⟨hf, hr, ht | ht | ⟨hl, hsym, hfree, ht⟩⟩
  · exact .inl ht
  · exact .of_raise hf (by decide) rfl ht
  · exact .of_raise hf (by decide) rfl ht
  · exact .of_raise hf (by decide) rfl ht
  · exact .inr (.inr (ht ▸ .readSourceSymbol hr hl hsym hfree))

theorem execPush_outcomes (h : execPush s = .next t) : Outcomes s .push t := by
  rcases execPush_next h with
    ⟨-, ht⟩ | ⟨hf, -, ht⟩ | ⟨hf, hr, ht | ht | ht | ⟨hroom, hlast, hrange, hfree, ht⟩⟩
  · exact .inl ht
  · exact .of_raise hf (by decide) rfl ht
  · exact .of_raise hf (by decide) rfl ht
  · exact .of_raise hf (by decide) rfl ht
  · exact .of_raise hf (by decide) rfl ht
  · exact .inr (.inr (ht ▸ .push hr hroom hlast hrange hfree))

theorem execPop_outcomes (h : execPop s = .next t) : Outcomes s .pop t := by
  rcases execPop_next h with ⟨-, ht⟩ | ⟨hf, -, ht⟩ | ⟨hf, hr, ht | ⟨hne, ht⟩⟩
  · exact .inl ht
  · exact .of_raise hf (by decide) rfl ht
  · exact .of_raise hf (by decide) rfl ht
  · exact .inr (.inr (ht ▸ .pop hr hne))

theorem execSetWindow_outcomes (h : execSetWindow s = .next t) : Outcomes s .setWindow t := by
  rcases execSetWindow_next h with ⟨-, ht⟩ | ⟨hf, -, ht⟩ | ⟨hf, hr, ht | ⟨-, ht⟩⟩
  · exact .inl ht
  · exact .of_raise hf (by decide) rfl ht
  · exact .of_raise hf (by decide) rfl ht
  · exact .inr (.inr (ht ▸ .window hr))

theorem execGfadd_outcomes (h : execGfadd s = .next t) : Outcomes s .gfadd t :=
  .of_whenReady h fun _ hr hb => .inr (.inr (Host.Outcome.next.inj hb ▸ .result (by decide) hr _))

theorem execGfmul_outcomes (h : execGfmul s = .next t) : Outcomes s .gfmul t :=
  .of_whenReady h fun _ hr hb => .inr (.inr (Host.Outcome.next.inj hb ▸ .result (by decide) hr _))

theorem execGfinv_outcomes (h : execGfinv s = .next t) : Outcomes s .gfinv t := by
  refine .of_whenReady h fun hf hr hb => ?_
  split at hb
  · exact .of_fail hf (by decide) hb
  · exact .inr (.inr (Host.Outcome.next.inj hb ▸ .result (by decide) hr _))

theorem execQstate_outcomes (h : execQstate s = .next t) : Outcomes s .qstate t := by
  refine .of_whenReady h fun hf hr hb => ?_
  split at hb
  · exact .of_fail hf (by decide) hb
  · exact .inr (.inr (Host.Outcome.next.inj hb ▸ .result (by decide) hr _))

theorem execSetSeed_outcomes (h : execSetSeed s = .next t) : Outcomes s .setSeed t :=
  .of_whenReady h fun _ hr hb => .inr (.inr (Host.Outcome.next.inj hb ▸ .seed hr))

/-- Every answer of every command is one of its outcomes. -/
theorem exec_outcomes {i : Instr} (h : exec i s = .next t) : Outcomes s i t := by
  cases i with
  | nop => exact .inl (Host.Outcome.next.inj h).symm
  | reset =>
    obtain rfl : s.toReset = t := Host.Outcome.next.inj h
    exact .inr (.inr .reset)
  | config => exact execConfig_outcomes h
  | gfadd => exact execGfadd_outcomes h
  | gfmul => exact execGfmul_outcomes h
  | gfinv => exact execGfinv_outcomes h
  | vmadd => exact execVmadd_outcomes h
  | setSeed => exact execSetSeed_outcomes h
  | generate => exact execGenerate_outcomes h
  | push => exact execPush_outcomes h
  | pop => exact execPop_outcomes h
  | setWindow => exact execSetWindow_outcomes h
  | writeSymbol => exact execWriteSymbol_outcomes h
  | writeSourceSymbol => exact execWriteSourceSymbol_outcomes h
  | readSymbol => exact execReadSymbol_outcomes h
  | readSourceSymbol => exact execReadSourceSymbol_outcomes h
  | qstate => exact execQstate_outcomes h

end

/-! ### Invariants of steps -/

/-- What makes a property of states an invariant of every step: the host's bookkeeping, its register and memory
writes, fault entry, and every effect of a command keep it. -/
structure KeptByActions (P : State → Prop) : Prop where
  program : ∀ {s} rest, P s → P { s with program := rest }
  returned : ∀ {s} vs, P s → P { s with returned := vs }
  writeReg : ∀ {s} r v, P s → P (s.writeReg r v)
  hostWrite : ∀ {s a bs}, P s → a.toNat + bs.length ≤ 2 ^ 64 → P (s.memWrite a bs)
  raise : ∀ {s c} op info, P s → c ≠ .none → P (s.raise c op info)
  completes : ∀ {s i t}, P s → Completes s i t → P t

variable {P : State → Prop} {s t : State}

theorem Outcomes.keeps (hP : KeptByActions P) {i : Instr} (hs : P s) (h : Outcomes s i t) : P t := by
  rcases h with rfl | ⟨c, info, hc, -, rfl⟩ | h
  · exact hs
  · exact hP.raise _ _ hs hc
  · exact hP.completes hs h

theorem issue_keeps (hP : KeptByActions P) {cw : CommandWord} (hs : P s) (h : issue cw s = .next t) : P t := by
  rcases issue_next h with ⟨i, -, h⟩ | ⟨-, rfl⟩ | ⟨-, rfl⟩
  · exact (exec_outcomes h).keeps hP hs
  · exact hs
  · exact hP.raise _ _ hs (by decide)

theorem hostAct_keeps (hP : KeptByActions P) {a : HostAction} (hs : P s) (h : hostAct s a = .next t) : P t := by
  cases a with
  | writeReg offset v =>
    rcases State.hostWriteReg_next h with ⟨-, ⟨-, h⟩ | rfl | ⟨r, -, rfl⟩⟩
    · exact issue_keeps hP hs h
    · exact hs
    · exact hP.writeReg r v hs
  | readReg offset =>
    obtain ⟨-, rfl⟩ := State.hostReadReg_next.mp h
    exact hP.returned _ hs
  | memWrite a bs =>
    obtain ⟨hfits, rfl⟩ := State.hostMemWrite_next.mp h
    exact hP.hostWrite hs hfits
  | memRead a n =>
    obtain ⟨-, rfl⟩ := State.hostMemRead_next.mp h
    exact hP.returned _ hs
  | hardReset =>
    obtain rfl : s.toReset = t := Host.Outcome.next.inj h
    exact hP.completes hs .reset

/-- A property that every action keeps is kept by every step. -/
theorem step_keeps (hP : KeptByActions P) (hs : P s) (h : step s = .next t) : P t := by
  rcases step_next h with ⟨-, rfl⟩ | ⟨a, rest, -, h⟩
  · exact hs
  · exact hostAct_keeps hP (hP.program rest hs) h

end Sys2Proof.Machine
end

section
/-! The effects of the stream and decoder commands on the registers (R15, R16, R36), and the statements that follow
from the effects alone: the bounds of the stream, the fault registers, the configuration, and which command writes
what. -/

namespace Sys2Proof.Machine

/-! ### Which fields the composite effects leave alone -/

/-- `POP` changes `RES`, `LOWER` and the tables only (R102). -/
theorem State.dropLowest_eq (s : State) :
    s.dropLowest = { s with res := s.lower, lower := s.lower + 1, slots := s.dropLowest.slots,
                            coef := s.dropLowest.coef } := by
  unfold State.dropLowest
  dsimp only
  rw [State.freezeDependents_eq]
  rfl

/-- `READ_SYMBOL` changes `ADV`, `RES`, the tables, memory and the count of free values only (R123, U4). -/
theorem State.afterRead_eq (s : State) :
    s.afterRead = { s with adv := s.afterRead.adv, res := s.afterRead.res, slots := s.afterRead.slots,
                           coef := s.afterRead.coef, mem := s.afterRead.mem,
                           freeNext := s.afterRead.freeNext } := by
  unfold State.afterRead
  rw [State.absorb_eq]
  rfl

variable {s t : State}

/-- No command but `RESET` writes the operand registers, and none the parameters and the host's side. -/
theorem Outcomes.frame {i : Instr} (h : Outcomes s i t) :
    t.cap = s.cap ∧ t.mapped = s.mapped ∧ t.program = s.program ∧ t.returned = s.returned ∧
    (i ≠ .reset → t.a0 = s.a0 ∧ t.a1 = s.a1 ∧ t.a2 = s.a2 ∧ t.a3 = s.a3) := by
  rcases h with rfl | ⟨c, info, -, -, rfl⟩ | h
  · simp
  · simp
  · cases h with
    | pop => rw [State.dropLowest_eq]; simp
    | readSymbol => rw [State.afterRead_eq]; simp
    | readSourceSymbol => rw [State.absorbSource_eq]; simp
    | reset => simp
    | _ => exact ⟨rfl, rfl, rfl, rfl, fun _ => ⟨rfl, rfl, rfl, rfl⟩⟩

theorem Outcomes.frame_result {i : Instr} (h : Outcomes s i t)
    (hi : i ∉ [Instr.gfadd, .gfmul, .gfinv, .push, .pop, .readSymbol, .readSourceSymbol, .qstate, .reset]) :
    t.res = s.res := by
  rcases h with rfl | ⟨c, info, -, -, rfl⟩ | h
  · rfl
  · rfl
  · cases h with
    | result hq => exact absurd hq (by simp_all)
    | config => rfl
    | seed => rfl
    | window => rfl
    | store => rfl
    | _ => exact absurd (by decide) hi

theorem Outcomes.frame_config {i : Instr} (h : Outcomes s i t) (hi : i ∉ [Instr.config, .reset]) :
    t.field = s.field ∧ t.symsize = s.symsize ∧ t.ready = s.ready := by
  rcases h with rfl | ⟨c, info, -, -, rfl⟩ | h
  · exact ⟨rfl, rfl, rfl⟩
  · exact ⟨rfl, rfl, rfl⟩
  · cases h with
    | reset => exact absurd (by decide) hi
    | config => exact absurd (by decide) hi
    | pop => rw [State.dropLowest_eq]; exact ⟨rfl, rfl, rfl⟩
    | readSymbol => rw [State.afterRead_eq]; exact ⟨rfl, rfl, rfl⟩
    | readSourceSymbol => rw [State.absorbSource_eq]; exact ⟨rfl, rfl, rfl⟩
    | _ => exact ⟨rfl, rfl, rfl⟩

theorem Outcomes.frame_adv {i : Instr} (h : Outcomes s i t)
    (hi : i ∉ [Instr.readSymbol, .readSourceSymbol, .reset]) : t.adv = s.adv := by
  rcases h with rfl | ⟨c, info, -, -, rfl⟩ | h
  · rfl
  · rfl
  · cases h with
    | reset => exact absurd (by decide) hi
    | readSymbol => exact absurd (by decide) hi
    | readSourceSymbol => exact absurd (by decide) hi
    | pop => rw [State.dropLowest_eq]
    | _ => rfl

theorem Outcomes.frame_seed {i : Instr} (h : Outcomes s i t) (hi : i ∉ [Instr.setSeed, .reset]) :
    t.seed = s.seed := by
  rcases h with rfl | ⟨c, info, -, -, rfl⟩ | h
  · rfl
  · rfl
  · cases h with
    | reset => exact absurd (by decide) hi
    | seed => exact absurd (by decide) hi
    | pop => rw [State.dropLowest_eq]
    | readSymbol => rw [State.afterRead_eq]
    | readSourceSymbol => rw [State.absorbSource_eq]
    | _ => rfl

theorem Outcomes.frame_window {i : Instr} (h : Outcomes s i t) (hi : i ∉ [Instr.setWindow, .reset]) :
    t.wlower = s.wlower ∧ t.wsyms = s.wsyms := by
  rcases h with rfl | ⟨c, info, -, -, rfl⟩ | h
  · exact ⟨rfl, rfl⟩
  · exact ⟨rfl, rfl⟩
  · cases h with
    | reset => exact absurd (by decide) hi
    | window => exact absurd (by decide) hi
    | pop => rw [State.dropLowest_eq]; exact ⟨rfl, rfl⟩
    | readSymbol => rw [State.afterRead_eq]; exact ⟨rfl, rfl⟩
    | readSourceSymbol => rw [State.absorbSource_eq]; exact ⟨rfl, rfl⟩
    | _ => exact ⟨rfl, rfl⟩

theorem Outcomes.frame_tables {i : Instr} (h : Outcomes s i t)
    (hi : i ∉ [Instr.push, .pop, .readSymbol, .readSourceSymbol, .reset]) :
    t.slots = s.slots ∧ t.coef = s.coef := by
  rcases h with rfl | ⟨c, info, -, -, rfl⟩ | h
  · exact ⟨rfl, rfl⟩
  · exact ⟨rfl, rfl⟩
  · cases h with
    | config => exact ⟨rfl, rfl⟩
    | result => exact ⟨rfl, rfl⟩
    | seed => exact ⟨rfl, rfl⟩
    | window => exact ⟨rfl, rfl⟩
    | store => exact ⟨rfl, rfl⟩
    | _ => exact absurd (by decide) hi

theorem Outcomes.frame_mem {i : Instr} (h : Outcomes s i t)
    (hi : i ∉ [Instr.vmadd, .generate, .writeSymbol, .writeSourceSymbol, .readSymbol, .readSourceSymbol]) :
    t.mem = s.mem := by
  rcases h with rfl | ⟨c, info, -, -, rfl⟩ | h
  · rfl
  · rfl
  · cases h with
    | store hs => exact absurd hs (by simp_all)
    | readSymbol => exact absurd (by decide) hi
    | readSourceSymbol => exact absurd (by decide) hi
    | pop => rw [State.dropLowest_eq]
    | _ => rfl

theorem Outcomes.frame_freeNext {i : Instr} (h : Outcomes s i t) (hi : i ≠ .readSymbol) :
    t.freeNext = s.freeNext := by
  rcases h with rfl | ⟨c, info, -, -, rfl⟩ | h
  · rfl
  · rfl
  · cases h with
    | readSymbol => exact absurd rfl hi
    | pop => rw [State.dropLowest_eq]
    | readSourceSymbol => rw [State.absorbSource_eq]
    | _ => rfl

/-- Settles O59: one frame lemma per part of the state, each over the effects of a command. -/
theorem onlyTheNamedCommandsWrite : Obligations.OnlyTheNamedCommandsWrite := by
  intro i s t h
  have ho := exec_outcomes h
  obtain ⟨hcap, hmapped, hprogram, hreturned, hoperands⟩ := ho.frame
  exact ⟨hoperands, ho.frame_result, ho.frame_config, ho.frame_adv, ho.frame_seed, ho.frame_window,
    ho.frame_tables, ho.frame_mem, ho.frame_freeNext, hcap, hmapped, hprogram, hreturned⟩

/-! ### The bounds of the stream (R36) -/

theorem State.BoundsOk.congr (h : s.BoundsOk) (hc : t.cap = s.cap) (hl : t.lower = s.lower)
    (hu : t.upper = s.upper) : t.BoundsOk where
  cap_pos := hc ▸ h.cap_pos
  cap_le := hc ▸ h.cap_le
  lower_le := by rw [hl, hu]; exact h.lower_le
  fits := by rw [hl, hu, hc]; exact h.fits

/-- `PUSH` stops short of the last index, so `UPPER + 1` does not wrap (R101). -/
theorem State.toNat_upper_succ (h : s.upper.toNat ≠ 2 ^ 64 - 1) :
    (s.upper + 1).toNat = s.upper.toNat + 1 := by
  bv_omega

/-- `POP` runs only while `LOWER < UPPER`, so `LOWER + 1` does not wrap (R102). -/
theorem State.lower_lt_upper (hb : s.BoundsOk) (h : s.upper ≠ s.lower) : s.lower.toNat < s.upper.toNat :=
  lt_of_le_of_ne hb.lower_le fun he => h (BitVec.eq_of_toNat_eq he.symm)

theorem State.toNat_lower_succ (h : s.lower.toNat < s.upper.toNat) :
    (s.lower + 1).toNat = s.lower.toNat + 1 := by
  bv_omega

/-- What a command makes of the two stream bounds. -/
theorem Outcomes.bounds {i : Instr} (h : Outcomes s i t) :
    (t.lower = s.lower ∧ t.upper = s.upper) ∨ (i = .reset ∧ t.lower = 0 ∧ t.upper = 0) ∨
    (i = .push ∧ s.nsyms ≠ s.cap ∧ s.upper.toNat ≠ 2 ^ 64 - 1 ∧ t.lower = s.lower ∧ t.upper = s.upper + 1) ∨
    (i = .pop ∧ s.upper ≠ s.lower ∧ t.lower = s.lower + 1 ∧ t.upper = s.upper) := by
  rcases h with rfl | ⟨c, info, -, -, rfl⟩ | h
  · exact .inl ⟨rfl, rfl⟩
  · exact .inl ⟨rfl, rfl⟩
  · cases h with
    | reset => exact .inr (.inl ⟨rfl, rfl, rfl⟩)
    | push _ hroom hlast => exact .inr (.inr (.inl ⟨rfl, hroom, hlast, rfl, rfl⟩))
    | pop _ hne => rw [State.dropLowest_eq]; exact .inr (.inr (.inr ⟨rfl, hne, rfl, rfl⟩))
    | readSymbol => rw [State.afterRead_eq]; exact .inl ⟨rfl, rfl⟩
    | readSourceSymbol => rw [State.absorbSource_eq]; exact .inl ⟨rfl, rfl⟩
    | _ => exact .inl ⟨rfl, rfl⟩

theorem Outcomes.boundsOk {i : Instr} (h : Outcomes s i t) (hs : s.BoundsOk) : t.BoundsOk := by
  have hcap := h.frame.1
  rcases h.bounds with ⟨hl, hu⟩ | ⟨-, hl, hu⟩ | ⟨-, hroom, hlast, hl, hu⟩ | ⟨-, hne, hl, hu⟩
  · exact hs.congr hcap hl hu
  · exact ⟨hcap ▸ hs.cap_pos, hcap ▸ hs.cap_le, by simp [hl, hu], by simp [hl, hu]⟩
  · obtain ⟨hpos, hle, hlower, hfits⟩ := hs
    have hsucc := State.toNat_upper_succ hlast
    unfold State.nsyms at hroom
    refine ⟨hcap ▸ hpos, hcap ▸ hle, ?_, ?_⟩ <;> rw [hl, hu, hsucc]
    · omega
    · omega
  · have hlt := State.lower_lt_upper hs hne
    obtain ⟨hpos, hle, hlower, hfits⟩ := hs
    have hsucc := State.toNat_lower_succ hlt
    refine ⟨hcap ▸ hpos, hcap ▸ hle, ?_, ?_⟩ <;> rw [hl, hu, hsucc]
    · omega
    · omega

theorem State.writeReg_eq (s : State) (r : Reg) (v : Word) :
    ∃ a b c d, s.writeReg r v = { s with a0 := a, a1 := b, a2 := c, a3 := d } := by
  cases r <;> exact ⟨_, _, _, _, rfl⟩

theorem boundsOk_kept : KeptByActions State.BoundsOk where
  program _ h := h.congr rfl rfl rfl
  returned _ h := h.congr rfl rfl rfl
  writeReg r v h := by
    obtain ⟨a, b, c, d, he⟩ := State.writeReg_eq _ r v
    exact he ▸ h.congr rfl rfl rfl
  hostWrite h _ := h.congr rfl rfl rfl
  raise _ _ h _ := h.congr rfl rfl rfl
  completes h hc := hc.outcomes.boundsOk h

/-- Settles O51: only `PUSH` and `POP` move a bound, and their checks leave room for it. -/
theorem stepKeepsTheStreamBounds : Obligations.StepKeepsTheStreamBounds :=
  fun _ _ hs h => step_keeps boundsOk_kept hs h

/-- Settles O58: the bounds after each effect, with the checks that keep `+ 1` from wrapping. -/
theorem streamBoundsOnlyGrow : Obligations.StreamBoundsOnlyGrow := by
  intro i s t hi hs h
  rcases (exec_outcomes h).bounds with
    ⟨hl, hu⟩ | ⟨hreset, -⟩ | ⟨hpush, -, hlast, hl, hu⟩ | ⟨hpop, hne, hl, hu⟩
  · exact ⟨.inl (by rw [hl]), .inl (by rw [hu])⟩
  · exact absurd hreset hi
  · exact ⟨.inl (by rw [hl]), .inr ⟨hpush, by rw [hu, State.toNat_upper_succ hlast]⟩⟩
  · have hlt := State.lower_lt_upper hs hne
    exact ⟨.inr ⟨hpop, by rw [hl, State.toNat_lower_succ hlt]⟩, .inl (by rw [hu])⟩

/-! ### The configuration and the fault registers (R22, R23, R58, R93) -/

theorem Outcomes.faultOk {i : Instr} (h : Outcomes s i t) (hs : s.FaultOk) : t.FaultOk := by
  rcases h with rfl | ⟨c, info, hc, -, rfl⟩ | h
  · exact hs
  · exact ⟨nofun, fun _ => hc⟩
  · cases h with
    | reset => exact ⟨fun _ => ⟨rfl, rfl, rfl⟩, nofun⟩
    | pop => rw [State.dropLowest_eq]; exact ⟨hs.clear, hs.named⟩
    | readSymbol => rw [State.afterRead_eq]; exact ⟨hs.clear, hs.named⟩
    | readSourceSymbol => rw [State.absorbSource_eq]; exact ⟨hs.clear, hs.named⟩
    | _ => exact ⟨hs.clear, hs.named⟩

theorem faultOk_kept : KeptByActions State.FaultOk where
  program _ h := ⟨h.clear, h.named⟩
  returned _ h := ⟨h.clear, h.named⟩
  writeReg r v h := by
    obtain ⟨a, b, c, d, he⟩ := State.writeReg_eq _ r v
    exact he ▸ ⟨h.clear, h.named⟩
  hostWrite h _ := ⟨h.clear, h.named⟩
  raise _ _ _ hc := ⟨nofun, fun _ => hc⟩
  completes h hc := hc.outcomes.faultOk h

/-- A ready state is configured properly as soon as its symbol size is. -/
theorem State.ConfigOk.of_ready (hr : s.ready = true) (hpos : 1 ≤ s.symBytes)
    (heven : s.field = .binary16 → s.symBytes % 2 = 0) : s.ConfigOk :=
  ⟨fun h => absurd (h.symm.trans hr) (by decide), fun _ => hpos, fun _ => heven⟩

/-- An effect that needs the ready state and keeps the configuration. -/
theorem State.ConfigOk.congr_ready (h : s.ConfigOk) (hr : s.ready = true) (hready : t.ready = s.ready)
    (hfield : t.field = s.field) (hsize : t.symsize = s.symsize) : t.ConfigOk := by
  have hsym : t.symBytes = s.symBytes := by unfold State.symBytes; rw [hsize]
  refine .of_ready (hready.trans hr) (hsym ▸ h.size_pos hr) fun hf => ?_
  rw [hsym]
  exact h.size_even hr (hfield ▸ hf)

/-- The symbol size that `CONFIG` accepts fits the register. -/
theorem toNat_setWidth_of_le_symMax {a : Word} (h : a.toNat ≤ Config.symMax) :
    (a.setWidth 32).toNat = a.toNat := by
  rw [BitVec.toNat_setWidth]
  exact Nat.mod_eq_of_lt (lt_of_le_of_lt h (by decide))

theorem Completes.configOk {i : Instr} (h : Completes s i t) (hs : s.ConfigOk) : t.ConfigOk := by
  cases h with
  | reset => exact ⟨fun _ => ⟨rfl, rfl, rfl, rfl, rfl, rfl, rfl, rfl, rfl, rfl, rfl⟩, nofun, nofun⟩
  | config f hready hpos hmax heven =>
    have hsize := toNat_setWidth_of_le_symMax hmax
    have hne : 1 ≤ s.a1.toNat := Nat.pos_of_ne_zero fun h0 => hpos (BitVec.eq_of_toNat_eq h0)
    exact .of_ready rfl (hne.trans_eq hsize.symm) fun hf => (congrArg (· % 2) hsize).trans (heven hf)
  | result _ hr => exact hs.congr_ready hr rfl rfl rfl
  | seed hr => exact hs.congr_ready hr rfl rfl rfl
  | window hr => exact hs.congr_ready hr rfl rfl rfl
  | store _ hr => exact hs.congr_ready hr rfl rfl rfl
  | push hr => exact hs.congr_ready hr rfl rfl rfl
  | pop hr => rw [State.dropLowest_eq]; exact hs.congr_ready hr rfl rfl rfl
  | readSymbol hr => rw [State.afterRead_eq]; exact hs.congr_ready hr rfl rfl rfl
  | readSourceSymbol hr => rw [State.absorbSource_eq]; exact hs.congr_ready hr rfl rfl rfl

theorem configOk_kept : KeptByActions State.ConfigOk where
  program _ h := ⟨h.unconfigured, h.size_pos, h.size_even⟩
  returned _ h := ⟨h.unconfigured, h.size_pos, h.size_even⟩
  writeReg r v h := by
    obtain ⟨a, b, c, d, he⟩ := State.writeReg_eq _ r v
    exact he ▸ ⟨h.unconfigured, h.size_pos, h.size_even⟩
  hostWrite h _ := ⟨h.unconfigured, h.size_pos, h.size_even⟩
  raise _ _ h _ := ⟨h.unconfigured, h.size_pos, h.size_even⟩
  completes h hc := hc.configOk h

/-- Settles O52: the two invariants are kept independently of each other. -/
theorem stepKeepsConfigurationAndFaultRegisters : Obligations.StepKeepsConfigurationAndFaultRegisters :=
  fun _ _ hconfig hfault h => ⟨step_keeps configOk_kept hconfig h, step_keeps faultOk_kept hfault h⟩

end Sys2Proof.Machine
end

section
/-! The register space as the host sees it (R19 to R24, R31 to R37) and the slot counters (R35). -/

namespace Sys2Proof.Machine

/-! ### Register accesses -/

theorem validOffset_iff (offset : Nat) : validOffset offset = true ↔ offset % 8 = 0 ∧ offset < 0x100 := by
  simp [validOffset]

theorem hostAct_readReg_of_valid {offset : Nat} (h : validOffset offset = true) (s : State) :
    hostAct s (.readReg offset) = .next { s with returned := s.returned ++ [.reg (s.readOffset offset)] } :=
  State.hostReadReg_next.mpr ⟨h, rfl⟩

theorem hostAct_readReg_of_invalid {offset : Nat} (h : validOffset offset = false) (s : State) :
    hostAct s (.readReg offset) = .refused .registerAccess := by
  simp [hostAct, State.hostReadReg, h]

theorem hostAct_writeReg_of_invalid {offset : Nat} (h : validOffset offset = false) (s : State) (v : Word) :
    hostAct s (.writeReg offset v) = .refused .registerAccess := by
  simp [hostAct, State.hostWriteReg, h]

/-- The value read does not depend on the host's list. -/
theorem State.readOffset_program (s : State) (rest : List HostAction) (offset : Nat) :
    ({ s with program := rest } : State).readOffset offset = s.readOffset offset := by
  unfold State.readOffset
  cases regAt offset with
  | none => rfl
  | some r => cases r <;> rfl

/-- A register stands at its own offset only (R19). -/
theorem offset_of_regAt {offset : Nat} {r : Reg} (h : regAt offset = some r) : r.offset = offset := by
  simpa using List.find?_some h

/-- A write at an offset other than those of `CMD` and the operand registers is ignored (R20 (c)). -/
theorem hostAct_writeReg_ignored {offset : Nat} (h : validOffset offset = true)
    (hoff : offset ∉ [0x00, 0x20, 0x28, 0x30, 0x38]) (s : State) (v : Word) :
    hostAct s (.writeReg offset v) = .next s := by
  simp only [hostAct, State.hostWriteReg, h, if_true]
  cases hr : regAt offset with
  | none => rfl
  | some r =>
    have ho := offset_of_regAt hr
    cases r with
    | cmd => exact absurd ho (by rintro rfl; simp [Reg.offset] at hoff)
    | a0 => exact absurd ho (by rintro rfl; simp [Reg.offset] at hoff)
    | a1 => exact absurd ho (by rintro rfl; simp [Reg.offset] at hoff)
    | a2 => exact absurd ho (by rintro rfl; simp [Reg.offset] at hoff)
    | a3 => exact absurd ho (by rintro rfl; simp [Reg.offset] at hoff)
    | _ => rfl

/-- Settles O8: the four kinds of offset, each from what one host action does there. -/
theorem registerAccessRules : Obligations.RegisterAccessRules := by
  intro s rest offset v
  refine ⟨fun hoff => ?_, fun hmod hlt hp => ?_, fun hmod hlt hoff hp => ?_, ?_, ?_, ?_, ?_⟩
  · have hinvalid : validOffset offset = false :=
      Bool.eq_false_iff.mpr fun h => by have := (validOffset_iff offset).mp h; omega
    exact ⟨fun hp => by rw [step_of_program_cons hp, hostAct_readReg_of_invalid hinvalid],
      fun hp => by rw [step_of_program_cons hp, hostAct_writeReg_of_invalid hinvalid]⟩
  · have hvalid := (validOffset_iff offset).mpr ⟨hmod, hlt⟩
    rw [step_of_program_cons hp, hostAct_readReg_of_valid hvalid, State.readOffset_program]
  · have hvalid := (validOffset_iff offset).mpr ⟨hmod, hlt⟩
    rw [step_of_program_cons hp, hostAct_writeReg_ignored hvalid hoff]
  all_goals exact fun hp => step_of_program_cons hp

/-- The map ends at 0xA8, so nothing stands at the reserved offsets (R19). -/
theorem regAt_reserved {offset : Nat} (h : 0xB0 ≤ offset) : regAt offset = none := by
  cases hr : regAt offset with
  | none => rfl
  | some r =>
    have ho := offset_of_regAt hr
    have hle : r.offset ≤ 0xA8 := by cases r <;> decide
    omega

/-- Settles O9: the register at each offset of the map, then what a read of it returns. -/
theorem registerMapContents : Obligations.RegisterMapContents := by
  intro s
  have hsize : s.symsize.setWidth 64 = BitVec.ofNat 64 s.symsize.toNat := by
    apply BitVec.eq_of_toNat_eq
    simp
  refine ⟨rfl, rfl, rfl, rfl, rfl, rfl, rfl, rfl, rfl, hsize, rfl, rfl, rfl, rfl, rfl, rfl, rfl, rfl, rfl, rfl,
    rfl, rfl, fun offset hlo _ => ?_⟩
  rw [State.readOffset, regAt_reserved hlo]

/-- The bits of `STATUS`, from the lowest up (R23). -/
theorem State.getLsbD_status (s : State) (k : Nat) : s.status.getLsbD k =
    if k < 1 then (flagBit s.ready).getLsbD k
    else if k < 2 then (flagBit s.fault).getLsbD (k - 1)
    else if k < 3 then (flagBit s.adv).getLsbD (k - 2)
    else if k < 8 then false
    else if k < 16 then (causeCode s.cause).getLsbD (k - 8)
    else if k < 24 then s.fop.getLsbD (k - 16)
    else false := by
  simp only [State.status, BitVec.getLsbD_append, BitVec.getLsbD_zero]
  grind

/-- Settles O10: each field of `STATUS` is read off its bits. -/
theorem statusHoldsTheFlags : Obligations.StatusHoldsTheFlags := by
  refine ⟨fun s => ⟨?_, ?_, ?_, ?_, ?_, ?_, ?_⟩, rfl⟩
  · rw [State.getLsbD_status]; simp [flagBit]
  · rw [State.getLsbD_status]; simp [flagBit]
  · rw [State.getLsbD_status]; simp [flagBit]
  all_goals
    refine BitVec.eq_of_getLsbD_eq fun k hk => ?_
    rw [BitVec.getLsbD_extractLsb', State.getLsbD_status]
    grind

/-! ### The slot counters (R31 to R35) -/

theorem State.rowState_eq_missing_iff (s : State) (i : Nat) :
    s.rowState i = .missing ↔ (s.slot i).piv = false := by
  unfold State.rowState
  split
  · simp_all
  · split <;> simp_all

theorem State.dependsOnOther_eq_false_iff (s : State) (i : Nat) :
    s.dependsOnOther i = false ↔ ∀ j, s.isLive j = true → j ≠ i → s.coefOf i j = 0 := by
  simp only [State.dependsOnOther, List.any_eq_false, State.mem_live, decide_eq_true_eq, not_and, not_not]

theorem State.rowState_eq_decoded_iff (s : State) (i : Nat) :
    s.rowState i = .decoded ↔ (s.slot i).piv = true ∧ (s.slot i).frz = false ∧
      ∀ j, s.isLive j = true → j ≠ i → s.coefOf i j = 0 := by
  rw [← State.dependsOnOther_eq_false_iff]
  unfold State.rowState
  cases (s.slot i).piv <;> cases (s.slot i).frz <;> cases s.dependsOnOther i <;> decide

/-- A list's elements are counted by any function into the three row states without gap or overlap. -/
theorem countP_rowState (f : Nat → RowState) (l : List Nat) :
    l.countP (fun i => decide (f i = .decoded)) + l.countP (fun i => decide (f i = .partiallyDecoded)) +
      l.countP (fun i => decide (f i = .missing)) = l.length := by
  induction l with
  | nil => rfl
  | cons i l ih =>
    simp only [List.countP_cons, List.length_cons]
    cases f i <;> simp <;> omega

/-- The rows with a pivot are those that are not missing. -/
theorem State.rank_add_missing (s : State) : s.rank + s.countState .missing = s.nsyms := by
  have hnot : s.countState .missing = s.live.countP (fun i => decide ¬ (s.slot i).piv = true) := by
    refine List.countP_congr fun i _ => ?_
    simp [State.rowState_eq_missing_iff]
  rw [hnot, ← State.live_length]
  exact (List.length_eq_countP_add_countP (fun i => (s.slot i).piv)).symm

theorem State.countState_add (s : State) :
    s.countState .decoded + s.countState .partiallyDecoded + s.countState .missing = s.nsyms :=
  (countP_rowState s.rowState s.live).trans s.live_length

theorem State.ConfigOk.nsyms_eq_zero {s : State} (h : s.ConfigOk) (hr : s.ready = false) : s.nsyms = 0 := by
  obtain ⟨-, -, -, -, hl, hu, -⟩ := h.unconfigured hr
  simp [State.nsyms, hl, hu]

/-- Settles O40: the three states partition the live slots, and an unconfigured unit has none. -/
theorem countersAddUp : Obligations.CountersAddUp := by
  refine ⟨fun s => ?_, fun s hc hr => ?_⟩
  · have hsum := s.countState_add
    have hrank := s.rank_add_missing
    exact ⟨hsum, by omega⟩
  · have hsum := s.countState_add
    have hrank := s.rank_add_missing
    rw [hc.nsyms_eq_zero hr] at hsum hrank
    omega

end Sys2Proof.Machine
end

section
/-! What each invariant of the machine reads, what the state operations do to the canonical forms (R40, U4), and the
unit without a live slot, which is how reset leaves it (R161). -/

namespace Sys2Proof.Machine

/-! ### Where listed bytes can come from -/

theorem Memory.mem_cells_writeBytes {m : Memory} {a : Nat} {bs : List Byte} {e : Host.Cell}
    (h : e ∈ (m.writeBytes a bs).cells) : e ∈ m.cells ∨ e.1 < a + bs.length := by
  induction bs generalizing m a with
  | nil => exact .inl h
  | cons b bs ih =>
    rw [List.length_cons]
    rcases ih h with h | h
    · rcases mem_tablePut h with ⟨rfl, -⟩ | ⟨h, -⟩
      · right; dsimp only; omega
      · exact .inl h
    · right; omega

theorem Memory.mem_scratch_writeBytes {m : Memory} {a : Nat} {bs : List Byte} {e : Nat × Nat}
    (h : e ∈ (m.writeBytes a bs).scratch) : e ∈ m.scratch := by
  induction bs generalizing m a with
  | nil => exact h
  | cons b bs ih => exact (mem_tableErase (ih h)).1

theorem Memory.mem_cells_forgetBytes {m : Memory} {a k n : Nat} {e : Host.Cell}
    (h : e ∈ (m.forgetBytes a k n).cells) : e ∈ m.cells := by
  induction n generalizing m a k with
  | zero => exact h
  | succ n ih => exact (mem_tableErase (ih h)).1

theorem Memory.mem_scratch_forgetBytes {m : Memory} {a k n : Nat} {e : Nat × Nat}
    (h : e ∈ (m.forgetBytes a k n).scratch) : e ∈ m.scratch ∨ ∃ j < n, e = (a + j, k + j) := by
  induction n generalizing m a k with
  | zero => exact .inl h
  | succ n ih =>
    rcases ih h with h | ⟨j, hj, rfl⟩
    · rcases mem_tableInsert h with rfl | h
      · exact .inr ⟨0, by omega, rfl⟩
      · exact .inl (mem_tableErase h).1
    · exact .inr ⟨j + 1, by omega, by rw [Prod.mk.injEq]; omega⟩

variable {s t : State}

/-! ### The canonical forms after each operation -/

theorem State.MemoryOk.congr (h : s.MemoryOk) (hm : t.mem = s.mem) (hs : t.slots = s.slots)
    (hc : t.coef = s.coef) (hn : t.freeNext = s.freeNext) : t.MemoryOk where
  mem_wf := hm ▸ h.mem_wf
  slots_wf := hs ▸ h.slots_wf
  coef_wf := hc ▸ h.coef_wf
  cells_in_space := hm ▸ h.cells_in_space
  scratch_in_space := hm ▸ h.scratch_in_space
  scratch_used := hm ▸ hn ▸ h.scratch_used
  scratch_distinct := hm ▸ h.scratch_distinct

theorem State.MemoryOk.with_tables (h : s.MemoryOk) (hm : t.mem = s.mem) (hn : t.freeNext = s.freeNext)
    (hs : tableWf natLt Slot.empty t.slots = true) (hc : tableWf pairLt 0 t.coef = true) : t.MemoryOk where
  mem_wf := hm ▸ h.mem_wf
  slots_wf := hs
  coef_wf := hc
  cells_in_space := hm ▸ h.cells_in_space
  scratch_in_space := hm ▸ h.scratch_in_space
  scratch_used := hm ▸ hn ▸ h.scratch_used
  scratch_distinct := hm ▸ h.scratch_distinct

theorem State.MemoryOk.memWrite (h : s.MemoryOk) {a : Word} {bs : List Byte}
    (hfit : a.toNat + bs.length ≤ 2 ^ 64) : (s.memWrite a bs).MemoryOk where
  mem_wf := Memory.writeBytes_wf h.mem_wf _ _
  slots_wf := h.slots_wf
  coef_wf := h.coef_wf
  cells_in_space e he := by
    rcases Memory.mem_cells_writeBytes he with he | he
    · exact h.cells_in_space e he
    · exact lt_of_lt_of_le he hfit
  scratch_in_space e he := h.scratch_in_space e (Memory.mem_scratch_writeBytes he)
  scratch_used e he := h.scratch_used e (Memory.mem_scratch_writeBytes he)
  scratch_distinct e he e' he' :=
    h.scratch_distinct e (Memory.mem_scratch_writeBytes he) e' (Memory.mem_scratch_writeBytes he')

/-- The new free values are numbered from `freeNext` on, past every number in use. -/
theorem State.MemoryOk.memForget (h : s.MemoryOk) {a : Word} {n : Nat} (hfit : a.toNat + n ≤ 2 ^ 64) :
    (s.memForget a n).MemoryOk where
  mem_wf := Memory.forgetBytes_wf h.mem_wf _ _ _
  slots_wf := h.slots_wf
  coef_wf := h.coef_wf
  cells_in_space e he := h.cells_in_space e (Memory.mem_cells_forgetBytes he)
  scratch_in_space e he := by
    rcases Memory.mem_scratch_forgetBytes he with he | ⟨j, hj, rfl⟩
    · exact h.scratch_in_space e he
    · exact lt_of_lt_of_le (Nat.add_lt_add_left hj _) hfit
  scratch_used e he := by
    rcases Memory.mem_scratch_forgetBytes he with he | ⟨j, hj, rfl⟩
    · exact Nat.lt_add_right n (h.scratch_used e he)
    · exact Nat.add_lt_add_left hj _
  scratch_distinct e he e' he' heq := by
    rcases Memory.mem_scratch_forgetBytes he with he | ⟨j, hj, rfl⟩ <;>
      rcases Memory.mem_scratch_forgetBytes he' with he' | ⟨j', hj', rfl⟩
    · exact h.scratch_distinct e he e' he' heq
    · have := h.scratch_used e he; dsimp only at heq; omega
    · have := h.scratch_used e' he'; dsimp only at heq; omega
    · obtain rfl : j = j' := by dsimp only at heq; omega
      rfl

theorem State.MemoryOk.setSlot (h : s.MemoryOk) (i : Nat) (v : Slot) : (s.setSlot i v).MemoryOk :=
  h.with_tables rfl rfl (State.setSlot_wf h.slots_wf i v) h.coef_wf

theorem State.MemoryOk.clearCross (h : s.MemoryOk) (p : Nat) : (s.clearCross p).MemoryOk :=
  h.with_tables rfl rfl h.slots_wf (State.clearCross_wf h.coef_wf p)

theorem State.MemoryOk.setRow (h : s.MemoryOk) (i : Nat) (cs : List Elem) : (s.setRow i cs).MemoryOk :=
  h.with_tables (by rw [State.setRow_eq]) (by rw [State.setRow_eq])
    (by rw [State.setRow_eq]; exact h.slots_wf) (State.setRow_wf h.coef_wf i cs)

/-- A buffer that `RangeOK` accepts does not pass the top of the address space (R44). -/
theorem State.fits_of_rangeOK {a : Word} {n : Nat} (h : s.rangeOK a n = true) : a.toNat + n ≤ 2 ^ 64 := by
  simp only [State.rangeOK, Bool.and_eq_true, decide_eq_true_eq] at h
  exact h.1

/-! ### What the buffers and rows invariants read -/

theorem State.isLive_congr (hl : t.lower = s.lower) (hu : t.upper = s.upper) (i : Nat) :
    t.isLive i = s.isLive i := by
  unfold State.isLive; rw [hl, hu]

theorem State.live_congr (hl : t.lower = s.lower) (hu : t.upper = s.upper) : t.live = s.live := by
  unfold State.live State.nsyms; rw [hl, hu]

theorem State.phys_congr (hc : t.cap = s.cap) (i : Nat) : t.phys i = s.phys i := by
  unfold State.phys; rw [hc]

theorem State.slot_congr (hc : t.cap = s.cap) (hs : t.slots = s.slots) (i : Nat) : t.slot i = s.slot i := by
  unfold State.slot State.slotAt State.phys; rw [hc, hs]

theorem State.coefOf_congr (hc : t.cap = s.cap) (hco : t.coef = s.coef) (i j : Nat) :
    t.coefOf i j = s.coefOf i j := by
  unfold State.coefOf State.coefAt State.phys; rw [hc, hco]

theorem State.rangeOK_congr (hm : t.mapped = s.mapped) (a : Word) (n : Nat) :
    t.rangeOK a n = s.rangeOK a n := by
  unfold State.rangeOK; rw [hm]

/-- The buffers depend on the addresses of the live slots and on the symbol size only. -/
theorem State.BuffersOk.congr (h : s.BuffersOk) (hl : t.lower = s.lower) (hu : t.upper = s.upper)
    (hm : t.mapped = s.mapped) (hsize : t.symsize = s.symsize)
    (haddr : ∀ i, s.isLive i = true → (t.slot i).addr = (s.slot i).addr) : t.BuffersOk := by
  have hbytes : t.symBytes = s.symBytes := by unfold State.symBytes; rw [hsize]
  refine ⟨fun i hi => ?_, fun i j hi hj hne => ?_⟩
  · rw [State.isLive_congr hl hu] at hi
    rw [State.rangeOK_congr hm, haddr i hi, hbytes]
    exact h.mapped i hi
  · rw [State.isLive_congr hl hu] at hi hj
    rw [haddr i hi, haddr j hj, hbytes]
    exact h.disjoint i j hi hj hne

theorem State.RowsOk.congr (h : s.RowsOk) (hl : t.lower = s.lower) (hu : t.upper = s.upper)
    (hc : t.cap = s.cap) (hf : t.field = s.field) (hs : t.slots = s.slots) (hco : t.coef = s.coef) :
    t.RowsOk := by
  have hlive := State.isLive_congr hl hu
  have hphys := State.phys_congr hc
  have hslotAt : ∀ p, t.slotAt p = s.slotAt p := fun p => by unfold State.slotAt; rw [hs]
  have hcoefAt : ∀ p q, t.coefAt p q = s.coefAt p q := fun p q => by unfold State.coefAt; rw [hco]
  have hslot : ∀ i, t.slot i = s.slot i := State.slot_congr hc hs
  have hcoefOf : ∀ i j, t.coefOf i j = s.coefOf i j := State.coefOf_congr hc hco
  constructor
  · simpa only [hlive, hphys, hslotAt, hcoefAt] using h.dead_clear
  · simpa only [hlive, hslot, hcoefOf] using h.missing_zero
  · simpa only [hlive, hslot, hcoefOf] using h.pivot_one
  · simpa only [hlive, hslot, hcoefOf] using h.reduced
  · simpa only [hcoefAt, hf] using h.in_field
  · simpa only [hlive, hslot, hcoefOf] using h.zero_below
  · simpa only [hlive, hslot] using h.unfrozen

/-! ### The unit without a live slot -/

theorem State.isLive_of_bounds_eq (h : s.upper = s.lower) (i : Nat) : s.isLive i = false := by
  simp [State.isLive, h]

theorem State.BuffersOk.of_empty (h : s.upper = s.lower) : s.BuffersOk :=
  ⟨fun i hi => absurd (hi.symm.trans (State.isLive_of_bounds_eq h i)) (by decide),
    fun i _ hi _ _ => absurd (hi.symm.trans (State.isLive_of_bounds_eq h i)) (by decide)⟩

theorem State.RowsOk.of_empty (h : s.upper = s.lower) (hs : s.slots = []) (hc : s.coef = []) : s.RowsOk := by
  have hslot : ∀ p, s.slotAt p = Slot.empty := fun p => by unfold State.slotAt; rw [hs]; rfl
  have hcoef : ∀ p q, s.coefAt p q = 0 := fun p q => by unfold State.coefAt; rw [hc]; rfl
  have hdead : ∀ i, ¬ s.isLive i = true := fun i => by simp [State.isLive_of_bounds_eq h i]
  exact {
    dead_clear := fun p _ => ⟨hslot p, fun q => ⟨hcoef p q, hcoef q p⟩⟩
    missing_zero := fun i hi => absurd hi (hdead i)
    pivot_one := fun i hi => absurd hi (hdead i)
    reduced := fun i _ hi => absurd hi (hdead i)
    in_field := fun p q => by rw [hcoef]; exact Nat.two_pow_pos _
    zero_below := fun i _ hi => absurd hi (hdead i)
    unfrozen := fun i hi => absurd hi (hdead i) }

/-- Reset leaves memory alone and empties the tables (R91, R161). -/
theorem State.MemoryOk.toReset (h : s.MemoryOk) : s.toReset.MemoryOk :=
  h.with_tables rfl rfl rfl rfl

theorem reset_memoryOk : State.reset.MemoryOk :=
  ⟨reset_mem_wf, by decide, by decide, nofun, nofun, nofun, nofun⟩

/-- Settles O50: after reset no slot is live and every table is empty. -/
theorem resetHasEveryInvariant : Obligations.ResetHasEveryInvariant := by
  have hinv : ∀ (cap : Nat) (mapped : List Region), 1 ≤ cap → cap ≤ 65535 →
      ({ State.reset with cap := cap, mapped := mapped } : State).Inv := fun cap mapped hpos hle =>
    { bounds := ⟨hpos, hle, le_rfl, Nat.zero_le _⟩
      config := ⟨fun _ => ⟨rfl, rfl, rfl, rfl, rfl, rfl, rfl, rfl, rfl, rfl, rfl⟩, nofun, nofun⟩
      faults := ⟨fun _ => ⟨rfl, rfl, rfl⟩, nofun⟩
      memory := reset_memoryOk.congr rfl rfl rfl rfl
      buffers := .of_empty rfl
      rows := .of_empty rfl rfl rfl }
  exact ⟨hinv Config.powerOnCap _ (by decide) (by decide), hinv⟩

end Sys2Proof.Machine
end

section
/-! The arithmetic of the four fields (R61 to R65, R76). An element stands for a polynomial over GF(2); `gfMul` is
the product modulo `P_w` (R64), so the map into the polynomials modulo `P_w` is one-to-one on the elements and
carries `gfAdd` and `gfMul` to sum and product. The field laws are those of the image. -/

namespace Sys2Proof.Machine

open Polynomial

/-! ### Bits as polynomials -/

/-- The polynomial over GF(2) whose coefficients are the low `n` bits of a word. -/
noncomputable def lowPoly {w : Nat} (b : BitVec w) (n : Nat) : (ZMod 2)[X] :=
  ∑ k ∈ Finset.range n, if b.getLsbD k then X ^ k else 0

/-- The polynomial over GF(2) whose coefficients are the bits of a word. -/
noncomputable def toPoly {n : Nat} (a : BitVec n) : (ZMod 2)[X] := lowPoly a n

theorem coeff_lowPoly {w : Nat} (b : BitVec w) (n k : Nat) :
    (lowPoly b n).coeff k = if k < n ∧ b.getLsbD k = true then 1 else 0 := by
  have hterm : ∀ j, (if b.getLsbD j then (X : (ZMod 2)[X]) ^ j else 0).coeff k =
      if k = j then (if b.getLsbD j then 1 else 0) else 0 := fun j => by
    split <;> simp [coeff_X_pow]
  simp only [lowPoly, finsetSum_coeff, hterm, Finset.sum_ite_eq, Finset.mem_range]
  by_cases hk : k < n <;> simp [hk]

theorem coeff_toPoly {n : Nat} (a : BitVec n) (k : Nat) :
    (toPoly a).coeff k = if a.getLsbD k then 1 else 0 := by
  have hbits : a.getLsbD k = true → k < n := BitVec.lt_of_getLsbD
  rw [toPoly, coeff_lowPoly]
  exact if_congr (and_iff_right_of_imp hbits) rfl rfl

/-- Words of any two widths with the same bits stand for the same polynomial. -/
theorem toPoly_congr {n m : Nat} {a : BitVec n} {b : BitVec m} (h : ∀ k, a.getLsbD k = b.getLsbD k) :
    toPoly a = toPoly b := by
  ext k
  rw [coeff_toPoly, coeff_toPoly, h]

theorem toPoly_injective {n : Nat} {a b : BitVec n} (h : toPoly a = toPoly b) : a = b := by
  refine BitVec.eq_of_getLsbD_eq fun k _ => ?_
  have hk := congrArg (fun p => p.coeff k) h
  simp only [coeff_toPoly] at hk
  cases ha : a.getLsbD k <;> cases hb : b.getLsbD k <;> simp_all

theorem toPoly_zero (n : Nat) : toPoly (0#n) = 0 := by
  ext k
  simp [coeff_toPoly]

theorem toPoly_one : toPoly (1 : Elem) = 1 := by
  ext k
  rw [coeff_toPoly, coeff_one]
  simp [BitVec.getLsbD_one, eq_comm]

theorem toPoly_xor {n : Nat} (a b : BitVec n) : toPoly (a ^^^ b) = toPoly a + toPoly b := by
  ext k
  simp only [coeff_toPoly, coeff_add, BitVec.getLsbD_xor]
  cases a.getLsbD k <;> cases b.getLsbD k <;> decide

/-- A shift that loses no bit multiplies by a power of `X`. -/
theorem toPoly_shiftLeft {n : Nat} (a : BitVec n) (m : Nat) (h : ∀ k, n ≤ k + m → a.getLsbD k = false) :
    toPoly (a <<< m) = toPoly a * X ^ m := by
  ext k
  rw [coeff_toPoly, coeff_mul_X_pow', coeff_toPoly, BitVec.getLsbD_shiftLeft]
  by_cases hk : k < n
  · by_cases hm : m ≤ k <;> simp [hk, hm]
  · by_cases hm : m ≤ k
    · simp [hk, hm, h (k - m) (by omega)]
    · simp [hk, hm]

/-! ### The two loops of R64 -/

theorem lowPoly_eq_toPoly {w n : Nat} (b : BitVec w) (h : ∀ k, n ≤ k → b.getLsbD k = false) :
    lowPoly b n = toPoly b := by
  ext k
  have hk : b.getLsbD k = true → k < n := fun hb => by
    by_contra hn
    exact absurd (hb.symm.trans (h k (by omega))) (by decide)
  rw [coeff_toPoly, coeff_lowPoly]
  exact if_congr (and_iff_right_of_imp hk) rfl rfl

theorem toPoly_clmul {a b : BitVec 32} {n : Nat} (hn : n ≤ 16) (ha : ∀ k, 16 ≤ k → a.getLsbD k = false) :
    toPoly (clmul a b n) = toPoly a * lowPoly b n := by
  induction n with
  | zero => simp [clmul, lowPoly, toPoly_zero]
  | succ n ih =>
    have hsum : lowPoly b (n + 1) = lowPoly b n + if b.getLsbD n then X ^ n else 0 :=
      Finset.sum_range_succ _ _
    rw [clmul, hsum, mul_add, ← ih (by omega)]
    cases hb : b.getLsbD n with
    | false => simp
    | true =>
      have hshift := toPoly_shiftLeft a n fun k hk => ha k (by omega)
      simp [toPoly_xor, hshift]

/-- The bits of a carry-less product of a `w`-bit and an `n`-bit factor end below `w + n`. -/
theorem getLsbD_clmul_of_le {a b : BitVec 32} {w n k : Nat} (ha : ∀ k, w ≤ k → a.getLsbD k = false)
    (hk : w + n ≤ k + 1) : (clmul a b n).getLsbD k = false := by
  induction n with
  | zero => simp [clmul]
  | succ n ih =>
    have hrest := ih (by omega)
    have hshift : (a <<< n).getLsbD k = false := by
      rw [BitVec.getLsbD_shiftLeft, ha (k - n) (by omega), Bool.and_false]
    rw [clmul]
    split
    · rw [BitVec.getLsbD_xor, hrest, hshift]; rfl
    · exact hrest

/-- A word below `2 ^ w` has no bit at `w` or above. -/
theorem getLsbD_of_toNat_lt {n w k : Nat} {a : BitVec n} (h : a.toNat < 2 ^ w) (hk : w ≤ k) :
    a.getLsbD k = false := by
  rw [← BitVec.testBit_toNat]
  exact Nat.testBit_lt_two_pow (lt_of_lt_of_le h (Nat.pow_le_pow_right (by decide) hk))

/-- The modulus of a field: `P_w` (R62); binary reduces nothing, so any modulus of degree 1 does. -/
def modulus : FieldId → BitVec 32
  | .binary => 2
  | f => poly f

/-- `P_w` has bit `w` and no bit above it. -/
theorem getLsbD_modulus (f : FieldId) : (modulus f).getLsbD (width f) = true ∧
    ∀ k, width f < k → (modulus f).getLsbD k = false := by
  have hlt : (modulus f).toNat < 2 ^ (width f + 1) := by cases f <;> decide
  exact ⟨by cases f <;> decide, fun k hk => getLsbD_of_toNat_lt hlt hk⟩

theorem width_pos (f : FieldId) : 0 < width f := by cases f <;> decide

theorem width_le (f : FieldId) : width f ≤ 16 := by cases f <;> decide

/-- The second loop of R64 stays in one class modulo `P_w` and ends below bit `w`. -/
theorem polyReduce_spec (f : FieldId) {r : BitVec 32} {n : Nat} (hn : width f + n ≤ 31)
    (hpoly : n = 0 ∨ poly f = modulus f) (hr : ∀ k, width f + n ≤ k → r.getLsbD k = false) :
    toPoly (modulus f) ∣ toPoly r - toPoly (polyReduce f r n) ∧
      ∀ k, width f ≤ k → (polyReduce f r n).getLsbD k = false := by
  induction n generalizing r with
  | zero => exact ⟨by simp [polyReduce], hr⟩
  | succ n ih =>
    have hmod : poly f = modulus f := hpoly.resolve_left (by omega)
    obtain ⟨htop, habove⟩ := getLsbD_modulus f
    rw [polyReduce, hmod]
    cases hbit : r.getLsbD (width f + n) with
    | false =>
      refine ih (by omega) (.inr hmod) fun k hk => ?_
      rcases Nat.eq_or_lt_of_le hk with rfl | hk
      · exact hbit
      · exact hr k (by omega)
    | true =>
      have hshift := toPoly_shiftLeft (modulus f) n fun k hk => habove k (by omega)
      obtain ⟨hdvd, hlow⟩ := ih (r := r ^^^ modulus f <<< n) (by omega) (.inr hmod) fun k hk => by
        rw [BitVec.getLsbD_xor, BitVec.getLsbD_shiftLeft]
        rcases Nat.eq_or_lt_of_le hk with rfl | hk
        · simp [hbit, htop]; omega
        · simp [hr k (by omega), habove (k - n) (by omega)]
      refine ⟨?_, hlow⟩
      rw [toPoly_xor, hshift] at hdvd
      have hsplit : toPoly r - toPoly (polyReduce f (r ^^^ modulus f <<< n) n) =
          (toPoly r + toPoly (modulus f) * X ^ n - toPoly (polyReduce f (r ^^^ modulus f <<< n) n)) -
            toPoly (modulus f) * X ^ n := by ring
      simp only [if_true]
      rw [hsplit]
      exact dvd_sub hdvd (dvd_mul_right _ _)

/-! ### Elements -/

theorem getLsbD_elemMask (f : FieldId) (k : Nat) : (elemMask f).getLsbD k = decide (k < width f) := by
  have h16 : ∀ k < 16, (elemMask f).getLsbD k = decide (k < width f) := by cases f <;> decide
  by_cases hk : k < 16
  · exact h16 k hk
  · have := width_le f
    rw [BitVec.getLsbD_of_ge _ _ (by omega)]
    simp; omega

theorem getLsbD_and_elemMask (f : FieldId) (a : Elem) (k : Nat) :
    (a &&& elemMask f).getLsbD k = (a.getLsbD k && decide (k < width f)) := by
  rw [BitVec.getLsbD_and, getLsbD_elemMask]

/-- An element of the field: its bits end below `w` (R61). -/
theorem lt_width_iff (f : FieldId) (a : Elem) : a.toNat < 2 ^ width f ↔ a &&& elemMask f = a := by
  have hmask : (elemMask f).toNat = 2 ^ width f - 1 := by cases f <;> decide
  rw [← BitVec.toNat_inj, BitVec.toNat_and, hmask, Nat.and_two_pow_sub_one_eq_mod]
  exact ⟨Nat.mod_eq_of_lt, fun h => h ▸ Nat.mod_lt _ (Nat.two_pow_pos _)⟩

/-- `gfMul` multiplies the polynomials of the low `w` bits modulo `P_w` (R64). -/
theorem gfMul_spec (f : FieldId) (a b : Elem) :
    toPoly (modulus f) ∣
      toPoly (a &&& elemMask f) * toPoly (b &&& elemMask f) - toPoly (gfMul f a b) ∧
    (gfMul f a b).toNat < 2 ^ width f := by
  have hw := width_le f
  have hpos := width_pos f
  have hbits : ∀ (c : Elem) k, ((c &&& elemMask f).setWidth 32).getLsbD k = (c &&& elemMask f).getLsbD k := by
    intro c k
    rw [BitVec.getLsbD_setWidth]
    by_cases hk : k < 32
    · simp [hk]
    · simp [hk, BitVec.getLsbD_of_ge (c &&& elemMask f) k (by omega)]
  have hhigh : ∀ (c : Elem) k, width f ≤ k → ((c &&& elemMask f).setWidth 32).getLsbD k = false := by
    intro c k hk
    rw [hbits, getLsbD_and_elemMask]
    simp; omega
  have hpoly : width f - 1 = 0 ∨ poly f = modulus f := by cases f <;> decide
  have hprod := toPoly_clmul (b := (b &&& elemMask f).setWidth 32) hw
    fun k hk => hhigh a k (hw.trans hk)
  rw [lowPoly_eq_toPoly _ (hhigh b), toPoly_congr (hbits a), toPoly_congr (hbits b)] at hprod
  obtain ⟨hdvd, hlow⟩ := polyReduce_spec f (n := width f - 1)
    (r := clmul ((a &&& elemMask f).setWidth 32) ((b &&& elemMask f).setWidth 32) (width f))
    (by omega) hpoly fun k hk => getLsbD_clmul_of_le (hhigh a) (by omega)
  have hcut : ∀ k, (gfMul f a b).getLsbD k =
      (polyReduce f (clmul ((a &&& elemMask f).setWidth 32) ((b &&& elemMask f).setWidth 32) (width f))
        (width f - 1)).getLsbD k := by
    intro k
    rw [gfMul, BitVec.getLsbD_setWidth]
    by_cases hk : k < 16
    · simp [hk]
    · simp only [hk, decide_false, Bool.false_and, hlow k (by omega)]
  constructor
  · rw [toPoly_congr hcut, ← hprod]
    exact hdvd
  · rw [lt_width_iff]
    refine BitVec.eq_of_getLsbD_eq fun k _ => ?_
    rw [getLsbD_and_elemMask]
    by_cases hk : k < width f
    · simp [hk]
    · rw [hcut, hlow k (by omega), Bool.false_and]

theorem gfMul_lt (f : FieldId) (a b : Elem) : (gfMul f a b).toNat < 2 ^ width f := (gfMul_spec f a b).2

theorem gfAdd_lt {f : FieldId} {a b : Elem} (ha : a.toNat < 2 ^ width f) (hb : b.toNat < 2 ^ width f) :
    (gfAdd a b).toNat < 2 ^ width f := by
  rw [gfAdd, BitVec.toNat_xor]
  exact Nat.xor_lt_two_pow ha hb

/-! ### The map into the polynomials modulo `P_w` -/

/-- The class of an element modulo `P_w`. -/
noncomputable def residue (f : FieldId) (a : Elem) : AdjoinRoot (toPoly (modulus f)) :=
  AdjoinRoot.mk _ (toPoly (a &&& elemMask f))

theorem residue_add (f : FieldId) (a b : Elem) : residue f (gfAdd a b) = residue f a + residue f b := by
  have hdistrib : (a ^^^ b) &&& elemMask f = (a &&& elemMask f) ^^^ (b &&& elemMask f) := by
    refine BitVec.eq_of_getLsbD_eq fun k _ => ?_
    simp only [BitVec.getLsbD_and, BitVec.getLsbD_xor]
    cases (elemMask f).getLsbD k <;> simp
  rw [residue, gfAdd, hdistrib, toPoly_xor, map_add]
  rfl

theorem residue_mul (f : FieldId) (a b : Elem) : residue f (gfMul f a b) = residue f a * residue f b := by
  obtain ⟨hdvd, hlt⟩ := gfMul_spec f a b
  rw [residue, (lt_width_iff f _).mp hlt, residue, residue, ← map_mul, eq_comm, AdjoinRoot.mk_eq_mk]
  exact hdvd

theorem residue_zero (f : FieldId) : residue f 0 = 0 := by
  rw [residue, BitVec.ofNat_eq_ofNat, BitVec.zero_and, toPoly_zero, map_zero]

theorem residue_one (f : FieldId) : residue f 1 = 1 := by
  have hone : (1 : Elem) &&& elemMask f = 1 := by cases f <;> decide
  rw [residue, hone, toPoly_one, map_one]

theorem degree_modulus (f : FieldId) : (width f : WithBot ℕ) ≤ (toPoly (modulus f)).degree := by
  refine le_degree_of_ne_zero ?_
  rw [coeff_toPoly, (getLsbD_modulus f).1]
  exact one_ne_zero

/-- Two different elements differ modulo `P_w`: their difference has a degree below `w`. -/
theorem residue_injective {f : FieldId} {a b : Elem} (ha : a.toNat < 2 ^ width f) (hb : b.toNat < 2 ^ width f)
    (h : residue f a = residue f b) : a = b := by
  rw [lt_width_iff] at ha hb
  rw [residue, residue, ha, hb, AdjoinRoot.mk_eq_mk] at h
  refine toPoly_injective (sub_eq_zero.mp (eq_zero_of_dvd_of_degree_lt h (lt_of_lt_of_le ?_ (degree_modulus f))))
  rw [degree_lt_iff_coeff_zero]
  intro k hk
  have hbit : ∀ c : Elem, c &&& elemMask f = c → c.getLsbD k = false := fun c hc => by
    rw [← hc, getLsbD_and_elemMask]
    simp; omega
  simp [coeff_toPoly, hbit a ha, hbit b hb]

/-! ### The inverse (R65) -/

theorem gfPow_lt (f : FieldId) {r : Elem} (hr : r.toNat < 2 ^ width f) (base : Elem) (e fuel : Nat) :
    (gfPow f r base e fuel).toNat < 2 ^ width f := by
  induction fuel generalizing r base e with
  | zero => exact hr
  | succ fuel ih =>
    rw [gfPow]
    split
    · exact hr
    · split
      · exact ih (gfMul_lt f r base) _ _
      · exact ih hr _ _

/-- The loop of R65 is square-and-multiply. -/
theorem residue_gfPow (f : FieldId) (r base : Elem) {e fuel : Nat} (he : e < 2 ^ fuel) :
    residue f (gfPow f r base e fuel) = residue f r * residue f base ^ e := by
  induction fuel generalizing r base e with
  | zero =>
    obtain rfl : e = 0 := by omega
    simp [gfPow]
  | succ fuel ih =>
    rw [gfPow]
    split
    · next h0 => simp [h0]
    have hhalf : e / 2 < 2 ^ fuel := by omega
    have hsquare : (residue f base * residue f base) ^ (e / 2) = residue f base ^ (2 * (e / 2)) := by
      rw [← pow_two, ← pow_mul]
    split
    · next hodd =>
      have hsplit : residue f base ^ e = residue f base * residue f base ^ (2 * (e / 2)) := by
        rw [← pow_succ']
        congr 1
        omega
      rw [ih _ _ hhalf, residue_mul, residue_mul, hsquare, hsplit, mul_assoc]
    · next heven =>
      have hdouble : 2 * (e / 2) = e := by omega
      rw [ih _ _ hhalf, residue_mul, hsquare, hdouble]

/-- An element whose powers are all the nonzero elements: the class of `X`, which is 1 in binary. -/
def generator : FieldId → Elem
  | .binary => 1
  | _ => 2

/-- The power of the generator, by the loop of R65. -/
def genPow (f : FieldId) (k : Nat) : Elem := gfPow f 1 (generator f) k 16

theorem one_lt_width (f : FieldId) : (1 : Elem).toNat < 2 ^ width f := by cases f <;> decide

theorem genPow_lt (f : FieldId) (k : Nat) : (genPow f k).toNat < 2 ^ width f :=
  gfPow_lt f (one_lt_width f) _ _ _

theorem residue_genPow (f : FieldId) {k : Nat} (hk : k < 2 ^ 16) :
    residue f (genPow f k) = residue f (generator f) ^ k := by
  rw [genPow, residue_gfPow f _ _ hk, residue_one, one_mul]

/-- The prime factors of `2 ^ w - 1` are among those of `2 ^ 16 - 1 = 3 * 5 * 17 * 257`. -/
theorem prime_dvd_order (f : FieldId) {p : Nat} (hp : p.Prime) (hdvd : p ∣ 2 ^ width f - 1) :
    p ∈ [3, 5, 17, 257] := by
  have hall : 2 ^ width f - 1 ∣ 3 * 5 * 17 * 257 := by cases f <;> decide
  have hprimes : Nat.Prime 3 ∧ Nat.Prime 5 ∧ Nat.Prime 17 ∧ Nat.Prime 257 := by norm_num
  obtain ⟨h3, h5, h17, h257⟩ := hprimes
  have hmem := hdvd.trans hall
  rw [hp.dvd_mul, hp.dvd_mul, hp.dvd_mul, Nat.prime_dvd_prime_iff_eq hp h3, Nat.prime_dvd_prime_iff_eq hp h5,
    Nat.prime_dvd_prime_iff_eq hp h17, Nat.prime_dvd_prime_iff_eq hp h257] at hmem
  simpa [or_assoc] using hmem

set_option maxRecDepth 20000 in
theorem genPow_order (f : FieldId) : genPow f (2 ^ width f - 1) = 1 := by cases f <;> decide

set_option maxRecDepth 20000 in
/-- No proper divisor of `2 ^ w - 1` is the generator's order. -/
theorem genPow_order_div_ne (f : FieldId) :
    ∀ p ∈ [3, 5, 17, 257], p ∣ 2 ^ width f - 1 → genPow f ((2 ^ width f - 1) / p) ≠ 1 := by
  cases f <;> decide

theorem order_lt (f : FieldId) : 0 < 2 ^ width f - 1 ∧ 2 ^ width f - 1 < 2 ^ 16 := by cases f <;> decide

theorem orderOf_generator (f : FieldId) : orderOf (residue f (generator f)) = 2 ^ width f - 1 := by
  obtain ⟨hpos, hlt⟩ := order_lt f
  refine orderOf_eq_of_pow_and_pow_div_prime hpos ?_ fun p hp hdvd hone => ?_
  · rw [← residue_genPow f hlt, genPow_order, residue_one]
  · rw [← residue_genPow f (lt_of_le_of_lt (Nat.div_le_self _ _) hlt), ← residue_one f] at hone
    exact genPow_order_div_ne f p (prime_dvd_order f hp hdvd) hdvd
      (residue_injective (genPow_lt f _) (one_lt_width f) hone)

theorem genPow_ne_zero (f : FieldId) {k : Nat} (hk : k < 2 ^ width f - 1) : genPow f k ≠ 0 := by
  obtain ⟨-, hlt⟩ := order_lt f
  intro h0
  have hpow := residue_genPow f (hk.trans hlt)
  have hone : residue f (generator f) ^ (2 ^ width f - 1) = residue f 1 := by
    rw [← residue_genPow f hlt, genPow_order]
  have hsplit : 2 ^ width f - 1 = k + (2 ^ width f - 1 - k) := by omega
  rw [hsplit, pow_add, ← hpow, h0, residue_zero, zero_mul, ← residue_zero f] at hone
  exact absurd (residue_injective (Nat.two_pow_pos _) (one_lt_width f) hone) (by decide)

/-- There are as many powers of the generator as nonzero elements, so each nonzero element is one. -/
theorem exists_genPow (f : FieldId) {a : Elem} (ha : a.toNat < 2 ^ width f) (h0 : a ≠ 0) :
    ∃ k < 2 ^ width f - 1, genPow f k = a := by
  obtain ⟨-, hlt⟩ := order_lt f
  have hmaps : Set.MapsTo (fun k => (genPow f k).toNat) (Finset.range (2 ^ width f - 1))
      (Finset.Ico 1 (2 ^ width f)) := fun k hk => by
    rw [Finset.coe_range, Set.mem_Iio] at hk
    rw [Finset.coe_Ico, Set.mem_Ico]
    exact ⟨Nat.pos_of_ne_zero fun h => genPow_ne_zero f hk (BitVec.eq_of_toNat_eq h), genPow_lt f k⟩
  have hinj : Set.InjOn (fun k => (genPow f k).toNat) (Finset.range (2 ^ width f - 1)) := fun k hk l hl h => by
    rw [Finset.coe_range, Set.mem_Iio] at hk hl
    have hpow := congrArg (residue f) (BitVec.eq_of_toNat_eq h)
    rw [residue_genPow f (hk.trans hlt), residue_genPow f (hl.trans hlt)] at hpow
    rw [← orderOf_generator f] at hk hl
    exact pow_injOn_Iio_orderOf hk hl hpow
  have hsurj := Finset.surjOn_of_injOn_of_card_le _ hmaps hinj (by simp)
  have hmem : a.toNat ∈ (Finset.Ico 1 (2 ^ width f) : Set Nat) := by
    rw [Finset.coe_Ico, Set.mem_Ico]
    exact ⟨Nat.pos_of_ne_zero fun h => h0 (BitVec.eq_of_toNat_eq h), ha⟩
  obtain ⟨k, hk, hka⟩ := hsurj hmem
  rw [Finset.coe_range, Set.mem_Iio] at hk
  exact ⟨k, hk, BitVec.eq_of_toNat_eq hka⟩

/-- The product of a nonzero element and its inverse is 1 (R65). -/
theorem gfMul_gfInv (f : FieldId) {a : Elem} (ha : a.toNat < 2 ^ width f) (h0 : a ≠ 0) :
    gfMul f a (gfInv f a) = 1 := by
  obtain ⟨k, hk, rfl⟩ := exists_genPow f ha h0
  obtain ⟨hpos, hlt⟩ := order_lt f
  have hexp : 2 ^ width f - 2 < 2 ^ width f := by omega
  have hsucc : 2 ^ width f - 2 + 1 = 2 ^ width f - 1 := by omega
  refine residue_injective (gfMul_lt f _ _) (one_lt_width f) ?_
  rw [residue_mul, gfInv, residue_gfPow f _ _ hexp, residue_one, one_mul, ← pow_succ', hsucc,
    residue_genPow f (hk.trans hlt), ← pow_mul, mul_comm, pow_mul, ← orderOf_generator f, pow_orderOf_eq_one,
    one_pow]

/-! ### The laws that the elimination uses (R76) -/

theorem gfMul_comm (f : FieldId) (a b : Elem) : gfMul f a b = gfMul f b a :=
  residue_injective (gfMul_lt f _ _) (gfMul_lt f _ _) (by rw [residue_mul, residue_mul, mul_comm])

theorem gfMul_zero (f : FieldId) (a : Elem) : gfMul f a 0 = 0 :=
  residue_injective (gfMul_lt f _ _) (Nat.two_pow_pos _) (by rw [residue_mul, residue_zero, mul_zero])

theorem zero_gfMul (f : FieldId) (a : Elem) : gfMul f 0 a = 0 := by rw [gfMul_comm, gfMul_zero]

theorem gfMul_one {f : FieldId} {a : Elem} (ha : a.toNat < 2 ^ width f) : gfMul f a 1 = a :=
  residue_injective (gfMul_lt f _ _) ha (by rw [residue_mul, residue_one, mul_one])

theorem gfAdd_zero (a : Elem) : gfAdd a 0 = a := by simp [gfAdd]

theorem zero_gfAdd (a : Elem) : gfAdd 0 a = a := by simp [gfAdd]

theorem gfAdd_self (a : Elem) : gfAdd a a = 0 := by simp [gfAdd]

end Sys2Proof.Machine
end

section
/-! Packed buffers (R66 to R69) and linear combinations (R77): the elements of a buffer are runs of its bits, the
vector operations act on each element, and two buffers are equal when their elements are. -/

namespace Sys2Proof.Machine

/-! ### The bits of a buffer -/

/-- Bit `m` of a buffer, counted from the low bit of its first byte. -/
def bufBit (buf : List Byte) (m : Nat) : Bool := (buf.getD (m / 8) 0).getLsbD (m % 8)

/-- Element `k` is the bits `k * w` to `k * w + w - 1` (R66). -/
theorem getLsbD_elemAt (f : FieldId) (buf : List Byte) (k b : Nat) :
    (elemAt f buf k).getLsbD b = (decide (b < width f) && bufBit buf (k * width f + b)) := by
  cases f with
  | binary =>
    simp only [elemAt, width, bufBit]
    by_cases hb : b < 1
    · obtain rfl : b = 0 := by omega
      simp
      omega
    · simp [hb]
      omega
  | binary4 =>
    simp only [elemAt, width, bufBit]
    by_cases hb : b < 4
    · have hbyte : (k * 4 + b) / 8 = k / 2 := by omega
      rw [hbyte]
      split
      · have hbit : (k * 4 + b) % 8 = b := by omega
        simp [hb, hbit]
        omega
      · have hbit : (k * 4 + b) % 8 = 4 + b := by omega
        simp [hb, hbit]
        omega
    · split <;> simp [hb]
  | binary8 =>
    simp only [elemAt, width, bufBit]
    by_cases hb : b < 8
    · have hbyte : (k * 8 + b) / 8 = k := by omega
      have hbit : (k * 8 + b) % 8 = b := by omega
      simp [hb, hbyte, hbit]
      omega
    · rw [BitVec.getLsbD_setWidth, BitVec.getLsbD_of_ge _ b (by omega)]
      simp [hb]
  | binary16 =>
    simp only [elemAt, width, bufBit, BitVec.getLsbD_append]
    by_cases hb : b < 8
    · have hbyte : (k * 16 + b) / 8 = 2 * k := by omega
      have hbit : (k * 16 + b) % 8 = b := by omega
      have hb16 : b < 16 := by omega
      simp [hb, hb16, hbyte, hbit]
    · by_cases hb16 : b < 16
      · have hbyte : (k * 16 + b) / 8 = 2 * k + 1 := by omega
        have hbit : (k * 16 + b) % 8 = b - 8 := by omega
        simp [hb, hb16, hbyte, hbit]
      · rw [BitVec.getLsbD_of_ge (buf.getD (2 * k + 1) 0) (b - 8) (by omega)]
        simp [hb, hb16]

theorem elemAt_lt (f : FieldId) (buf : List Byte) (k : Nat) : (elemAt f buf k).toNat < 2 ^ width f := by
  rw [lt_width_iff]
  refine BitVec.eq_of_getLsbD_eq fun b _ => ?_
  rw [getLsbD_and_elemMask, getLsbD_elemAt]
  cases decide (b < width f) <;> simp

/-- A buffer that holds whole elements only (R67): in binary16 its length is even. -/
def WholeElems (f : FieldId) (n : Nat) : Prop := f = .binary16 → n % 2 = 0

theorem numElems_mul_width {f : FieldId} {n : Nat} (h : WholeElems f n) : numElems f n * width f = 8 * n := by
  cases f with
  | binary16 => have := h rfl; simp only [numElems, width]; omega
  | _ => simp only [numElems, width]; omega

/-- Buffers of whole elements are equal when their elements are. -/
theorem buffer_ext {f : FieldId} {as bs : List Byte} (hlen : as.length = bs.length)
    (hwhole : WholeElems f as.length) (h : ∀ k < numElems f as.length, elemAt f as k = elemAt f bs k) :
    as = bs := by
  have hpos := width_pos f
  have hbits : ∀ m < 8 * as.length, bufBit as m = bufBit bs m := by
    intro m hm
    rw [← numElems_mul_width hwhole] at hm
    have hk : m / width f < numElems f as.length := Nat.div_lt_of_lt_mul (by rwa [Nat.mul_comm])
    have hb := Nat.mod_lt m hpos
    have hsplit : m / width f * width f + m % width f = m := Nat.div_add_mod' m (width f)
    have helem := congrArg (fun e : Elem => e.getLsbD (m % width f)) (h _ hk)
    simpa [getLsbD_elemAt, hb, hsplit] using helem
  refine List.ext_getElem hlen fun i hi hi' => BitVec.eq_of_getLsbD_eq fun b hb => ?_
  have hbit := hbits (8 * i + b) (by omega)
  have hdiv : (8 * i + b) / 8 = i := by omega
  have hmod : (8 * i + b) % 8 = b := by omega
  simpa [bufBit, hdiv, hmod, hi, hi'] using hbit

/-! ### The vector operations on each element -/

/-- The bits that `packBits` puts into a byte. -/
theorem bitElem_packBits (g : Nat → Elem) {j : Nat} (hj : j < 8) (hg : (g j).toNat < 2 ^ width .binary) :
    bitElem (packBits g) j = g j := by
  have hhigh : ∀ b, 1 ≤ b → (g j).getLsbD b = false := fun _ hb => getLsbD_of_toNat_lt hg hb
  have hlow : (packBits g).getLsbD j = (g j).getLsbD 0 := by
    simp only [packBits, BitVec.getLsbD_append, BitVec.getLsbD_setWidth]
    interval_cases j <;> simp
  refine BitVec.eq_of_getLsbD_eq fun b _ => ?_
  rw [bitElem, BitVec.getLsbD_and, BitVec.getLsbD_ushiftRight, BitVec.getLsbD_setWidth]
  by_cases hb : b = 0
  · subst hb
    rw [Nat.add_zero, hlow]
    simp
    omega
  · rw [hhigh b (by omega)]
    simp [hb]

theorem elemAt_cons_cons (a0 a1 : Byte) (as : List Byte) (k : Nat) :
    elemAt .binary16 (a0 :: a1 :: as) (k + 1) = elemAt .binary16 as k := by
  simp [elemAt, Nat.mul_add]

theorem elemAt_zipPairs (op : Elem → Elem → Elem) {as bs : List Byte} (hlen : as.length = bs.length) {k : Nat}
    (hk : 2 * k + 1 < as.length) :
    elemAt .binary16 (zipPairs op as bs) k = op (elemAt .binary16 as k) (elemAt .binary16 bs k) := by
  induction as, bs using zipPairs.induct generalizing k with
  | case1 a0 a1 as b0 b1 bs ih =>
    cases k with
    | zero =>
      simp only [zipPairs, elemAt]
      refine BitVec.eq_of_getLsbD_eq fun b hb => ?_
      simp only [Nat.mul_zero, Nat.zero_add, List.getD_cons_succ, List.getD_cons_zero, BitVec.getLsbD_append,
        BitVec.getLsbD_setWidth, BitVec.getLsbD_ushiftRight]
      by_cases h8 : b < 8
      · simp [h8]
      · have h16 : b - 8 < 8 := by omega
        have hback : 8 + (b - 8) = b := by omega
        simp [h8, h16, hback]
    | succ k =>
      rw [zipPairs, elemAt_cons_cons, elemAt_cons_cons, elemAt_cons_cons]
      simp only [List.length_cons] at hlen hk
      exact ih (by omega) (by omega)
  | case2 as bs h =>
    match as, bs, h with
    | a0 :: a1 :: as, b0 :: b1 :: bs, h => exact (h a0 a1 as b0 b1 bs rfl rfl).elim
    | [], _, _ => simp at hk
    | [_], _, _ => simp at hk
    | _ :: _ :: _, [], _ => simp at hlen
    | _ :: _ :: _, [_], _ => simp at hlen

theorem getD_zipWith (g : Byte → Byte → Byte) {as bs : List Byte} (hlen : as.length = bs.length) {i : Nat}
    (hi : i < as.length) : (List.zipWith g as bs).getD i 0 = g (as.getD i 0) (bs.getD i 0) := by
  have hi' : i < bs.length := by omega
  simp [List.getD, hi, hi']

/-- The element-by-element reading of `zipElems` (R66). -/
theorem elemAt_zipElems (f : FieldId) (op : Elem → Elem → Elem) {as bs : List Byte}
    (hlen : as.length = bs.length) {k : Nat} (hk : k < numElems f as.length)
    (hop : (op (elemAt f as k) (elemAt f bs k)).toNat < 2 ^ width f) :
    elemAt f (zipElems f op as bs) k = op (elemAt f as k) (elemAt f bs k) := by
  cases f with
  | binary =>
    simp only [numElems, width] at hk
    change bitElem ((List.zipWith _ as bs).getD (k / 8) 0) (k % 8) = _
    rw [getD_zipWith _ hlen (by omega)]
    exact bitElem_packBits (fun j => op (bitElem (as.getD (k / 8) 0) j) (bitElem (bs.getD (k / 8) 0) j))
      (by omega) hop
  | binary4 =>
    simp only [numElems, width] at hk
    have hget := fun g => getD_zipWith g hlen (i := k / 2) (by omega)
    have hhigh : ∀ b, 4 ≤ b → (op (elemAt .binary4 as k) (elemAt .binary4 bs k)).getLsbD b = false :=
      fun _ hb => getLsbD_of_toNat_lt hop hb
    refine BitVec.eq_of_getLsbD_eq fun b hb => ?_
    rw [elemAt, zipElems, hget]
    by_cases h4 : b < 4
    · have hback : 4 + b - 4 = b := by omega
      split
      · next hpar =>
        simp only [elemAt, hpar, if_true, BitVec.getLsbD_setWidth, BitVec.getLsbD_extractLsb',
          BitVec.getLsbD_append]
        simp [h4, hb]
      · next hpar =>
        simp only [elemAt, hpar, if_false, BitVec.getLsbD_setWidth, BitVec.getLsbD_extractLsb',
          BitVec.getLsbD_append]
        simp [h4, hb, hback]
    · rw [hhigh b (by omega)]
      split <;> simp [h4]
  | binary8 =>
    simp only [numElems, width] at hk
    rw [elemAt, zipElems, getD_zipWith _ hlen (by omega)]
    apply BitVec.eq_of_toNat_eq
    have hlt : (op ((as.getD k 0).setWidth 16) ((bs.getD k 0).setWidth 16)).toNat < 256 := hop
    simp only [elemAt, BitVec.toNat_setWidth]
    omega
  | binary16 =>
    simp only [numElems, width] at hk
    exact elemAt_zipPairs op hlen (by omega)

theorem elemAt_vecMAdd (f : FieldId) {dst src : List Byte} (e : Elem) (hlen : dst.length = src.length) {k : Nat}
    (hk : k < numElems f dst.length) :
    elemAt f (vecMAdd f dst src e) k = gfAdd (elemAt f dst k) (gfMul f e (elemAt f src k)) :=
  elemAt_zipElems f _ hlen hk (gfAdd_lt (elemAt_lt f dst k) (gfMul_lt f _ _))

theorem elemAt_vecScale (f : FieldId) (buf : List Byte) (e : Elem) {k : Nat} (hk : k < numElems f buf.length) :
    elemAt f (vecScale f buf e) k = gfMul f e (elemAt f buf k) :=
  elemAt_zipElems f _ rfl hk (gfMul_lt f _ _)

theorem elemAt_replicate_zero (f : FieldId) (n k : Nat) : elemAt f (List.replicate n 0) k = 0 := by
  refine BitVec.eq_of_getLsbD_eq fun b _ => ?_
  have hbyte : ∀ m, (List.replicate n (0 : Byte)).getD m 0 = 0 := fun m => by
    simp only [List.getD_eq_getElem?_getD, List.getElem?_replicate]
    split <;> rfl
  rw [getLsbD_elemAt, bufBit, hbyte]
  simp

/-! ### Linear combinations modulo `P_w` -/

theorem residue_elemAt_vecMAdd (f : FieldId) {dst src : List Byte} (e : Elem) (hlen : dst.length = src.length)
    {k : Nat} (hk : k < numElems f dst.length) :
    residue f (elemAt f (vecMAdd f dst src e) k) =
      residue f (elemAt f dst k) + residue f e * residue f (elemAt f src k) := by
  rw [elemAt_vecMAdd f e hlen hk, residue_add, residue_mul]

theorem residue_elemAt_foldl_vecMAdd (f : FieldId) {n : Nat} (terms : List (Elem × List Byte)) {acc : List Byte}
    (hacc : acc.length = n) (hlen : ∀ t ∈ terms, t.2.length = n) {k : Nat} (hk : k < numElems f n) :
    residue f (elemAt f (terms.foldl (fun acc t => vecMAdd f acc t.2 t.1) acc) k) =
      residue f (elemAt f acc k) + (terms.map fun t => residue f t.1 * residue f (elemAt f t.2 k)).sum := by
  induction terms generalizing acc with
  | nil => simp
  | cons t terms ih =>
    have ht : acc.length = t.2.length := by rw [hacc, hlen t (by simp)]
    rw [List.foldl_cons, ih ((length_vecMAdd f t.1 ht).trans hacc) fun u hu => hlen u (by simp [hu]),
      residue_elemAt_vecMAdd f t.1 ht (by rwa [hacc]), List.map_cons, List.sum_cons, add_assoc]

/-- Element `k` of a linear combination is the sum of the products (R77), as residues. -/
theorem residue_elemAt_linComb (f : FieldId) {n : Nat} {terms : List (Elem × List Byte)}
    (hlen : ∀ t ∈ terms, t.2.length = n) {k : Nat} (hk : k < numElems f n) :
    residue f (elemAt f (linComb f n terms) k) =
      (terms.map fun t => residue f t.1 * residue f (elemAt f t.2 k)).sum := by
  rw [linComb, residue_elemAt_foldl_vecMAdd f terms (by simp) hlen hk, elemAt_replicate_zero, residue_zero,
    zero_add]

/-- Buffers of whole elements are equal when the residues of their elements are. -/
theorem buffer_ext_residue {f : FieldId} {as bs : List Byte} {n : Nat} (ha : as.length = n) (hb : bs.length = n)
    (hwhole : WholeElems f n) (h : ∀ k < numElems f n, residue f (elemAt f as k) = residue f (elemAt f bs k)) :
    as = bs := by
  subst ha
  exact buffer_ext hb.symm hwhole fun k hk => residue_injective (elemAt_lt f _ _) (elemAt_lt f _ _) (h k hk)

end Sys2Proof.Machine
end

section
/-! Operations on whole rows (R120 to R125). A live row is its coefficients over the live columns, its payload and its
slot; storing a row and one pass of back-substitution replace one live row and leave every other row, every cell that
belongs to no live index and every address alone. -/

namespace Sys2Proof.Machine

variable {s t u : State}

/-! ### Rows as lists over the live columns -/

@[simp] theorem State.setRow_lower (i : Nat) (cs : List Elem) : (s.setRow i cs).lower = s.lower := by
  rw [State.setRow_eq]
@[simp] theorem State.setRow_upper (i : Nat) (cs : List Elem) : (s.setRow i cs).upper = s.upper := by
  rw [State.setRow_eq]
@[simp] theorem State.setRow_cap (i : Nat) (cs : List Elem) : (s.setRow i cs).cap = s.cap := by
  rw [State.setRow_eq]
@[simp] theorem State.setRow_slots (i : Nat) (cs : List Elem) : (s.setRow i cs).slots = s.slots := by
  rw [State.setRow_eq]

theorem State.length_row (s : State) (r : Nat) : (s.row r).length = s.nsyms := by
  rw [State.row, List.length_map, State.live_length]

/-- A list over the live columns reads, at a live column, what a function listed there says. -/
theorem State.stagedCoef_map (s : State) (c : Nat → Elem) {j : Nat} (hj : s.isLive j = true) :
    s.stagedCoef (s.live.map c) j = c j := by
  rw [State.isLive_iff] at hj
  have hlt : j - s.lower.toNat < s.live.length := by rw [State.live_length, State.nsyms]; omega
  have hback : s.lower.toNat + (j - s.lower.toNat) = j := by omega
  rw [State.stagedCoef, List.getD_eq_getElem _ _ (by rwa [List.length_map]), List.getElem_map,
    State.live_getElem, hback]

theorem State.stagedCoef_row (s : State) (r : Nat) {j : Nat} (hj : s.isLive j = true) :
    s.stagedCoef (s.row r) j = s.coefOf r j := s.stagedCoef_map _ hj

/-- Lists over the live columns are equal when they read the same at each. -/
theorem State.coefs_ext {cs ds : List Elem} (hc : cs.length = s.nsyms) (hd : ds.length = s.nsyms)
    (h : ∀ j, s.isLive j = true → s.stagedCoef cs j = s.stagedCoef ds j) : cs = ds := by
  refine List.ext_getElem (hc.trans hd.symm) fun k hk hk' => ?_
  have hlive : s.isLive (s.lower.toNat + k) = true := by
    rw [State.isLive_iff]
    rw [hc, State.nsyms] at hk
    omega
  have hsub : s.lower.toNat + k - s.lower.toNat = k := by omega
  have := h _ hlive
  rwa [State.stagedCoef, State.stagedCoef, hsub, List.getD_eq_getElem _ _ hk, List.getD_eq_getElem _ _ hk'] at this

theorem State.row_setRow (hb : s.BoundsOk) {v r : Nat} (hv : s.isLive v = true) (hr : s.isLive r = true)
    {cs : List Elem} (hcs : cs.length = s.nsyms) : (s.setRow v cs).row r = if r = v then cs else s.row r := by
  have hlive : (s.setRow v cs).live = s.live := State.live_congr (by simp) (by simp)
  refine State.coefs_ext (s := s) ?_ ?_ fun j hj => ?_
  · rw [State.row, List.length_map, hlive, State.live_length]
  · split
    · exact hcs
    · exact s.length_row r
  · rw [State.row, hlive, State.stagedCoef_map s _ hj, State.coefOf_setRow hb.fits hv hr hj hcs]
    split
    · rfl
    · rw [State.stagedCoef_row s r hj]

/-! ### A live row replaced -/

/-- No live index uses the physical slot `p`. -/
def State.Dead (s : State) (p : Nat) : Prop := ∀ i, s.isLive i = true → s.phys i ≠ p

/-- The row, the payload and the slot of a live index replaced. -/
def State.replaceRow (s : State) (v : Nat) (cs : List Elem) (pl : List Byte) (sl : Slot) : State :=
  ((s.setRow v cs).setPayload v pl).setSlot v sl

/-- What a live index stands for: its coefficients, its payload and its slot. -/
structure RowView where
  coefs : List Elem
  payload : List Byte
  slot : Slot

def State.view (s : State) (r : Nat) : RowView := ⟨s.row r, s.payload r, s.slot r⟩

theorem State.setRow_slot (v r : Nat) (cs : List Elem) : (s.setRow v cs).slot r = s.slot r :=
  State.slot_congr (by simp) (by simp) r

theorem State.replaceRow_eq (s : State) (v : Nat) (cs : List Elem) (pl : List Byte) (sl : Slot) :
    s.replaceRow v cs pl sl =
      { s with coef := (s.setRow v cs).coef, mem := s.mem.writeBytes (s.slot v).addr.toNat pl,
               slots := tablePut natLt Slot.empty s.slots (s.phys v) sl } := by
  unfold State.replaceRow State.setPayload
  rw [State.setRow_slot, State.setRow_eq]
  rfl

theorem State.slotAt_replaceRow (v p : Nat) (cs : List Elem) (pl : List Byte) (sl : Slot) :
    (s.replaceRow v cs pl sl).slotAt p = if p = s.phys v then sl else s.slotAt p := by
  rw [State.replaceRow_eq]
  exact tableGet_put _ _ _ _ _ _

theorem State.slot_replaceRow (hb : s.BoundsOk) {v r : Nat} (hv : s.isLive v = true) (hr : s.isLive r = true)
    (cs : List Elem) (pl : List Byte) (sl : Slot) :
    (s.replaceRow v cs pl sl).slot r = if r = v then sl else s.slot r := by
  have hphys : (s.replaceRow v cs pl sl).phys r = s.phys r := State.phys_congr (by rw [State.replaceRow_eq]) r
  rw [State.slot, hphys, State.slotAt_replaceRow]
  exact if_congr ⟨State.phys_inj hb.fits hr hv, fun h => h ▸ rfl⟩ rfl rfl

/-- Rows are stored into and combined within their own buffers, so every address stays (R30). -/
theorem State.addr_replaceRow {v : Nat} (cs : List Elem) (pl : List Byte) {sl : Slot}
    (haddr : sl.addr = (s.slot v).addr) (i : Nat) :
    ((s.replaceRow v cs pl sl).slot i).addr = (s.slot i).addr := by
  have hphys : (s.replaceRow v cs pl sl).phys i = s.phys i := State.phys_congr (by rw [State.replaceRow_eq]) i
  rw [State.slot, hphys, State.slotAt_replaceRow]
  split
  · next h => rw [haddr, State.slot, State.slot, h]
  · rfl

theorem State.payload_replaceRow (hbuf : s.BuffersOk) {v r : Nat} (hv : s.isLive v = true)
    (hr : s.isLive r = true) (cs : List Elem) {pl : List Byte} (hpl : pl.length = s.symBytes) {sl : Slot}
    (haddr : sl.addr = (s.slot v).addr) :
    (s.replaceRow v cs pl sl).payload r = if r = v then pl else s.payload r := by
  have hmem : (s.replaceRow v cs pl sl).mem = s.mem.writeBytes (s.slot v).addr.toNat pl := by
    rw [State.replaceRow_eq]
  have hbytes : (s.replaceRow v cs pl sl).symBytes = s.symBytes := by rw [State.replaceRow_eq]; rfl
  rw [State.payload, State.memRead, hmem, hbytes, State.addr_replaceRow cs pl haddr]
  split
  · next h => rw [h, ← hpl, Memory.readBytes_writeBytes_same]
  · next h =>
    have hfree := hbuf.disjoint v r hv hr (Ne.symm h)
    rw [← hpl] at hfree
    exact Memory.readBytes_writeBytes_disjoint _ _ _ _ _ (by rwa [hpl] at hfree ⊢)

theorem State.view_replaceRow (hb : s.BoundsOk) (hbuf : s.BuffersOk) {v r : Nat} (hv : s.isLive v = true)
    (hr : s.isLive r = true) {cs : List Elem} (hcs : cs.length = s.nsyms) {pl : List Byte}
    (hpl : pl.length = s.symBytes) {sl : Slot} (haddr : sl.addr = (s.slot v).addr) :
    (s.replaceRow v cs pl sl).view r = if r = v then ⟨cs, pl, sl⟩ else s.view r := by
  have hrow : (s.replaceRow v cs pl sl).row r = (s.setRow v cs).row r := rfl
  rw [State.view, hrow, State.row_setRow hb hv hr hcs, State.payload_replaceRow hbuf hv hr cs hpl haddr,
    State.slot_replaceRow hb hv hr]
  split <;> rfl

/-! ### What row operations keep -/

/-- The frame of the row operations: only the tables and memory change, every address stays, and so does every cell
that belongs to no live index. -/
structure State.RowUpdate (s t : State) : Prop where
  eq : t = { s with coef := t.coef, slots := t.slots, mem := t.mem }
  addr : ∀ i, (t.slot i).addr = (s.slot i).addr
  dead : ∀ p, s.Dead p →
    t.slotAt p = s.slotAt p ∧ ∀ q, t.coefAt p q = s.coefAt p q ∧ t.coefAt q p = s.coefAt q p
  memory : s.MemoryOk → t.MemoryOk

namespace State.RowUpdate

theorem refl (s : State) : s.RowUpdate s := ⟨rfl, fun _ => rfl, fun _ _ => ⟨rfl, fun _ => ⟨rfl, rfl⟩⟩, id⟩

theorem lower (h : s.RowUpdate t) : t.lower = s.lower := by rw [h.eq]
theorem upper (h : s.RowUpdate t) : t.upper = s.upper := by rw [h.eq]
theorem cap (h : s.RowUpdate t) : t.cap = s.cap := by rw [h.eq]
theorem field (h : s.RowUpdate t) : t.field = s.field := by rw [h.eq]
theorem symsize (h : s.RowUpdate t) : t.symsize = s.symsize := by rw [h.eq]
theorem mapped (h : s.RowUpdate t) : t.mapped = s.mapped := by rw [h.eq]

theorem isLive (h : s.RowUpdate t) (i : Nat) : t.isLive i = s.isLive i := State.isLive_congr h.lower h.upper i

theorem live (h : s.RowUpdate t) : t.live = s.live := State.live_congr h.lower h.upper

theorem nsyms (h : s.RowUpdate t) : t.nsyms = s.nsyms := by unfold State.nsyms; rw [h.lower, h.upper]

theorem symBytes (h : s.RowUpdate t) : t.symBytes = s.symBytes := by unfold State.symBytes; rw [h.symsize]

theorem stagedCoef (h : s.RowUpdate t) (cs : List Elem) (j : Nat) : t.stagedCoef cs j = s.stagedCoef cs j := by
  unfold State.stagedCoef; rw [h.lower]

theorem dead_iff (h : s.RowUpdate t) (p : Nat) : t.Dead p ↔ s.Dead p := by
  simp only [State.Dead, h.isLive, State.phys_congr h.cap]

theorem boundsOk (h : s.RowUpdate t) (hb : s.BoundsOk) : t.BoundsOk := hb.congr h.cap h.lower h.upper

theorem buffersOk (h : s.RowUpdate t) (hb : s.BuffersOk) : t.BuffersOk :=
  hb.congr h.lower h.upper h.mapped h.symsize fun i _ => h.addr i

theorem trans (h : s.RowUpdate t) (h' : t.RowUpdate u) : s.RowUpdate u where
  eq := by rw [h'.eq, h.eq]
  addr i := (h'.addr i).trans (h.addr i)
  dead p hp := by
    obtain ⟨hslot, hcoef⟩ := h.dead p hp
    obtain ⟨hslot', hcoef'⟩ := h'.dead p ((h.dead_iff p).mpr hp)
    exact ⟨hslot'.trans hslot, fun q => ⟨(hcoef' q).1.trans (hcoef q).1, (hcoef' q).2.trans (hcoef q).2⟩⟩
  memory := h'.memory ∘ h.memory

end State.RowUpdate

/-- Writing a row of a live index touches no cell outside the live rows and columns. -/
theorem State.coefAt_setRow_dead {v p : Nat} (hv : s.isLive v = true) (hp : s.Dead p) (cs : List Elem) (q : Nat) :
    (s.setRow v cs).coefAt p q = s.coefAt p q ∧ (s.setRow v cs).coefAt q p = s.coefAt q p := by
  refine ⟨State.coefAt_foldl_setCoef _ s v p q (.inl (hp v hv).symm),
    State.coefAt_foldl_setCoef _ s v q p (.inr fun jc hjc => ?_)⟩
  have hlive : s.isLive jc.1 = true := (State.mem_live s jc.1).mp (List.of_mem_zip hjc).1
  exact (hp jc.1 hlive).symm

theorem State.replaceRow_update (hbuf : s.BuffersOk) {v : Nat} (hv : s.isLive v = true) (cs : List Elem)
    {pl : List Byte} (hpl : pl.length = s.symBytes) {sl : Slot} (haddr : sl.addr = (s.slot v).addr) :
    s.RowUpdate (s.replaceRow v cs pl sl) where
  eq := by rw [State.replaceRow_eq]
  addr := State.addr_replaceRow cs pl haddr
  dead p hp := by
    refine ⟨?_, fun q => State.coefAt_setRow_dead hv hp cs q⟩
    rw [State.slotAt_replaceRow, if_neg (hp v hv).symm]
  memory hm := by
    have hfit := State.fits_of_rangeOK (hbuf.mapped v hv)
    refine ((hm.setRow v cs).memWrite ?_).setSlot v sl
    rwa [State.setRow_slot, hpl]

/-! ### Back-substitution in closed form (R124) -/

/-- A slot whose row takes over the frozen bit of another row (R124). -/
def Slot.join (x y : Slot) : Slot := { x with frz := x.frz || y.frz }

theorem Slot.join_addr (x y : Slot) : (x.join y).addr = x.addr := rfl

/-- A slot that has a stored row (R123, R125). -/
def Slot.stored (x : Slot) (frozen : Bool) : Slot := { x with piv := true, frz := frozen }

theorem Slot.stored_addr (x : Slot) (frozen : Bool) : (x.stored frozen).addr = x.addr := rfl

/-- Row `r` is another stored row with a nonzero coefficient at column `v`. -/
abbrev State.References (s : State) (v r : Nat) : Prop := r ≠ v ∧ (s.slot r).piv = true ∧ s.coefOf r v ≠ 0

/-- A row plus `e` times another, the frozen bits joined (R124). -/
def RowView.plus (f : FieldId) (x y : RowView) (e : Elem) : RowView where
  coefs := addMultiple f x.coefs e y.coefs
  payload := vecMAdd f x.payload y.payload e
  slot := x.slot.join y.slot

theorem length_addMultiple {f : FieldId} {xs cs : List Elem} {n : Nat} (e : Elem) (hx : xs.length = n)
    (hc : cs.length = n) : (addMultiple f xs e cs).length = n := by
  simp [addMultiple, hx, hc]

theorem State.stagedCoef_addMultiple {xs cs : List Elem} (e : Elem) (hx : xs.length = s.nsyms)
    (hc : cs.length = s.nsyms) {j : Nat} (hj : s.isLive j = true) :
    s.stagedCoef (addMultiple s.field xs e cs) j =
      gfAdd (s.stagedCoef xs j) (gfMul s.field e (s.stagedCoef cs j)) := by
  have hk : j - s.lower.toNat < s.nsyms := by
    rw [State.isLive_iff] at hj
    rw [State.nsyms]
    omega
  have hkx : j - s.lower.toNat < xs.length := hx ▸ hk
  have hkc : j - s.lower.toNat < cs.length := hc ▸ hk
  simp [State.stagedCoef, addMultiple, List.getD, hkx, hkc]

theorem State.substituteAt_of_not_references {v r : Nat} {p : List Byte} (h : ¬ s.References v r) :
    State.substituteAt v p s r = s := if_neg h

/-- One pass of the loop of R124 replaces row `r` by its sum with a multiple of row `v`. -/
theorem State.substituteAt_of_references {v r : Nat} {p : List Byte} (h : s.References v r) :
    State.substituteAt v p s r = s.replaceRow r (addMultiple s.field (s.row r) (s.coefOf r v) (s.row v))
      (vecMAdd s.field (s.payload r) p (s.coefOf r v)) ((s.slot r).join (s.slot v)) := by
  have hslot : ∀ (cs : List Elem) (pl : List Byte) i, ((s.setRow r cs).setPayload r pl).slot i = s.slot i :=
    fun cs pl i => State.setRow_slot r i cs
  have hpay : ∀ cs, (s.setRow r cs).field = s.field ∧ (s.setRow r cs).payload r = s.payload r := fun cs => by
    rw [State.setRow_eq]; exact ⟨rfl, rfl⟩
  rw [State.substituteAt]
  simp only [hslot]
  exact if_pos h

/-- What back-substitution over some of the live rows has done: these rows have row `v` added where they reference
it, every other row is as before. -/
structure State.Substituted (s : State) (v : Nat) (l : List Nat) (t : State) : Prop where
  update : s.RowUpdate t
  view : ∀ r, s.isLive r = true → t.view r =
    if r ∈ l ∧ s.References v r then (s.view r).plus s.field (s.view v) (s.coefOf r v) else s.view r

theorem State.coefOf_of_view_eq (h : s.RowUpdate t) {r r' j : Nat} (hj : s.isLive j = true)
    (hview : t.view r = s.view r') : t.coefOf r j = s.coefOf r' j := by
  have hrow : t.row r = s.row r' := congrArg RowView.coefs hview
  have hj' : t.isLive j = true := (h.isLive j).trans hj
  rw [← t.stagedCoef_row r hj', ← s.stagedCoef_row r' hj, hrow, h.stagedCoef]

/-- The next live row, which no pass has touched yet. -/
theorem State.Substituted.step {v : Nat} {l : List Nat} (hb : s.BoundsOk) (hbuf : s.BuffersOk)
    (hv : s.isLive v = true) (h : s.Substituted v l t) {r : Nat} (hr : s.isLive r = true) (hrl : r ∉ l) :
    s.Substituted v (l ++ [r]) (State.substituteAt v (s.payload v) t r) := by
  obtain ⟨hup, hview⟩ := h
  have hviewr : t.view r = s.view r := by rw [hview r hr, if_neg fun hc => hrl hc.1]
  have hviewv : t.view v = s.view v := by rw [hview v hv, if_neg fun hc => hc.2.1 rfl]
  have hslot : t.slot r = s.slot r := congrArg RowView.slot hviewr
  have hcoef : t.coefOf r v = s.coefOf r v := State.coefOf_of_view_eq hup hv hviewr
  have href : t.References v r ↔ s.References v r := by simp only [State.References, hslot, hcoef]
  by_cases hrv : s.References v r
  · have hlenp : (t.payload r).length = (s.payload v).length := by
      rw [length_payload, length_payload, hup.symBytes]
    have hpl : (vecMAdd t.field (t.payload r) (s.payload v) (t.coefOf r v)).length = t.symBytes := by
      rw [length_vecMAdd _ _ hlenp, length_payload]
    have htr : t.isLive r = true := (hup.isLive r).trans hr
    rw [State.substituteAt_of_references (href.mpr hrv)]
    refine ⟨hup.trans (State.replaceRow_update (hup.buffersOk hbuf) htr _ hpl (Slot.join_addr _ _)), fun k hk => ?_⟩
    rw [State.view_replaceRow (hup.boundsOk hb) (hup.buffersOk hbuf) htr ((hup.isLive k).trans hk)
      (length_addMultiple _ (t.length_row r) (t.length_row v)) hpl (Slot.join_addr _ _)]
    by_cases hkr : k = r
    · subst hkr
      have hrow : t.row k = s.row k := congrArg RowView.coefs hviewr
      have hrowv : t.row v = s.row v := congrArg RowView.coefs hviewv
      have hpay : t.payload k = s.payload k := congrArg RowView.payload hviewr
      have hslotv : t.slot v = s.slot v := congrArg RowView.slot hviewv
      rw [if_pos rfl, if_pos ⟨by simp, hrv⟩, hrow, hrowv, hpay, hslot, hslotv, hcoef, hup.field]
      rfl
    · rw [if_neg hkr, hview k hk]
      exact if_congr (by simp [hkr]) rfl rfl
  · rw [State.substituteAt_of_not_references (mt href.mp hrv)]
    refine ⟨hup, fun k hk => ?_⟩
    rw [hview k hk]
    refine if_congr (and_congr_left fun hkv => ?_) rfl rfl
    have hkr : k ≠ r := fun h => hrv (h ▸ hkv)
    simp [hkr]

/-- `BackSubstitute(v)` adds a multiple of row `v` to each row that references it and changes no other (R124). -/
theorem State.backSubstitute_substituted {v : Nat} (hb : s.BoundsOk) (hbuf : s.BuffersOk)
    (hv : s.isLive v = true) : s.Substituted v s.live (s.backSubstitute v) := by
  have hloop : ∀ l : List Nat, l.Nodup → (∀ r ∈ l, s.isLive r = true) →
      s.Substituted v l (l.foldl (State.substituteAt v (s.payload v)) s) := by
    intro l
    induction l using List.reverseRecOn with
    | nil => exact fun _ _ => ⟨.refl s, fun r _ => by simp⟩
    | append_singleton l r ih =>
      intro hnodup hlive
      rw [List.nodup_append] at hnodup
      obtain ⟨hl, -, hdisj⟩ := hnodup
      rw [List.foldl_append, List.foldl_cons, List.foldl_nil]
      exact (ih hl fun k hk => hlive k (by simp [hk])).step hb hbuf hv (hlive r (by simp))
        fun hr => hdisj r hr r (by simp) rfl
  exact hloop s.live s.live_nodup fun r hr => (s.mem_live r).mp hr

/-! ### A row stored and substituted back -/

/-- The row `cs`, `pl` stored at `v` and added to the rows that reference column `v` (R123, R125). -/
def State.insertRow (s : State) (v : Nat) (st : Staging) : State := (s.storeRow v st).backSubstitute v

theorem State.storeRow_eq_replaceRow (s : State) (v : Nat) (st : Staging) :
    s.storeRow v st =
      s.replaceRow v st.coefs st.payload ((s.slot v).stored st.frozen) := by
  have hslot : ((s.setRow v st.coefs).setPayload v st.payload).slot v = s.slot v := State.setRow_slot v v st.coefs
  unfold State.storeRow
  simp only [hslot]
  rfl

theorem State.storeRow_update (hbuf : s.BuffersOk) {v : Nat} (hv : s.isLive v = true) {st : Staging}
    (hpl : st.payload.length = s.symBytes) : s.RowUpdate (s.storeRow v st) := by
  rw [State.storeRow_eq_replaceRow]
  exact State.replaceRow_update hbuf hv _ hpl (Slot.stored_addr _ _)

theorem State.view_storeRow (hb : s.BoundsOk) (hbuf : s.BuffersOk) {v r : Nat} (hv : s.isLive v = true)
    (hr : s.isLive r = true) {st : Staging} (hcs : st.coefs.length = s.nsyms)
    (hpl : st.payload.length = s.symBytes) :
    (s.storeRow v st).view r = if r = v then
      ⟨st.coefs, st.payload, (s.slot v).stored st.frozen⟩ else s.view r := by
  rw [State.storeRow_eq_replaceRow]
  exact State.view_replaceRow hb hbuf hv hr hcs hpl (Slot.stored_addr _ _)

theorem State.insertRow_update (hb : s.BoundsOk) (hbuf : s.BuffersOk) {v : Nat} (hv : s.isLive v = true)
    {st : Staging} (hpl : st.payload.length = s.symBytes) : s.RowUpdate (s.insertRow v st) := by
  have hstore := State.storeRow_update hbuf hv hpl
  have hv' : (s.storeRow v st).isLive v = true := (hstore.isLive v).trans hv
  exact hstore.trans (State.backSubstitute_substituted (hstore.boundsOk hb) (hstore.buffersOk hbuf) hv').update

/-- The row at `v` after an insertion is the one inserted. -/
theorem State.view_insertRow_self (hb : s.BoundsOk) (hbuf : s.BuffersOk) {v : Nat} (hv : s.isLive v = true)
    {st : Staging} (hcs : st.coefs.length = s.nsyms) (hpl : st.payload.length = s.symBytes) :
    (s.insertRow v st).view v = ⟨st.coefs, st.payload, (s.slot v).stored st.frozen⟩ := by
  have hstore := State.storeRow_update hbuf hv hpl
  have hv' : (s.storeRow v st).isLive v = true := (hstore.isLive v).trans hv
  have hsub := State.backSubstitute_substituted (hstore.boundsOk hb) (hstore.buffersOk hbuf) hv'
  rw [State.insertRow, hsub.view v hv', if_neg fun h => h.2.1 rfl, State.view_storeRow hb hbuf hv hv hcs hpl,
    if_pos rfl]

/-- Any other row after an insertion: the new row added where it was referenced. -/
theorem State.view_insertRow_of_ne (hb : s.BoundsOk) (hbuf : s.BuffersOk) {v r : Nat} (hv : s.isLive v = true)
    (hr : s.isLive r = true) (hrv : r ≠ v) {st : Staging} (hcs : st.coefs.length = s.nsyms)
    (hpl : st.payload.length = s.symBytes) :
    (s.insertRow v st).view r = if s.References v r then
      (s.view r).plus s.field
        ⟨st.coefs, st.payload, (s.slot v).stored st.frozen⟩ (s.coefOf r v)
      else s.view r := by
  have hstore := State.storeRow_update hbuf hv hpl
  have hv' : (s.storeRow v st).isLive v = true := (hstore.isLive v).trans hv
  have hr' : (s.storeRow v st).isLive r = true := (hstore.isLive r).trans hr
  have hsub := State.backSubstitute_substituted (hstore.boundsOk hb) (hstore.buffersOk hbuf) hv'
  have hviewr : (s.storeRow v st).view r = s.view r := by
    rw [State.view_storeRow hb hbuf hv hr hcs hpl, if_neg hrv]
  have hviewv := State.view_storeRow hb hbuf hv hv hcs hpl
  rw [if_pos rfl] at hviewv
  have hslot : (s.storeRow v st).slot r = s.slot r := congrArg RowView.slot hviewr
  have hcoef : (s.storeRow v st).coefOf r v = s.coefOf r v := State.coefOf_of_view_eq hstore hv hviewr
  rw [State.insertRow, hsub.view r hr', hviewr, hviewv]
  refine if_congr ?_ ?_ rfl
  · rw [State.mem_live, State.References, State.References, hslot, hcoef]
    exact and_iff_right hr'
  · rw [hcoef, hstore.field]

end Sys2Proof.Machine
end

section
/-! The elimination invariants (a) to (g) of R28 under each effect of a command. The key case is a row inserted at a
column without an own pivot row: normalised, zero below its pivot and at every other pivot column. Both read commands
insert such a row. -/

namespace Sys2Proof.Machine

variable {s t : State}

/-! ### A row that may be inserted -/

/-- What R123 and R125 make sure of before a row is stored at `v`. -/
structure State.Insertable (s : State) (v : Nat) (st : Staging) : Prop where
  live : s.isLive v = true
  coefs_length : st.coefs.length = s.nsyms
  payload_length : st.payload.length = s.symBytes
  unfrozen : st.frozen = false
  lead : s.stagedCoef st.coefs v = 1
  in_field : ∀ j, s.isLive j = true → (s.stagedCoef st.coefs j).toNat < 2 ^ width s.field
  zero_below : ∀ j, s.isLive j = true → j < v → s.stagedCoef st.coefs j = 0
  pivot_zero : ∀ i, s.isLive i = true → i ≠ v → (s.slot i).piv = true → s.stagedCoef st.coefs i = 0

theorem Slot.join_stored_false (x y : Slot) : x.join (y.stored false) = x := by
  simp [Slot.join, Slot.stored]

section
variable {v r : Nat} {st : Staging}

theorem State.slot_insertRow_self (hb : s.BoundsOk) (hbuf : s.BuffersOk) (hi : s.Insertable v st) :
    (s.insertRow v st).slot v = (s.slot v).stored false := by
  have hview := State.view_insertRow_self hb hbuf hi.live hi.coefs_length hi.payload_length
  exact (congrArg RowView.slot hview).trans (by rw [hi.unfrozen])

theorem State.slot_insertRow_of_ne (hb : s.BoundsOk) (hbuf : s.BuffersOk) (hi : s.Insertable v st)
    (hr : s.isLive r = true) (hrv : r ≠ v) : (s.insertRow v st).slot r = s.slot r := by
  have hview := State.view_insertRow_of_ne hb hbuf hi.live hr hrv hi.coefs_length hi.payload_length
  rw [hi.unfrozen] at hview
  split at hview
  · exact (congrArg RowView.slot hview).trans (Slot.join_stored_false _ _)
  · exact congrArg RowView.slot hview

theorem State.coefOf_of_row_eq (hup : s.RowUpdate t) {cs : List Elem} {j : Nat} (hj : s.isLive j = true)
    (hrow : t.row r = cs) : t.coefOf r j = s.stagedCoef cs j := by
  rw [← t.stagedCoef_row r ((hup.isLive j).trans hj), hrow, hup.stagedCoef]

theorem State.coefOf_insertRow_self (hb : s.BoundsOk) (hbuf : s.BuffersOk) (hi : s.Insertable v st) {j : Nat}
    (hj : s.isLive j = true) : (s.insertRow v st).coefOf v j = s.stagedCoef st.coefs j := by
  have hview := State.view_insertRow_self hb hbuf hi.live hi.coefs_length hi.payload_length
  exact State.coefOf_of_row_eq (State.insertRow_update hb hbuf hi.live hi.payload_length) hj
    (congrArg RowView.coefs hview)

/-- A stored row after the insertion: its multiple of the new row is 0 where it does not reference column `v`. -/
theorem State.coefOf_insertRow_of_ne (hb : s.BoundsOk) (hbuf : s.BuffersOk) (hi : s.Insertable v st)
    (hr : s.isLive r = true) (hrv : r ≠ v) {j : Nat} (hj : s.isLive j = true) :
    (s.insertRow v st).coefOf r j = if (s.slot r).piv = true then
      gfAdd (s.coefOf r j) (gfMul s.field (s.coefOf r v) (s.stagedCoef st.coefs j)) else s.coefOf r j := by
  have hup := State.insertRow_update hb hbuf hi.live hi.payload_length
  have hview := State.view_insertRow_of_ne hb hbuf hi.live hr hrv hi.coefs_length hi.payload_length
  split at hview
  · next href =>
    rw [if_pos href.2.1, State.coefOf_of_row_eq hup hj (congrArg RowView.coefs hview)]
    exact (State.stagedCoef_addMultiple _ (s.length_row r) hi.coefs_length hj).trans
      (by rw [State.stagedCoef_row s r hj])
  · next href =>
    rw [State.coefOf_of_view_eq hup hj hview]
    split
    · next hpiv =>
      have hzero : s.coefOf r v = 0 := by
        by_contra hne
        exact href ⟨hrv, hpiv, hne⟩
      rw [hzero, zero_gfMul, gfAdd_zero]
    · rfl

theorem State.payload_insertRow_self (hb : s.BoundsOk) (hbuf : s.BuffersOk) (hi : s.Insertable v st) :
    (s.insertRow v st).payload v = st.payload :=
  congrArg RowView.payload
    (State.view_insertRow_self hb hbuf hi.live hi.coefs_length hi.payload_length)

theorem State.payload_insertRow_of_ne (hb : s.BoundsOk) (hbuf : s.BuffersOk) (hi : s.Insertable v st)
    (hr : s.isLive r = true) (hrv : r ≠ v) :
    (s.insertRow v st).payload r = if s.References v r then
      vecMAdd s.field (s.payload r) st.payload (s.coefOf r v) else s.payload r := by
  have hview := State.view_insertRow_of_ne hb hbuf hi.live hr hrv hi.coefs_length hi.payload_length
  split at hview
  · next href => rw [if_pos href]; exact congrArg RowView.payload hview
  · next href => rw [if_neg href]; exact congrArg RowView.payload hview

end

/-! ### The invariants after an insertion -/

/-- The elements of the store are those of the live rows and columns; the rest is 0 (R28 (a)). -/
theorem State.in_field_of_live
    (hdead : ∀ p, t.Dead p → ∀ q, t.coefAt p q = 0 ∧ t.coefAt q p = 0)
    (hlive : ∀ i j, t.isLive i = true → t.isLive j = true → (t.coefOf i j).toNat < 2 ^ width t.field) (p q : Nat) :
    (t.coefAt p q).toNat < 2 ^ width t.field := by
  by_cases hp : t.Dead p
  · rw [(hdead p hp q).1]
    exact Nat.two_pow_pos _
  by_cases hq : t.Dead q
  · rw [(hdead q hq p).2]
    exact Nat.two_pow_pos _
  simp only [State.Dead, not_forall, not_not] at hp hq
  obtain ⟨i, hi, rfl⟩ := hp
  obtain ⟨j, hj, rfl⟩ := hq
  exact hlive i j hi hj

/-- An insertion keeps (a) to (g): each is checked at the new row and at the rows that it was added to. -/
theorem State.RowsOk.insertRow (hs : s.RowsOk) (hb : s.BoundsOk) (hbuf : s.BuffersOk) {v : Nat} {st : Staging}
    (hi : s.Insertable v st) : (s.insertRow v st).RowsOk := by
  have hup := State.insertRow_update hb hbuf hi.live hi.payload_length
  have hself : ∀ j, s.isLive j = true → (s.insertRow v st).coefOf v j = s.stagedCoef st.coefs j :=
    fun j hj => State.coefOf_insertRow_self hb hbuf hi hj
  have hother := fun r j hr hrv hj => State.coefOf_insertRow_of_ne (r := r) (j := j) hb hbuf hi hr hrv hj
  have hslotv := State.slot_insertRow_self hb hbuf hi
  have hslot := fun r hr hrv => State.slot_insertRow_of_ne (r := r) hb hbuf hi hr hrv
  have hdead : ∀ p, (s.insertRow v st).Dead p → (s.insertRow v st).slotAt p = Slot.empty ∧
      ∀ q, (s.insertRow v st).coefAt p q = 0 ∧ (s.insertRow v st).coefAt q p = 0 := fun p hp => by
    obtain ⟨hsl, hco⟩ := hup.dead p ((hup.dead_iff p).mp hp)
    obtain ⟨hsl0, hco0⟩ := hs.dead_clear p ((hup.dead_iff p).mp hp)
    exact ⟨hsl.trans hsl0, fun q => ⟨(hco q).1.trans (hco0 q).1, (hco q).2.trans (hco0 q).2⟩⟩
  have hCv : ∀ r, s.isLive r = true → (s.coefOf r v).toNat < 2 ^ width s.field := fun r _ => hs.in_field _ _
  refine {
    dead_clear := hdead
    missing_zero := fun i hil hp => ?missing_zero
    pivot_one := fun i hil hp => ?pivot_one
    reduced := fun i r hil hrl hne hpi hpr => ?reduced
    in_field := State.in_field_of_live (fun p hp => (hdead p hp).2) fun i j hil hjl => ?in_field
    zero_below := fun i j hil hp hjl hlt => ?zero_below
    unfrozen := fun i hil => ?unfrozen } <;> rw [hup.isLive] at hil
  case missing_zero =>
    by_cases hiv : i = v
    · subst hiv
      rw [hslotv] at hp
      exact absurd hp (by simp [Slot.stored])
    · rw [hslot i hil hiv] at hp ⊢
      obtain ⟨hfrz, hzero⟩ := hs.missing_zero i hil hp
      refine ⟨hfrz, fun j hj => ?_⟩
      rw [hup.isLive] at hj
      rw [hother i j hil hiv hj, if_neg (by simp [hp]), hzero j hj]
  case pivot_one =>
    by_cases hiv : i = v
    · subst hiv
      rw [hself i hil, hi.lead]
    · rw [hslot i hil hiv] at hp
      rw [hother i i hil hiv hil, if_pos hp, hi.pivot_zero i hil hiv hp, gfMul_zero, gfAdd_zero,
        hs.pivot_one i hil hp]
  case reduced =>
    rw [hup.isLive] at hrl
    by_cases hrv : r = v
    · subst hrv
      rw [hslot i hil hne] at hpi
      rw [hself i hil, hi.pivot_zero i hil hne hpi]
    · rw [hslot r hrl hrv] at hpr
      rw [hother r i hrl hrv hil, if_pos hpr]
      by_cases hiv : i = v
      · subst hiv
        rw [hi.lead, gfMul_one (hCv r hrl), gfAdd_self]
      · rw [hslot i hil hiv] at hpi
        rw [hi.pivot_zero i hil hiv hpi, gfMul_zero, gfAdd_zero, hs.reduced i r hil hrl hne hpi hpr]
  case in_field =>
    rw [hup.isLive] at hjl
    rw [hup.field]
    by_cases hiv : i = v
    · subst hiv
      rw [hself j hjl]
      exact hi.in_field j hjl
    · rw [hother i j hil hiv hjl]
      split
      · exact gfAdd_lt (hs.in_field _ _) (gfMul_lt _ _ _)
      · exact hs.in_field _ _
  case zero_below =>
    rw [hup.isLive] at hjl
    by_cases hiv : i = v
    · subst hiv
      rw [hself j hjl, hi.zero_below j hjl hlt]
    · rw [hslot i hil hiv] at hp
      rw [hother i j hil hiv hjl, if_pos hp, hs.zero_below i j hil hp hjl hlt, zero_gfAdd]
      rcases Nat.lt_or_gt_of_ne hiv with hiv | hiv
      · rw [hi.zero_below j hjl (hlt.trans hiv), gfMul_zero]
      · rw [hs.zero_below i v hil hp hi.live hiv, zero_gfMul]
  case unfrozen =>
    by_cases hiv : i = v
    · subst hiv
      rw [hslotv]
      rfl
    · rw [hslot i hil hiv, hs.unfrozen i hil]

/-! ### The incoming row of `READ_SYMBOL` (R123) -/

/-- The staging row while it is reduced: its pivot columns in `l` are cleared already. -/
structure State.ReducedAt (s : State) (l : List Nat) (st : Staging) : Prop where
  coefs_length : st.coefs.length = s.nsyms
  payload_length : st.payload.length = s.symBytes
  unfrozen : st.frozen = false
  in_field : ∀ j, s.isLive j = true → (s.stagedCoef st.coefs j).toNat < 2 ^ width s.field
  pivot_zero : ∀ i ∈ l, s.isLive i = true → (s.slot i).piv = true → s.stagedCoef st.coefs i = 0

theorem State.loadStaging_reducedAt (s : State) (cv : List Byte) {sp : List Byte} (hsp : sp.length = s.symBytes) :
    s.ReducedAt [] (s.loadStaging cv sp) where
  coefs_length := by rw [State.loadStaging, List.length_map, State.live_length]
  payload_length := hsp
  unfrozen := rfl
  in_field j hj := by
    rw [State.loadStaging, State.stagedCoef_map s _ hj]
    split
    · exact elemAt_lt _ _ _
    · exact Nat.two_pow_pos _
  pivot_zero := nofun

theorem State.reduceAt_of_pos {st : Staging} {i : Nat}
    (h : (s.slot i).piv = true ∧ s.stagedCoef st.coefs i ≠ 0) :
    s.reduceAt st i =
      ⟨addMultiple s.field st.coefs (s.stagedCoef st.coefs i) (s.row i),
        vecMAdd s.field st.payload (s.payload i) (s.stagedCoef st.coefs i), st.frozen || (s.slot i).frz⟩ :=
  if_pos h

theorem State.reduceAt_of_neg {st : Staging} {i : Nat}
    (h : ¬ ((s.slot i).piv = true ∧ s.stagedCoef st.coefs i ≠ 0)) : s.reduceAt st i = st := if_neg h

/-- One pass clears its own pivot column and leaves the other pivot columns as they are (R28 (d)). -/
theorem State.ReducedAt.step (hs : s.RowsOk) {l : List Nat} {st : Staging} (h : s.ReducedAt l st) {i : Nat}
    (hi : s.isLive i = true) : s.ReducedAt (l ++ [i]) (s.reduceAt st i) := by
  by_cases hc : (s.slot i).piv = true ∧ s.stagedCoef st.coefs i ≠ 0
  · have hcoef : ∀ j, s.isLive j = true →
        s.stagedCoef (addMultiple s.field st.coefs (s.stagedCoef st.coefs i) (s.row i)) j =
          gfAdd (s.stagedCoef st.coefs j) (gfMul s.field (s.stagedCoef st.coefs i) (s.coefOf i j)) :=
      fun j hj => (State.stagedCoef_addMultiple _ h.coefs_length (s.length_row i) hj).trans
        (by rw [State.stagedCoef_row s i hj])
    have hlen : st.payload.length = (s.payload i).length := h.payload_length.trans (length_payload s i).symm
    rw [State.reduceAt_of_pos hc]
    refine ⟨length_addMultiple _ h.coefs_length (s.length_row i),
      (length_vecMAdd _ _ hlen).trans h.payload_length, ?_, fun j hj => ?_, fun k hk hkl hp => ?_⟩
    · rw [h.unfrozen, hs.unfrozen i hi]; rfl
    · rw [hcoef j hj]
      exact gfAdd_lt (h.in_field j hj) (gfMul_lt _ _ _)
    · rw [hcoef k hkl]
      by_cases hki : k = i
      · subst hki
        rw [hs.pivot_one k hkl hp, gfMul_one (h.in_field k hkl), gfAdd_self]
      · have hkl' : k ∈ l := by simpa [hki] using hk
        rw [h.pivot_zero k hkl' hkl hp, hs.reduced k i hkl hi hki hp hc.1, gfMul_zero, gfAdd_zero]
  · rw [State.reduceAt_of_neg hc]
    refine ⟨h.coefs_length, h.payload_length, h.unfrozen, h.in_field, fun k hk hkl hp => ?_⟩
    rcases List.mem_append.mp hk with hk | hk
    · exact h.pivot_zero k hk hkl hp
    · obtain rfl : k = i := by simpa using hk
      by_contra hne
      exact hc ⟨hp, hne⟩

/-- The loop of R123 over some of the live rows clears their pivot columns. -/
theorem State.ReducedAt.foldl (hs : s.RowsOk) {st : Staging} (h : s.ReducedAt [] st) {l : List Nat}
    (hl : ∀ i ∈ l, s.isLive i = true) : s.ReducedAt l (l.foldl s.reduceAt st) := by
  induction l using List.reverseRecOn with
  | nil => exact h
  | append_singleton l i ih =>
    rw [List.foldl_append, List.foldl_cons, List.foldl_nil]
    exact (ih fun k hk => hl k (by simp [hk])).step hs (hl i (by simp))

theorem State.reduceStaging_reducedAt (hs : s.RowsOk) {st : Staging} (h : s.ReducedAt [] st) :
    s.ReducedAt s.live (s.reduceStaging st) :=
  h.foldl hs fun i hi => (s.mem_live i).mp hi

/-- The pivot is the lowest live column with a nonzero coefficient (R123). -/
theorem State.pivotOf_eq_some {st : Staging} {v : Nat} (h : s.pivotOf st = some v) :
    s.isLive v = true ∧ s.stagedCoef st.coefs v ≠ 0 ∧
      ∀ j, s.isLive j = true → j < v → s.stagedCoef st.coefs j = 0 := by
  rw [State.pivotOf, State.live, List.find?_range'_eq_some] at h
  obtain ⟨hv, hmem, hbelow⟩ := h
  refine ⟨(s.mem_live v).mp hmem, of_decide_eq_true hv, fun j hj hjv => ?_⟩
  simpa using hbelow j ((State.isLive_iff s j).mp hj).1 hjv

theorem State.stagedCoef_map_gfMul (s : State) (g : Elem) (cs : List Elem) (j : Nat) :
    s.stagedCoef (cs.map (gfMul s.field g)) j = gfMul s.field g (s.stagedCoef cs j) := by
  rw [State.stagedCoef, State.stagedCoef, List.getD_eq_getElem?_getD, List.getElem?_map,
    List.getD_eq_getElem?_getD]
  cases cs[j - s.lower.toNat]? with
  | none => exact (gfMul_zero _ _).symm
  | some c => rfl

/-- The reduced row, scaled to 1 at its pivot, may be inserted there: the pivot's column had no row (R123). -/
theorem State.normalise_insertable {st : Staging} (h : s.ReducedAt s.live st) {v : Nat}
    (hv : s.pivotOf st = some v) : s.Insertable v (s.normalise st v) := by
  obtain ⟨hlive, hne, hbelow⟩ := State.pivotOf_eq_some hv
  have hcoef := State.stagedCoef_map_gfMul s (gfInv s.field (s.stagedCoef st.coefs v)) st.coefs
  refine ⟨hlive, ?_, ?_, h.unfrozen, ?_, fun j _ => ?_, fun j hj hjv => ?_, fun i hi _ hp => ?_⟩
  · exact (List.length_map _).trans h.coefs_length
  · exact (length_vecScale _ _ _).trans h.payload_length
  · exact (hcoef v).trans ((gfMul_comm _ _ _).trans (gfMul_gfInv _ (h.in_field v hlive) hne))
  · rw [State.normalise, hcoef]
    exact gfMul_lt _ _ _
  · rw [State.normalise, hcoef, hbelow j hj hjv, gfMul_zero]
  · rw [State.normalise, hcoef, h.pivot_zero i ((s.mem_live i).mpr hi) hi hp, gfMul_zero]

/-- The staging row of a `READ_SYMBOL`, reduced. -/
def State.reducedInput (s : State) (cv sp : List Byte) : Staging := s.reduceStaging (s.loadStaging cv sp)

/-- `READ_SYMBOL` drops a row that reduces to zero and inserts any other at its pivot (R123). -/
theorem State.absorb_cases (s : State) (cv sp : List Byte) :
    (s.pivotOf (s.reducedInput cv sp) = none ∧ s.absorb cv sp = { s with adv := false, res := 0 }) ∨
    ∃ v, s.pivotOf (s.reducedInput cv sp) = some v ∧ s.absorb cv sp =
      { s.insertRow v (s.normalise (s.reducedInput cv sp) v) with adv := true, res := BitVec.ofNat 64 v } := by
  unfold State.absorb State.reducedInput State.insertRow
  dsimp only
  split
  · next h => exact .inl ⟨h, rfl⟩
  · next v h => exact .inr ⟨v, h, rfl⟩

/-- The unit row may be inserted at any live slot (R125). -/
theorem State.unitRow_insertable {v : Nat} (hv : s.isLive v = true) {sp : List Byte}
    (hsp : sp.length = s.symBytes) : s.Insertable v ⟨s.unitRow v, sp, false⟩ := by
  have hcoef : ∀ j, s.isLive j = true → s.stagedCoef (s.unitRow v) j = if j = v then 1 else 0 :=
    fun j hj => s.stagedCoef_map (fun j => if j = v then 1 else 0) hj
  refine ⟨hv, ?_, hsp, rfl, ?_, fun j hj => ?_, fun j hj hjv => ?_, fun i hi hiv _ => ?_⟩
  · exact (List.length_map _).trans s.live_length
  · rw [hcoef v hv, if_pos rfl]
  · rw [hcoef j hj]
    split
    · exact one_lt_width _
    · exact Nat.two_pow_pos _
  · rw [hcoef j hj, if_neg (Nat.ne_of_lt hjv)]
  · rw [hcoef i hi, if_neg hiv]

end Sys2Proof.Machine
end

section
/-! The invariants under `PUSH`, `POP` and the two read commands, and with them under every command and every step
(R28, R36, R41). -/

namespace Sys2Proof.Machine

variable {s t : State}

/-! ### `POP` (R102) -/

/-- No row references the lowest column but its own: a stored row is 0 below its pivot (R28 (f)). -/
theorem State.coefOf_lower (hs : s.RowsOk) (hlt : s.lower.toNat < s.upper.toNat) {r : Nat}
    (hr : s.isLive r = true) (hne : r ≠ s.lower.toNat) (hp : (s.slot r).piv = true) :
    s.coefOf r s.lower.toNat = 0 := by
  have hlow : s.isLive s.lower.toNat = true := (s.isLive_iff _).mpr ⟨le_rfl, hlt⟩
  have hle := ((s.isLive_iff r).mp hr).1
  exact hs.zero_below r _ hr hp hlow (by omega)

theorem State.freezeDependents_lower (hs : s.RowsOk) (hlt : s.lower.toNat < s.upper.toNat) :
    s.freezeDependents s.lower.toNat = s := by
  have hloop : ∀ l : List Nat, (∀ r ∈ l, s.isLive r = true) →
      l.foldl (fun t r => if r ≠ s.lower.toNat ∧ (t.slot r).piv = true ∧ t.coefOf r s.lower.toNat ≠ 0 then
        t.setSlot r { t.slot r with frz := true } else t) s = s := by
    intro l
    induction l with
    | nil => exact fun _ => rfl
    | cons r l ih =>
      intro hl
      rw [List.foldl_cons, if_neg fun h => h.2.2 (State.coefOf_lower hs hlt (hl r (by simp)) h.1 h.2.1)]
      exact ih fun k hk => hl k (by simp [hk])
  exact hloop s.live fun r hr => (s.mem_live r).mp hr

/-- Under the invariants `POP` freezes no row: it clears the cells of the lowest slot (R102, R127). -/
theorem State.dropLowest_of_rowsOk (hs : s.RowsOk) (hlt : s.lower.toNat < s.upper.toNat) :
    s.dropLowest = { ((s.clearCross (s.phys s.lower.toNat)).setSlot s.lower.toNat Slot.empty) with
      res := s.lower, lower := s.lower + 1 } := by
  unfold State.dropLowest
  dsimp only
  rw [State.freezeDependents_lower hs hlt]

theorem State.isLive_dropLowest (hlt : s.lower.toNat < s.upper.toNat) (i : Nat) :
    s.dropLowest.isLive i = true ↔ s.isLive i = true ∧ i ≠ s.lower.toNat := by
  have hsucc := State.toNat_lower_succ hlt
  rw [State.isLive_iff, State.isLive_iff, State.dropLowest_eq]
  dsimp only
  rw [hsucc]
  omega

theorem State.slotAt_dropLowest (hs : s.RowsOk) (hlt : s.lower.toNat < s.upper.toNat) (q : Nat) :
    s.dropLowest.slotAt q = if q = s.phys s.lower.toNat then Slot.empty else s.slotAt q := by
  rw [State.dropLowest_of_rowsOk hs hlt]
  exact State.slotAt_setSlot (s.clearCross _) s.lower.toNat q Slot.empty

theorem State.coefAt_dropLowest (hs : s.RowsOk) (hlt : s.lower.toNat < s.upper.toNat) (p q : Nat) :
    s.dropLowest.coefAt p q =
      if p ≠ s.phys s.lower.toNat ∧ q ≠ s.phys s.lower.toNat then s.coefAt p q else 0 := by
  rw [State.dropLowest_of_rowsOk hs hlt]
  exact State.coefAt_clearCross _ _ _ _

theorem State.phys_dropLowest (s : State) (i : Nat) : s.dropLowest.phys i = s.phys i :=
  State.phys_congr (by rw [State.dropLowest_eq]) i

section
variable (hb : s.BoundsOk) (hs : s.RowsOk) (hlt : s.lower.toNat < s.upper.toNat)
include hb hs hlt

omit hs in
theorem State.phys_ne_phys_lower {i : Nat} (hi : s.isLive i = true) (hne : i ≠ s.lower.toNat) :
    s.phys i ≠ s.phys s.lower.toNat :=
  fun h => hne (State.phys_inj hb.fits hi ((s.isLive_iff _).mpr ⟨le_rfl, hlt⟩) h)

/-- Every slot that stays live keeps its entry. -/
theorem State.slot_dropLowest {i : Nat} (hi : s.isLive i = true) (hne : i ≠ s.lower.toNat) :
    s.dropLowest.slot i = s.slot i := by
  rw [State.slot, State.phys_dropLowest, State.slotAt_dropLowest hs hlt,
    if_neg (State.phys_ne_phys_lower hb hlt hi hne), State.slot]

theorem State.coefOf_dropLowest {i j : Nat} (hi : s.isLive i = true) (hne : i ≠ s.lower.toNat)
    (hj : s.isLive j = true) (hnj : j ≠ s.lower.toNat) : s.dropLowest.coefOf i j = s.coefOf i j := by
  rw [State.coefOf, State.phys_dropLowest, State.phys_dropLowest, State.coefAt_dropLowest hs hlt,
    if_pos ⟨State.phys_ne_phys_lower hb hlt hi hne, State.phys_ne_phys_lower hb hlt hj hnj⟩, State.coefOf]

theorem State.RowsOk.dropLowest : s.dropLowest.RowsOk := by
  have hlive := fun i => (State.isLive_dropLowest hlt i).mp
  have hslot := fun i (h : s.isLive i = true ∧ i ≠ s.lower.toNat) => State.slot_dropLowest hb hs hlt h.1 h.2
  have hcoef := fun i j (h : s.isLive i = true ∧ i ≠ s.lower.toNat) (h' : s.isLive j = true ∧ j ≠ s.lower.toNat) =>
    State.coefOf_dropLowest hb hs hlt h.1 h.2 h'.1 h'.2
  have hfield : s.dropLowest.field = s.field := by rw [State.dropLowest_eq]
  refine {
    dead_clear := fun p hp => ?dead_clear
    missing_zero := fun i hi hpiv => ?missing_zero
    pivot_one := fun i hi hpiv => ?pivot_one
    reduced := fun i r hi hr hne hpi hpr => ?reduced
    in_field := fun p q => ?in_field
    zero_below := fun i j hi hpiv hj hji => ?zero_below
    unfrozen := fun i hi => ?unfrozen }
  case dead_clear =>
    have hdead : p ≠ s.phys s.lower.toNat → s.slotAt p = Slot.empty ∧
        ∀ q, s.coefAt p q = 0 ∧ s.coefAt q p = 0 := fun hne => by
      refine hs.dead_clear p fun i hi hpi => ?_
      have hlow : i ≠ s.lower.toNat := fun h => hne (h ▸ hpi.symm)
      exact hp i ((State.isLive_dropLowest hlt i).mpr ⟨hi, hlow⟩) ((State.phys_dropLowest s i).trans hpi)
    refine ⟨?_, fun q => ⟨?_, ?_⟩⟩
    · rw [State.slotAt_dropLowest hs hlt]
      split
      · rfl
      · next hne => exact (hdead hne).1
    · rw [State.coefAt_dropLowest hs hlt]
      split
      · next hne => exact ((hdead hne.1).2 q).1
      · rfl
    · rw [State.coefAt_dropLowest hs hlt]
      split
      · next hne => exact ((hdead hne.2).2 q).2
      · rfl
  case missing_zero =>
    rw [hslot i (hlive i hi)] at hpiv ⊢
    obtain ⟨hfrz, hzero⟩ := hs.missing_zero i (hlive i hi).1 hpiv
    exact ⟨hfrz, fun j hj => (hcoef i j (hlive i hi) (hlive j hj)).trans (hzero j (hlive j hj).1)⟩
  case pivot_one =>
    rw [hslot i (hlive i hi)] at hpiv
    exact (hcoef i i (hlive i hi) (hlive i hi)).trans (hs.pivot_one i (hlive i hi).1 hpiv)
  case reduced =>
    rw [hslot i (hlive i hi)] at hpi
    rw [hslot r (hlive r hr)] at hpr
    exact (hcoef r i (hlive r hr) (hlive i hi)).trans (hs.reduced i r (hlive i hi).1 (hlive r hr).1 hne hpi hpr)
  case in_field =>
    rw [State.coefAt_dropLowest hs hlt, hfield]
    split
    · exact hs.in_field p q
    · exact Nat.two_pow_pos _
  case zero_below =>
    rw [hslot i (hlive i hi)] at hpiv
    exact (hcoef i j (hlive i hi) (hlive j hj)).trans
      (hs.zero_below i j (hlive i hi).1 hpiv (hlive j hj).1 hji)
  case unfrozen =>
    rw [hslot i (hlive i hi)]
    exact hs.unfrozen i (hlive i hi).1

end

/-! ### `PUSH` (R101) -/

theorem State.slotAt_appendSlot (s : State) (a : Word) (q : Nat) :
    (s.appendSlot a).slotAt q = if q = s.phys s.upper.toNat then ⟨a, false, false⟩ else s.slotAt q :=
  State.slotAt_setSlot _ _ _ _

theorem State.coefAt_appendSlot (s : State) (a : Word) (p q : Nat) : (s.appendSlot a).coefAt p q =
    if p ≠ s.phys s.upper.toNat ∧ q ≠ s.phys s.upper.toNat then s.coefAt p q else 0 :=
  State.coefAt_clearCross _ _ _ _

section
variable (hlast : s.upper.toNat ≠ 2 ^ 64 - 1) (a : Word)
include hlast

theorem State.isLive_appendSlot (hle : s.lower.toNat ≤ s.upper.toNat) (i : Nat) :
    (s.appendSlot a).isLive i = true ↔ s.isLive i = true ∨ i = s.upper.toNat := by
  have hupper : (s.appendSlot a).upper.toNat = s.upper.toNat + 1 := State.toNat_upper_succ hlast
  have hlower : (s.appendSlot a).lower = s.lower := rfl
  rw [State.isLive_iff, State.isLive_iff, hupper, hlower]
  omega

variable (hb : s.BoundsOk) (hroom : s.nsyms ≠ s.cap)
include hb hroom

/-- While the stream is not full, the slot of `UPPER` belongs to no live index. -/
theorem State.phys_ne_phys_upper {i : Nat} (hi : s.isLive i = true) : s.phys i ≠ s.phys s.upper.toNat := by
  have hlive := State.isLive_appendSlot hlast 0 hb.lower_le
  have hupper : (s.appendSlot 0).upper.toNat = s.upper.toNat + 1 := State.toNat_upper_succ hlast
  have hfits : (s.appendSlot 0).upper.toNat - (s.appendSlot 0).lower.toNat ≤ (s.appendSlot 0).cap := by
    have hlt := lt_of_le_of_ne hb.fits hroom
    change (s.appendSlot 0).upper.toNat - s.lower.toNat ≤ s.cap
    omega
  intro h
  have heq := State.phys_inj hfits ((hlive i).mpr (.inl hi)) ((hlive _).mpr (.inr rfl)) h
  rw [State.isLive_iff] at hi
  omega

theorem State.slot_appendSlot {i : Nat} (hi : s.isLive i = true) : (s.appendSlot a).slot i = s.slot i := by
  have hphys : (s.appendSlot a).phys i = s.phys i := rfl
  rw [State.slot, hphys, State.slotAt_appendSlot, if_neg (State.phys_ne_phys_upper hlast hb hroom hi), State.slot]

theorem State.coefOf_appendSlot {i j : Nat} (hi : s.isLive i = true) (hj : s.isLive j = true) :
    (s.appendSlot a).coefOf i j = s.coefOf i j := by
  have hphys : ∀ k, (s.appendSlot a).phys k = s.phys k := fun _ => rfl
  rw [State.coefOf, hphys, hphys, State.coefAt_appendSlot,
    if_pos ⟨State.phys_ne_phys_upper hlast hb hroom hi, State.phys_ne_phys_upper hlast hb hroom hj⟩, State.coefOf]

omit hlast hb hroom in
theorem State.slot_appendSlot_upper (s : State) : (s.appendSlot a).slot s.upper.toNat = ⟨a, false, false⟩ := by
  have hphys : (s.appendSlot a).phys s.upper.toNat = s.phys s.upper.toNat := rfl
  rw [State.slot, hphys, State.slotAt_appendSlot, if_pos rfl]

omit hlast hb hroom in
/-- The new row and the new column are 0. -/
theorem State.coefOf_appendSlot_upper (s : State) (i j : Nat) (h : i = s.upper.toNat ∨ j = s.upper.toNat) :
    (s.appendSlot a).coefOf i j = 0 := by
  have hphys : ∀ k, (s.appendSlot a).phys k = s.phys k := fun _ => rfl
  rw [State.coefOf, hphys, hphys, State.coefAt_appendSlot, if_neg]
  rintro ⟨hi, hj⟩
  rcases h with rfl | rfl
  · exact hi rfl
  · exact hj rfl

theorem State.RowsOk.appendSlot (hs : s.RowsOk) : (s.appendSlot a).RowsOk := by
  have hlive := State.isLive_appendSlot hlast a hb.lower_le
  have hslot := fun i (hi : s.isLive i = true) => State.slot_appendSlot hlast a hb hroom hi
  have hcoef := fun i j (hi : s.isLive i = true) (hj : s.isLive j = true) =>
    State.coefOf_appendSlot hlast a hb hroom hi hj
  have hnew := State.slot_appendSlot_upper a s
  have hzero := State.coefOf_appendSlot_upper a s
  have hpiv : ∀ i, (s.appendSlot a).isLive i = true → ((s.appendSlot a).slot i).piv = true →
      s.isLive i = true := fun i hi hp => by
    refine ((hlive i).mp hi).resolve_right fun h => ?_
    rw [h, hnew] at hp
    exact absurd hp Bool.false_ne_true
  refine {
    dead_clear := fun p hp => ?dead_clear
    missing_zero := fun i hi hm => ?missing_zero
    pivot_one := fun i hi hp => ?pivot_one
    reduced := fun i r hi hr hne hpi hpr => ?reduced
    in_field := fun p q => ?in_field
    zero_below := fun i j hi hp hj hji => ?zero_below
    unfrozen := fun i hi => ?unfrozen }
  case dead_clear =>
    have hpu : p ≠ s.phys s.upper.toNat := (hp s.upper.toNat ((hlive _).mpr (.inr rfl))).symm
    obtain ⟨hsl, hco⟩ := hs.dead_clear p fun i hi => hp i ((hlive i).mpr (.inl hi))
    refine ⟨?_, fun q => ⟨?_, ?_⟩⟩
    · rw [State.slotAt_appendSlot, if_neg hpu, hsl]
    · rw [State.coefAt_appendSlot, (hco q).1, ite_self]
    · rw [State.coefAt_appendSlot, (hco q).2, ite_self]
  case missing_zero =>
    rcases (hlive i).mp hi with hi | rfl
    · rw [hslot i hi] at hm ⊢
      obtain ⟨hfrz, hrow⟩ := hs.missing_zero i hi hm
      refine ⟨hfrz, fun j hj => ?_⟩
      rcases (hlive j).mp hj with hj | rfl
      · rw [hcoef i j hi hj, hrow j hj]
      · exact hzero i _ (.inr rfl)
    · exact ⟨by rw [hnew], fun j _ => hzero _ j (.inl rfl)⟩
  case pivot_one =>
    have hi' := hpiv i hi hp
    rw [hslot i hi'] at hp
    rw [hcoef i i hi' hi', hs.pivot_one i hi' hp]
  case reduced =>
    have hi' := hpiv i hi hpi
    have hr' := hpiv r hr hpr
    rw [hslot i hi'] at hpi
    rw [hslot r hr'] at hpr
    rw [hcoef r i hr' hi', hs.reduced i r hi' hr' hne hpi hpr]
  case in_field =>
    rw [State.coefAt_appendSlot]
    split
    · exact hs.in_field p q
    · exact Nat.two_pow_pos _
  case zero_below =>
    have hi' := hpiv i hi hp
    rcases (hlive j).mp hj with hj | rfl
    · rw [hslot i hi'] at hp
      rw [hcoef i j hi' hj, hs.zero_below i j hi' hp hj hji]
    · exact hzero i _ (.inr rfl)
  case unfrozen =>
    rcases (hlive i).mp hi with hi | rfl
    · rw [hslot i hi, hs.unfrozen i hi]
    · rw [hnew]

omit hlast hb hroom in
theorem overlap_comm (a n b m : Nat) : overlap a n b m = overlap b m a n := by
  unfold overlap
  exact decide_eq_decide.mpr (by omega)

omit hlast hb hroom in
theorem State.overlap_of_overlapsLive {n i : Nat} (h : s.overlapsLive a n = false) (hi : s.isLive i = true) :
    overlap a.toNat n (s.slot i).addr.toNat s.symBytes = false := by
  rw [State.overlapsLive, List.any_eq_false] at h
  exact Bool.eq_false_iff.mpr (h i ((s.mem_live i).mpr hi))

/-- `PUSH` tested the new buffer against `Mapped` and against every live slot (R101, R47). -/
theorem State.BuffersOk.appendSlot (hbuf : s.BuffersOk) (hrange : s.rangeOK a s.symBytes = true)
    (hfree : s.overlapsLive a s.symBytes = false) : (s.appendSlot a).BuffersOk := by
  have hlive := State.isLive_appendSlot hlast a hb.lower_le
  have hslot := fun i (hi : s.isLive i = true) => State.slot_appendSlot hlast a hb hroom hi
  have hnew := State.slot_appendSlot_upper a s
  have hnewFree := fun i (hi : s.isLive i = true) => State.overlap_of_overlapsLive a hfree hi
  have hrangeEq : ∀ (b : Word) n, (s.appendSlot a).rangeOK b n = s.rangeOK b n := State.rangeOK_congr rfl
  have hbytes : (s.appendSlot a).symBytes = s.symBytes := rfl
  refine ⟨fun i hi => ?_, fun i j hi hj hne => ?_⟩
  · rw [hrangeEq, hbytes]
    rcases (hlive i).mp hi with hi | rfl
    · rw [hslot i hi]; exact hbuf.mapped i hi
    · rw [hnew]; exact hrange
  · rw [hbytes]
    rcases (hlive i).mp hi with hi | rfl <;> rcases (hlive j).mp hj with hj | rfl
    · rw [hslot i hi, hslot j hj]; exact hbuf.disjoint i j hi hj hne
    · rw [hslot i hi, hnew, overlap_comm]; exact hnewFree i hi
    · rw [hslot j hj, hnew]; exact hnewFree j hj
    · exact absurd rfl hne

end

/-! ### The two read commands (R123, R125) -/

/-- The invariants that the read commands rely on and keep, besides those of the registers. -/
structure State.RowsInv (s : State) : Prop where
  bounds : s.BoundsOk
  memory : s.MemoryOk
  buffers : s.BuffersOk
  rows : s.RowsOk

theorem State.RowsInv.congr (h : s.RowsInv) (hc : t.cap = s.cap) (hl : t.lower = s.lower) (hu : t.upper = s.upper)
    (hf : t.field = s.field) (hsz : t.symsize = s.symsize) (hm : t.mapped = s.mapped) (hs : t.slots = s.slots)
    (hco : t.coef = s.coef) (hmem : t.mem = s.mem) (hn : t.freeNext = s.freeNext) : t.RowsInv where
  bounds := h.bounds.congr hc hl hu
  memory := h.memory.congr hmem hs hco hn
  buffers := h.buffers.congr hl hu hm hsz fun i _ => by rw [State.slot_congr hc hs]
  rows := h.rows.congr hl hu hc hf hs hco

theorem State.RowsInv.insertRow (h : s.RowsInv) {v : Nat} {st : Staging} (hi : s.Insertable v st) :
    (s.insertRow v st).RowsInv := by
  have hup := State.insertRow_update h.bounds h.buffers hi.live hi.payload_length
  exact ⟨hup.boundsOk h.bounds, hup.memory h.memory, hup.buffersOk h.buffers,
    h.rows.insertRow h.bounds h.buffers hi⟩

theorem State.RowsInv.reducedInput (h : s.RowsInv) (cv : List Byte) {sp : List Byte} (hsp : sp.length = s.symBytes) :
    s.ReducedAt s.live (s.reducedInput cv sp) :=
  State.reduceStaging_reducedAt h.rows (s.loadStaging_reducedAt cv hsp)

theorem State.RowsInv.absorb (h : s.RowsInv) (cv : List Byte) {sp : List Byte} (hsp : sp.length = s.symBytes) :
    (s.absorb cv sp).RowsInv := by
  rcases s.absorb_cases cv sp with ⟨-, he⟩ | ⟨v, hv, he⟩
  · rw [he]
    exact h.congr rfl rfl rfl rfl rfl rfl rfl rfl rfl rfl
  · rw [he]
    exact (h.insertRow (State.normalise_insertable (h.reducedInput cv hsp) hv)).congr
      rfl rfl rfl rfl rfl rfl rfl rfl rfl rfl

theorem State.RowsInv.memForget (h : s.RowsInv) {a : Word} {n : Nat} (hfit : a.toNat + n ≤ 2 ^ 64) :
    (s.memForget a n).RowsInv where
  bounds := h.bounds.congr rfl rfl rfl
  memory := h.memory.memForget hfit
  buffers := h.buffers.congr rfl rfl rfl rfl fun _ _ => rfl
  rows := h.rows.congr rfl rfl rfl rfl rfl rfl

theorem State.RowsInv.afterRead (h : s.RowsInv) (hsym : s.rangeOK s.a0 s.symBytes = true)
    (hvec : s.rangeOK s.a1 s.vectorBytes = true) : s.afterRead.RowsInv :=
  ((h.absorb _ (length_memRead s _ _)).memForget (State.fits_of_rangeOK hsym)).memForget
    (State.fits_of_rangeOK hvec)

theorem State.absorbSource_eq_insertRow (s : State) (v : Nat) (sp : List Byte) : s.absorbSource v sp =
    { s.insertRow v ⟨s.unitRow v, sp, false⟩ with adv := !(s.slot v).piv, res := BitVec.ofNat 64 v } := rfl

theorem State.RowsInv.absorbSource (h : s.RowsInv) {v : Nat} (hv : s.isLive v = true) {sp : List Byte}
    (hsp : sp.length = s.symBytes) : (s.absorbSource v sp).RowsInv := by
  rw [State.absorbSource_eq_insertRow]
  exact (h.insertRow (State.unitRow_insertable hv hsp)).congr rfl rfl rfl rfl rfl rfl rfl rfl rfl rfl

/-! ### Every command and every step -/

theorem State.RowsInv.appendSlot (h : s.RowsInv) (hroom : s.nsyms ≠ s.cap) (hlast : s.upper.toNat ≠ 2 ^ 64 - 1)
    {a : Word} (hrange : s.rangeOK a s.symBytes = true) (hfree : s.overlapsLive a s.symBytes = false)
    (hbounds : (s.appendSlot a).BoundsOk) : (s.appendSlot a).RowsInv where
  bounds := hbounds
  memory := ((h.memory.setSlot _ _).clearCross _).congr rfl rfl rfl rfl
  buffers := h.buffers.appendSlot hlast a h.bounds hroom hrange hfree
  rows := h.rows.appendSlot hlast a h.bounds hroom

theorem State.RowsInv.dropLowest (h : s.RowsInv) (hlt : s.lower.toNat < s.upper.toNat)
    (hbounds : s.dropLowest.BoundsOk) : s.dropLowest.RowsInv where
  bounds := hbounds
  memory := by
    rw [State.dropLowest_of_rowsOk h.rows hlt]
    exact ((h.memory.clearCross _).setSlot s.lower.toNat Slot.empty).congr rfl rfl rfl rfl
  buffers := by
    have hbytes : s.dropLowest.symBytes = s.symBytes := by rw [State.dropLowest_eq]; rfl
    have hrange : ∀ (a : Word) n, s.dropLowest.rangeOK a n = s.rangeOK a n :=
      State.rangeOK_congr (by rw [State.dropLowest_eq])
    refine ⟨fun i hi => ?_, fun i j hi hj hne => ?_⟩
    · obtain ⟨hi, hil⟩ := (State.isLive_dropLowest hlt i).mp hi
      rw [hrange, hbytes, State.slot_dropLowest h.bounds h.rows hlt hi hil]
      exact h.buffers.mapped i hi
    · obtain ⟨hi, hil⟩ := (State.isLive_dropLowest hlt i).mp hi
      obtain ⟨hj, hjl⟩ := (State.isLive_dropLowest hlt j).mp hj
      rw [hbytes, State.slot_dropLowest h.bounds h.rows hlt hi hil, State.slot_dropLowest h.bounds h.rows hlt hj hjl]
      exact h.buffers.disjoint i j hi hj hne
  rows := State.RowsOk.dropLowest h.bounds h.rows hlt

/-- `CONFIG` finds the unit without a live slot (R22, R93). -/
theorem State.ConfigOk.empty (h : s.ConfigOk) (hr : s.ready = false) :
    s.upper = s.lower ∧ s.slots = [] ∧ s.coef = [] := by
  obtain ⟨-, -, -, -, hl, hu, -, -, -, hslots, hcoef⟩ := h.unconfigured hr
  exact ⟨hu.trans hl.symm, hslots, hcoef⟩

theorem State.RowsInv.of_empty (hb : s.BoundsOk) (hm : s.MemoryOk) (h : s.upper = s.lower) (hs : s.slots = [])
    (hc : s.coef = []) : s.RowsInv := ⟨hb, hm, .of_empty h, .of_empty h hs hc⟩

/-- Every effect of a command keeps the invariants of the rows. -/
theorem Completes.rowsInv {i : Instr} (hc : Completes s i t) (h : s.RowsInv) (hconfig : s.ConfigOk) :
    t.RowsInv := by
  have hbounds : t.BoundsOk := hc.outcomes.boundsOk h.bounds
  cases hc with
  | reset => exact .of_empty hbounds h.memory.toReset rfl rfl rfl
  | config f hready =>
    obtain ⟨hempty, hslots, hcoef⟩ := hconfig.empty hready
    exact .of_empty hbounds (h.memory.congr rfl rfl rfl rfl) hempty hslots hcoef
  | result => exact h.congr rfl rfl rfl rfl rfl rfl rfl rfl rfl rfl
  | seed => exact h.congr rfl rfl rfl rfl rfl rfl rfl rfl rfl rfl
  | window => exact h.congr rfl rfl rfl rfl rfl rfl rfl rfl rfl rfl
  | store _ _ bs hrange =>
    exact ⟨hbounds, h.memory.memWrite (State.fits_of_rangeOK hrange),
      h.buffers.congr rfl rfl rfl rfl fun _ _ => rfl, h.rows.congr rfl rfl rfl rfl rfl rfl⟩
  | push _ hroom hlast hrange hfree => exact h.appendSlot hroom hlast hrange hfree hbounds
  | pop _ hne => exact h.dropLowest (State.lower_lt_upper h.bounds hne) hbounds
  | readSymbol _ _ hsym hvec => exact h.afterRead hsym hvec
  | readSourceSymbol _ hlive => exact h.absorbSource hlive (length_memRead s _ _)

theorem State.Inv.rowsInv (h : s.Inv) : s.RowsInv := ⟨h.bounds, h.memory, h.buffers, h.rows⟩

theorem State.Inv.of_rowsInv (h : s.RowsInv) (hconfig : s.ConfigOk) (hfaults : s.FaultOk) : s.Inv :=
  ⟨h.bounds, hconfig, hfaults, h.memory, h.buffers, h.rows⟩

theorem inv_kept : KeptByActions State.Inv where
  program rest h := .of_rowsInv (h.rowsInv.congr rfl rfl rfl rfl rfl rfl rfl rfl rfl rfl)
    (configOk_kept.program rest h.config) (faultOk_kept.program rest h.faults)
  returned vs h := .of_rowsInv (h.rowsInv.congr rfl rfl rfl rfl rfl rfl rfl rfl rfl rfl)
    (configOk_kept.returned vs h.config) (faultOk_kept.returned vs h.faults)
  writeReg {s} r v h := by
    refine .of_rowsInv ?_ (configOk_kept.writeReg r v h.config) (faultOk_kept.writeReg r v h.faults)
    obtain ⟨a, b, c, d, he⟩ := State.writeReg_eq s r v
    exact he ▸ h.rowsInv.congr rfl rfl rfl rfl rfl rfl rfl rfl rfl rfl
  hostWrite h hfit := .of_rowsInv
    ⟨h.bounds.congr rfl rfl rfl, h.memory.memWrite hfit, h.buffers.congr rfl rfl rfl rfl fun _ _ => rfl,
      h.rows.congr rfl rfl rfl rfl rfl rfl⟩
    (configOk_kept.hostWrite h.config hfit) (faultOk_kept.hostWrite h.faults hfit)
  raise op info h hc := .of_rowsInv (h.rowsInv.congr rfl rfl rfl rfl rfl rfl rfl rfl rfl rfl)
    (configOk_kept.raise op info h.config hc) (faultOk_kept.raise op info h.faults hc)
  completes h hc := .of_rowsInv (hc.rowsInv h.rowsInv h.config) (configOk_kept.completes h.config hc)
    (faultOk_kept.completes h.faults hc)

/-- Settles O55: each action of the host and each effect of a command keeps every invariant. -/
theorem stepKeepsEveryInvariant : Obligations.StepKeepsEveryInvariant :=
  fun _ _ hs h => step_keeps inv_kept hs h

/-- Every command keeps every invariant. -/
theorem State.Inv.exec {i : Instr} (hs : s.Inv) (h : exec i s = .next t) : t.Inv :=
  (exec_outcomes h).keeps inv_kept hs

/-- Settles O54: reset leaves no row, and every command keeps every invariant. -/
theorem commandsKeepTheEliminationInvariants : Obligations.CommandsKeepTheEliminationInvariants :=
  ⟨fun _ _ => .of_empty rfl rfl rfl, fun _ _ _ hs h => (hs.exec h).rows⟩

end Sys2Proof.Machine
end

section
/-! Consistent rows (R30, R129): every stored row states a true equation about the source symbols. A row operation is
linear in coefficients and payload alike, so it keeps the equations; a decoded row's equation names one source symbol
with coefficient 1. -/

namespace Sys2Proof.Machine

variable {s t : State} {src : Nat → List Byte}

/-! ### Linear combinations of the source symbols -/

/-- The linear combination of the live source symbols that the coefficients `c` name (R30). -/
def State.combine (s : State) (src : Nat → List Byte) (c : Nat → Elem) : List Byte :=
  linComb s.field s.symBytes (s.live.map fun j => (c j, src j))

/-- A row is consistent when its payload is the combination of its coefficients. -/
theorem State.consistent_iff : s.Consistent src ↔
    ∀ i, s.isLive i = true → (s.slot i).piv = true → s.payload i = s.combine src (s.coefOf i) := Iff.rfl

/-- The source symbols have the size of a symbol, and this size holds whole elements (R67, R92). -/
structure State.Sources (s : State) (src : Nat → List Byte) : Prop where
  length : ∀ j, (src j).length = s.symBytes
  whole : WholeElems s.field s.symBytes

theorem State.ConfigOk.wholeElems (h : s.ConfigOk) (hr : s.ready = true) : WholeElems s.field s.symBytes :=
  h.size_even hr

theorem State.combine_congr {c c' : Nat → Elem} (h : ∀ j, s.isLive j = true → c j = c' j) :
    s.combine src c = s.combine src c' := by
  have hmap : (s.live.map fun j => (c j, src j)) = s.live.map fun j => (c' j, src j) :=
    List.map_congr_left fun j hj => by rw [h j ((s.mem_live j).mp hj)]
  rw [State.combine, State.combine, hmap]

theorem State.combine_congr_state (hl : t.lower = s.lower) (hu : t.upper = s.upper) (hf : t.field = s.field)
    (hsz : t.symsize = s.symsize) (c : Nat → Elem) : t.combine src c = s.combine src c := by
  unfold State.combine State.symBytes
  rw [State.live_congr hl hu, hf, hsz]

/-- Two linear combinations are equal when their sums are, element by element. -/
theorem linComb_eq_of_sum_eq {f : FieldId} {n : Nat} {as bs : List (Elem × List Byte)}
    (ha : ∀ t ∈ as, t.2.length = n) (hb : ∀ t ∈ bs, t.2.length = n) (hwhole : WholeElems f n)
    (h : ∀ k < numElems f n, (as.map fun t => residue f t.1 * residue f (elemAt f t.2 k)).sum =
      (bs.map fun t => residue f t.1 * residue f (elemAt f t.2 k)).sum) : linComb f n as = linComb f n bs :=
  buffer_ext_residue (length_linComb f ha) (length_linComb f hb) hwhole fun k hk => by
    rw [residue_elemAt_linComb f ha hk, residue_elemAt_linComb f hb hk, h k hk]

section
variable (hsrc : s.Sources src)
include hsrc

theorem State.Sources.length_of_mem {l : List Nat} {c : Nat → Elem} :
    ∀ t ∈ l.map (fun j => (c j, src j)), t.2.length = s.symBytes := by
  intro t ht
  obtain ⟨j, -, rfl⟩ := List.mem_map.mp ht
  exact hsrc.length j

theorem State.Sources.length_combine (c : Nat → Elem) : (s.combine src c).length = s.symBytes :=
  length_linComb _ hsrc.length_of_mem

theorem State.Sources.residue_combine (c : Nat → Elem) {k : Nat} (hk : k < numElems s.field s.symBytes) :
    residue s.field (elemAt s.field (s.combine src c) k) =
      (s.live.map fun j => residue s.field (c j) * residue s.field (elemAt s.field (src j) k)).sum := by
  rw [State.combine, residue_elemAt_linComb _ hsrc.length_of_mem hk, List.map_map]
  rfl

/-- A payload plus `e` times another goes with the coefficients plus `e` times the other's (R123, R124). -/
theorem State.Sources.vecMAdd_combine (x c : Nat → Elem) (e : Elem) :
    vecMAdd s.field (s.combine src x) (s.combine src c) e =
      s.combine src fun j => gfAdd (x j) (gfMul s.field e (c j)) := by
  have hx := hsrc.length_combine x
  have hlen := hx.trans (hsrc.length_combine c).symm
  refine buffer_ext_residue ((length_vecMAdd _ _ hlen).trans hx) (hsrc.length_combine _) hsrc.whole fun k hk => ?_
  rw [residue_elemAt_vecMAdd _ _ hlen (by rwa [hx]), hsrc.residue_combine _ hk, hsrc.residue_combine _ hk,
    hsrc.residue_combine _ hk, ← List.sum_map_mul_left, ← List.sum_map_add]
  refine congrArg List.sum (List.map_congr_left fun j _ => ?_)
  rw [residue_add, residue_mul]
  ring

/-- A scaled payload goes with the scaled coefficients (R123). -/
theorem State.Sources.vecScale_combine (c : Nat → Elem) (g : Elem) :
    vecScale s.field (s.combine src c) g = s.combine src fun j => gfMul s.field g (c j) := by
  have hc := hsrc.length_combine c
  refine buffer_ext_residue ((length_vecScale _ _ _).trans hc) (hsrc.length_combine _) hsrc.whole fun k hk => ?_
  rw [elemAt_vecScale _ _ _ (by rwa [hc]), residue_mul, hsrc.residue_combine _ hk, hsrc.residue_combine _ hk,
    ← List.sum_map_mul_left]
  refine congrArg List.sum (List.map_congr_left fun j _ => ?_)
  rw [residue_mul]
  ring

/-- The combination that names one live symbol with coefficient 1 is this symbol. -/
theorem State.Sources.combine_single {v : Nat} (hv : s.isLive v = true) {c : Nat → Elem} (hone : c v = 1)
    (hzero : ∀ j, s.isLive j = true → j ≠ v → c j = 0) : s.combine src c = src v := by
  refine buffer_ext_residue (hsrc.length_combine c) (hsrc.length v) hsrc.whole fun k hk => ?_
  rw [hsrc.residue_combine c hk, List.sum_map_eq_nsmul_single v _ fun j hj hmem => by
      rw [hzero j ((s.mem_live j).mp hmem) hj, residue_zero, zero_mul],
    List.count_eq_one_of_mem s.live_nodup ((s.mem_live v).mpr hv), hone, residue_one, one_mul, one_smul]

end

/-! ### The incoming row -/

/-- The staging row states a true equation too (R123). -/
def State.StagingConsistent (s : State) (src : Nat → List Byte) (st : Staging) : Prop :=
  st.payload = s.combine src (s.stagedCoef st.coefs)

/-- A sum over the live indices of terms that vanish outside the window is the sum over the window (R103). -/
theorem State.sum_live_of_window {M : Type} [AddCommMonoid M] (hw : s.windowOK = true) (g : Nat → M) :
    (s.live.map fun j => if s.wlower.toNat ≤ j ∧ j < s.wlower.toNat + s.wsyms.toNat then g j else 0).sum =
      ((List.range s.wsyms.toNat).map fun j => g (s.wlower.toNat + j)).sum := by
  simp only [State.windowOK, State.windowFits, decide_eq_true_eq] at hw
  obtain ⟨hlo, hhi⟩ := hw
  have hsplit : s.live =
      List.range' s.lower.toNat (s.wlower.toNat - s.lower.toNat) ++
        (List.range' s.wlower.toNat s.wsyms.toNat ++
          List.range' (s.wlower.toNat + s.wsyms.toNat) (s.upper.toNat - (s.wlower.toNat + s.wsyms.toNat))) := by
    have hstart : s.lower.toNat + (s.wlower.toNat - s.lower.toNat) = s.wlower.toNat := by omega
    have hcount : s.nsyms = s.wlower.toNat - s.lower.toNat +
        (s.wsyms.toNat + (s.upper.toNat - (s.wlower.toNat + s.wsyms.toNat))) := by
      unfold State.nsyms; omega
    rw [State.live, hcount, ← List.range'_append_1, hstart, ← List.range'_append_1]
  have hzero : ∀ l : List Nat, (∀ j ∈ l, ¬ (s.wlower.toNat ≤ j ∧ j < s.wlower.toNat + s.wsyms.toNat)) →
      (l.map fun j => if s.wlower.toNat ≤ j ∧ j < s.wlower.toNat + s.wsyms.toNat then g j else 0).sum = 0 := by
    intro l hl
    refine List.sum_eq_zero fun x hx => ?_
    obtain ⟨j, hj, rfl⟩ := List.mem_map.mp hx
    exact if_neg (hl j hj)
  have hinside : ∀ j ∈ List.range' s.wlower.toNat s.wsyms.toNat,
      (if s.wlower.toNat ≤ j ∧ j < s.wlower.toNat + s.wsyms.toNat then g j else 0) = g j := fun j hj =>
    if_pos (List.mem_range'_1.mp hj)
  rw [hsplit, List.map_append, List.map_append, List.sum_append, List.sum_append,
    hzero _ fun j hj => by rw [List.mem_range'_1] at hj; omega,
    hzero (List.range' (s.wlower.toNat + s.wsyms.toNat) _) fun j hj => by rw [List.mem_range'_1] at hj; omega,
    List.map_congr_left hinside, zero_add, add_zero, List.range'_eq_map_range, List.map_map]
  rfl

section
variable (hsrc : s.Sources src)
include hsrc

theorem State.Sources.loadStaging_consistent (hw : s.windowOK = true) (hin : s.ConsistentInput src) :
    s.StagingConsistent src (s.loadStaging (s.memRead s.a1 s.vectorBytes) (s.memRead s.a0 s.symBytes)) := by
  have hpay : (s.loadStaging (s.memRead s.a1 s.vectorBytes) (s.memRead s.a0 s.symBytes)).payload =
      linComb s.field s.symBytes ((List.range s.wsyms.toNat).map fun j =>
        (elemAt s.field (s.memRead s.a1 s.vectorBytes) j, src (s.wlower.toNat + j))) := hin
  have hcoef : ∀ j, s.isLive j = true →
      s.stagedCoef (s.loadStaging (s.memRead s.a1 s.vectorBytes) (s.memRead s.a0 s.symBytes)).coefs j =
        s.incoming (s.memRead s.a1 s.vectorBytes) j := fun _ hj => s.stagedCoef_map _ hj
  unfold State.StagingConsistent
  rw [hpay, State.combine_congr hcoef, State.combine]
  refine linComb_eq_of_sum_eq (fun t ht => ?_) hsrc.length_of_mem hsrc.whole fun k _ => ?_
  · obtain ⟨j, -, rfl⟩ := List.mem_map.mp ht
    exact hsrc.length _
  · have hwindow := State.sum_live_of_window hw fun j =>
      residue s.field (elemAt s.field (s.memRead s.a1 s.vectorBytes) (j - s.wlower.toNat)) *
        residue s.field (elemAt s.field (src j) k)
    rw [List.map_map, List.map_map]
    refine Eq.trans ?_ (hwindow.symm.trans ?_)
    · refine congrArg List.sum (List.map_congr_left fun j _ => ?_)
      rw [Nat.add_sub_cancel_left]
      rfl
    · refine congrArg List.sum (List.map_congr_left fun j _ => ?_)
      simp only [Function.comp_apply, State.incoming]
      split
      · rfl
      · rw [residue_zero, zero_mul]

theorem State.Sources.reduceAt_consistent (hc : s.Consistent src) {st : Staging} {i : Nat}
    (hi : s.isLive i = true) (hlen : st.coefs.length = s.nsyms) (h : s.StagingConsistent src st) :
    s.StagingConsistent src (s.reduceAt st i) := by
  by_cases hp : (s.slot i).piv = true ∧ s.stagedCoef st.coefs i ≠ 0
  · have hcoef : ∀ j, s.isLive j = true →
        s.stagedCoef (addMultiple s.field st.coefs (s.stagedCoef st.coefs i) (s.row i)) j =
          gfAdd (s.stagedCoef st.coefs j) (gfMul s.field (s.stagedCoef st.coefs i) (s.coefOf i j)) :=
      fun j hj => (State.stagedCoef_addMultiple _ hlen (s.length_row i) hj).trans
        (by rw [State.stagedCoef_row s i hj])
    rw [State.reduceAt_of_pos hp]
    unfold State.StagingConsistent at h ⊢
    rw [h, State.consistent_iff.mp hc i hi hp.1, hsrc.vecMAdd_combine]
    exact (State.combine_congr hcoef).symm
  · rw [State.reduceAt_of_neg hp]
    exact h

theorem State.Sources.reduceStaging_consistent (hc : s.Consistent src) (hs : s.RowsOk) {st : Staging}
    (hr : s.ReducedAt [] st) (h : s.StagingConsistent src st) : s.StagingConsistent src (s.reduceStaging st) := by
  have hloop : ∀ l : List Nat, (∀ i ∈ l, s.isLive i = true) →
      s.StagingConsistent src (l.foldl s.reduceAt st) := by
    intro l
    induction l using List.reverseRecOn with
    | nil => exact fun _ => h
    | append_singleton l i ih =>
      intro hl
      have hl' : ∀ k ∈ l, s.isLive k = true := fun k hk => hl k (by simp [hk])
      rw [List.foldl_append, List.foldl_cons, List.foldl_nil]
      exact hsrc.reduceAt_consistent hc (hl i (by simp)) (hr.foldl hs hl').coefs_length (ih hl')
  exact hloop s.live fun i hi => (s.mem_live i).mp hi

theorem State.Sources.normalise_consistent {st : Staging} (h : s.StagingConsistent src st) (v : Nat) :
    s.StagingConsistent src (s.normalise st v) := by
  unfold State.StagingConsistent at h ⊢
  have hpay : (s.normalise st v).payload =
      vecScale s.field st.payload (gfInv s.field (s.stagedCoef st.coefs v)) := rfl
  rw [hpay, h, hsrc.vecScale_combine]
  exact (State.combine_congr fun j _ => State.stagedCoef_map_gfMul s _ st.coefs j).symm

/-- A consistent row inserted keeps every row consistent: the rows it is added to gain the same multiple on both
sides of their equations. -/
theorem State.Sources.insertRow_consistent (h : s.RowsInv) (hc : s.Consistent src) {v : Nat} {st : Staging}
    (hi : s.Insertable v st) (hst : s.StagingConsistent src st) : (s.insertRow v st).Consistent src := by
  have hup := State.insertRow_update h.bounds h.buffers hi.live hi.payload_length
  rw [State.consistent_iff] at hc ⊢
  intro r hr hp
  rw [hup.isLive] at hr
  rw [State.combine_congr_state hup.lower hup.upper hup.field hup.symsize]
  by_cases hrv : r = v
  · subst hrv
    rw [State.payload_insertRow_self h.bounds h.buffers hi, hst]
    exact (State.combine_congr fun j hj => State.coefOf_insertRow_self h.bounds h.buffers hi hj).symm
  · rw [State.slot_insertRow_of_ne h.bounds h.buffers hi hr hrv] at hp
    have hcoef : ∀ j, s.isLive j = true → (s.insertRow v st).coefOf r j =
        gfAdd (s.coefOf r j) (gfMul s.field (s.coefOf r v) (s.stagedCoef st.coefs j)) := fun j hj => by
      rw [State.coefOf_insertRow_of_ne h.bounds h.buffers hi hr hrv hj, if_pos hp]
    rw [State.payload_insertRow_of_ne h.bounds h.buffers hi hr hrv, State.combine_congr hcoef]
    split
    · rw [hst, hc r hr hp, hsrc.vecMAdd_combine]
    · next href =>
      have hzero : s.coefOf r v = 0 := by
        by_contra hne
        exact href ⟨hrv, hp, hne⟩
      rw [hc r hr hp]
      exact State.combine_congr fun j _ => by rw [hzero, zero_gfMul, gfAdd_zero]

end

/-! ### What keeps the payloads of the live slots -/

/-- Consistency reads the rows and the payloads of the live slots. -/
theorem State.Consistent.congr (h : s.Consistent src) (hl : t.lower = s.lower) (hu : t.upper = s.upper)
    (hc : t.cap = s.cap) (hf : t.field = s.field) (hsz : t.symsize = s.symsize) (hs : t.slots = s.slots)
    (hco : t.coef = s.coef) (hpay : ∀ i, s.isLive i = true → t.payload i = s.payload i) : t.Consistent src := by
  rw [State.consistent_iff] at h ⊢
  intro i hi hp
  rw [State.isLive_congr hl hu] at hi
  rw [State.slot_congr hc hs] at hp
  rw [hpay i hi, State.combine_congr_state hl hu hf hsz, h i hi hp]
  exact State.combine_congr fun j _ => (State.coefOf_congr hc hco i j).symm

theorem State.payload_memWrite_of_free {a : Word} {bs : List Byte} (h : s.overlapsLive a bs.length = false)
    {i : Nat} (hi : s.isLive i = true) : (s.memWrite a bs).payload i = s.payload i :=
  Memory.readBytes_writeBytes_disjoint _ _ _ _ _ (State.overlap_of_overlapsLive a h hi)

theorem State.payload_memForget_of_free {a : Word} {n : Nat} (h : s.overlapsLive a n = false) {i : Nat}
    (hi : s.isLive i = true) : (s.memForget a n).payload i = s.payload i := by
  have hfree := State.overlap_of_overlapsLive a h hi
  simp only [overlap, decide_eq_false_iff_not] at hfree
  refine Memory.readBytes_congr fun x hlo hhi => ?_
  change x < (s.slot i).addr.toNat + s.symBytes at hhi
  change (s.slot i).addr.toNat ≤ x at hlo
  rw [State.memForget_mem, Memory.readByte_forgetBytes, if_neg (by omega)]

theorem State.Consistent.memForget (hc : s.Consistent src) {a : Word} {n : Nat} (h : s.overlapsLive a n = false) :
    (s.memForget a n).Consistent src :=
  hc.congr rfl rfl rfl rfl rfl rfl rfl fun _ hi => State.payload_memForget_of_free h hi

theorem State.Consistent.of_empty (h : s.upper = s.lower) : s.Consistent src :=
  fun i hi => absurd (hi.symm.trans (State.isLive_of_bounds_eq h i)) (by decide)

theorem State.RowUpdate.overlapsLive (h : s.RowUpdate t) (a : Word) (n : Nat) :
    t.overlapsLive a n = s.overlapsLive a n := by
  unfold State.overlapsLive
  rw [h.live, h.symBytes]
  simp only [h.addr]

/-! ### The effects of the commands -/

/-- The effect of `READ_SYMBOL` on the unit, as an update of the rows of the state it started from. -/
theorem State.RowsInv.absorb_update (h : s.RowsInv) (cv : List Byte) {sp : List Byte} (hsp : sp.length = s.symBytes) :
    ∃ u, s.RowUpdate u ∧ ∃ adv res, s.absorb cv sp = { u with adv := adv, res := res } := by
  rcases s.absorb_cases cv sp with ⟨-, he⟩ | ⟨v, hv, he⟩
  · exact ⟨s, .refl s, _, _, he⟩
  · have hi := State.normalise_insertable (h.reducedInput cv hsp) hv
    exact ⟨_, State.insertRow_update h.bounds h.buffers hi.live hi.payload_length, _, _, he⟩

theorem State.Sources.absorb_consistent (hsrc : s.Sources src) (h : s.RowsInv) (hc : s.Consistent src)
    (hw : s.windowOK = true) (hin : s.ConsistentInput src) :
    (s.absorb (s.memRead s.a1 s.vectorBytes) (s.memRead s.a0 s.symBytes)).Consistent src := by
  have hsp := length_memRead s s.a0 s.symBytes
  have hload := hsrc.loadStaging_consistent hw hin
  rcases s.absorb_cases (s.memRead s.a1 s.vectorBytes) (s.memRead s.a0 s.symBytes) with ⟨-, he⟩ | ⟨v, hv, he⟩
  · rw [he]
    exact hc.congr rfl rfl rfl rfl rfl rfl rfl fun _ _ => rfl
  · have hred := hsrc.reduceStaging_consistent hc h.rows (s.loadStaging_reducedAt _ hsp) hload
    have hi := State.normalise_insertable (h.reducedInput _ hsp) hv
    rw [he]
    exact (hsrc.insertRow_consistent h hc hi (hsrc.normalise_consistent hred v)).congr
      rfl rfl rfl rfl rfl rfl rfl fun _ _ => rfl

/-- The incoming buffers that become unspecified are no live slot's (R47). -/
theorem State.Sources.afterRead_consistent (hsrc : s.Sources src) (h : s.RowsInv) (hc : s.Consistent src)
    (hw : s.windowOK = true) (hin : s.ConsistentInput src)
    (hsym : s.overlapsLive s.a0 s.symBytes = false) (hvec : s.overlapsLive s.a1 s.vectorBytes = false) :
    s.afterRead.Consistent src := by
  obtain ⟨u, hup, adv, res, he⟩ :=
    h.absorb_update (s.memRead s.a1 s.vectorBytes) (length_memRead s s.a0 s.symBytes)
  have hcons := hsrc.absorb_consistent h hc hw hin
  unfold State.afterRead
  rw [he] at hcons ⊢
  refine (hcons.memForget ?_).memForget ?_
  · exact (hup.overlapsLive _ _).trans hsym
  · exact (hup.overlapsLive _ _).trans hvec

theorem State.Sources.absorbSource_consistent (hsrc : s.Sources src) (h : s.RowsInv) (hc : s.Consistent src)
    {v : Nat} (hv : s.isLive v = true) {sp : List Byte} (hsp : sp = src v) :
    (s.absorbSource v sp).Consistent src := by
  have hi := State.unitRow_insertable hv ((congrArg List.length hsp).trans (hsrc.length v))
  have hcoef := fun j (hj : s.isLive j = true) => s.stagedCoef_map (fun j => if j = v then (1 : Elem) else 0) hj
  have hst : s.StagingConsistent src ⟨s.unitRow v, sp, false⟩ := by
    refine hsp.trans (hsrc.combine_single hv ?_ fun j hj hjv => ?_).symm
    · exact (hcoef v hv).trans (if_pos rfl)
    · exact (hcoef j hj).trans (if_neg hjv)
  exact (hsrc.insertRow_consistent h hc hi hst).congr rfl rfl rfl rfl rfl rfl rfl fun _ _ => rfl

theorem State.live_appendSlot (hb : s.BoundsOk) (hlast : s.upper.toNat ≠ 2 ^ 64 - 1) (a : Word) :
    (s.appendSlot a).live = s.live ++ [s.upper.toNat] := by
  have hupper : (s.appendSlot a).upper.toNat = s.upper.toNat + 1 := State.toNat_upper_succ hlast
  have hcount : (s.appendSlot a).nsyms = s.nsyms + 1 := by
    change (s.appendSlot a).upper.toNat - s.lower.toNat = s.upper.toNat - s.lower.toNat + 1
    have := hb.lower_le
    omega
  have hend : s.lower.toNat + s.nsyms = s.upper.toNat := by
    have := hb.lower_le
    unfold State.nsyms
    omega
  rw [State.live, hcount, List.range'_1_concat]
  change s.live ++ [s.lower.toNat + s.nsyms] = _
  rw [hend]

/-- The new column is 0 in every row, so it adds nothing to their equations (R101). -/
theorem State.Sources.appendSlot_consistent (hsrc : s.Sources src) (hb : s.BoundsOk) (hc : s.Consistent src)
    (hroom : s.nsyms ≠ s.cap) (hlast : s.upper.toNat ≠ 2 ^ 64 - 1) (a : Word) :
    (s.appendSlot a).Consistent src := by
  rw [State.consistent_iff] at hc ⊢
  intro r hr hp
  rcases (State.isLive_appendSlot hlast a hb.lower_le r).mp hr with hr | rfl
  · have hslot := State.slot_appendSlot hlast a hb hroom hr
    have hpay : (s.appendSlot a).payload r = s.payload r := by
      unfold State.payload
      rw [hslot]
      rfl
    rw [hslot] at hp
    rw [hpay, hc r hr hp, State.combine, State.combine, State.live_appendSlot hb hlast]
    refine linComb_eq_of_sum_eq hsrc.length_of_mem hsrc.length_of_mem hsrc.whole fun k _ => ?_
    rw [List.map_map, List.map_map, List.map_append, List.sum_append, List.map_singleton, List.sum_singleton,
      Function.comp_apply, State.coefOf_appendSlot_upper a s r _ (.inr rfl), residue_zero, zero_mul, add_zero]
    refine congrArg List.sum (List.map_congr_left fun j hj => ?_)
    rw [Function.comp_apply, Function.comp_apply,
      State.coefOf_appendSlot hlast a hb hroom hr ((s.mem_live j).mp hj)]
  · rw [State.slot_appendSlot_upper] at hp
    exact absurd hp Bool.false_ne_true

theorem State.live_dropLowest (hlt : s.lower.toNat < s.upper.toNat) :
    s.live = s.lower.toNat :: s.dropLowest.live := by
  have hsucc := State.toNat_lower_succ hlt
  have hcount : s.nsyms = s.dropLowest.nsyms + 1 := by
    rw [State.dropLowest_eq, State.nsyms, State.nsyms]
    dsimp only
    omega
  have hlower : s.dropLowest.lower.toNat = s.lower.toNat + 1 := by
    rw [State.dropLowest_eq]
    exact hsucc
  rw [State.live, hcount, List.range'_succ, ← hlower]
  rfl

/-- The column that goes is 0 in every row that stays, so it takes nothing from their equations (R28 (f), R102). -/
theorem State.Sources.dropLowest_consistent (hsrc : s.Sources src) (hb : s.BoundsOk) (hs : s.RowsOk)
    (hc : s.Consistent src) (hlt : s.lower.toNat < s.upper.toNat) : s.dropLowest.Consistent src := by
  rw [State.consistent_iff] at hc ⊢
  intro r hr hp
  obtain ⟨hr, hne⟩ := (State.isLive_dropLowest hlt r).mp hr
  have hslot := State.slot_dropLowest hb hs hlt hr hne
  have hfield : s.dropLowest.field = s.field := by rw [State.dropLowest_eq]
  have hbytes : s.dropLowest.symBytes = s.symBytes := by rw [State.dropLowest_eq]; rfl
  have hmem : s.dropLowest.mem = s.mem := by rw [State.dropLowest_eq]
  have hpay : s.dropLowest.payload r = s.payload r := by
    unfold State.payload State.memRead
    rw [hslot, hbytes, hmem]
  rw [hslot] at hp
  rw [hpay, hc r hr hp, State.combine, State.combine, hfield, hbytes, State.live_dropLowest hlt]
  refine linComb_eq_of_sum_eq hsrc.length_of_mem hsrc.length_of_mem hsrc.whole fun k _ => ?_
  rw [List.map_map, List.map_map, List.map_cons, List.sum_cons, Function.comp_apply,
    State.coefOf_lower hs hlt hr hne hp, residue_zero, zero_mul, zero_add]
  refine congrArg List.sum (List.map_congr_left fun j hj => ?_)
  obtain ⟨hj, hjl⟩ := (State.isLive_dropLowest hlt j).mp ((State.mem_live _ j).mp hj)
  rw [Function.comp_apply, Function.comp_apply, State.coefOf_dropLowest hb hs hlt hr hne hj hjl]

/-- Every effect of a command keeps the rows consistent, if what the command reads is true (R30, R163). -/
theorem Completes.consistent {i : Instr} (h : Completes s i t) (hs : s.Inv)
    (hlen : ∀ j, (src j).length = s.symBytes) (hc : s.Consistent src)
    (hread : i = .readSymbol → s.ConsistentInput src)
    (hsource : i = .readSourceSymbol → s.memRead s.a0 s.symBytes = src s.a1.toNat)
    (hvmadd : i = .vmadd → s.overlapsLive s.a0 s.a3.toNat = false) : t.Consistent src := by
  have hsrc : s.ready = true → s.Sources src := fun hr => ⟨hlen, hs.config.wholeElems hr⟩
  cases h with
  | reset => exact .of_empty rfl
  | config f hready => exact .of_empty (hs.config.empty hready).1
  | result => exact hc.congr rfl rfl rfl rfl rfl rfl rfl fun _ _ => rfl
  | seed => exact hc.congr rfl rfl rfl rfl rfl rfl rfl fun _ _ => rfl
  | window => exact hc.congr rfl rfl rfl rfl rfl rfl rfl fun _ _ => rfl
  | store _ _ bs _ hbs hfree =>
    have hover : s.overlapsLive s.a0 bs.length = false := by
      by_cases hi : i = .vmadd
      · rw [hbs hi]; exact hvmadd hi
      · exact hfree hi
    exact hc.congr rfl rfl rfl rfl rfl rfl rfl fun _ hi => State.payload_memWrite_of_free hover hi
  | push hr hroom hlast => exact (hsrc hr).appendSlot_consistent hs.bounds hc hroom hlast _
  | pop hr hne =>
    exact (hsrc hr).dropLowest_consistent hs.bounds hs.rows hc (State.lower_lt_upper hs.bounds hne)
  | readSymbol hr hw _ _ hsym hvec =>
    exact (hsrc hr).afterRead_consistent hs.rowsInv hc hw (hread rfl) hsym hvec
  | readSourceSymbol hr hlive => exact (hsrc hr).absorbSource_consistent hs.rowsInv hc hlive (hsource rfl)

/-- The symbol size changes only where no slot is live afterwards. -/
theorem Outcomes.symsize_or_empty {i : Instr} (h : Outcomes s i t) (hs : s.Inv) :
    t.symsize = s.symsize ∨ t.upper = t.lower := by
  rcases h with rfl | ⟨c, info, -, -, rfl⟩ | h
  · exact .inl rfl
  · exact .inl rfl
  · cases h with
    | reset => exact .inr rfl
    | config f hready => exact .inr (hs.config.empty hready).1
    | pop => rw [State.dropLowest_eq]; exact .inl rfl
    | readSymbol => rw [State.afterRead_eq]; exact .inl rfl
    | readSourceSymbol => rw [State.absorbSource_eq]; exact .inl rfl
    | _ => exact .inl rfl

/-- A decoded row's equation names its own source symbol and no other (R129 (b)). -/
theorem State.Sources.payload_of_decoded (hsrc : s.Sources src) (hs : s.RowsOk) (hc : s.Consistent src) {k : Nat}
    (hk : s.isLive k = true) (hd : s.rowState k = .decoded) : s.payload k = src k := by
  obtain ⟨hpiv, -, hzero⟩ := (s.rowState_eq_decoded_iff k).mp hd
  rw [State.consistent_iff.mp hc k hk hpiv]
  exact hsrc.combine_single hk (hs.pivot_one k hk hpiv) hzero

/-- A unit with a live slot is configured. -/
theorem State.ConfigOk.ready_of_isLive (h : s.ConfigOk) {k : Nat} (hk : s.isLive k = true) : s.ready = true := by
  by_contra hr
  obtain ⟨hempty, -⟩ := h.empty (Bool.eq_false_iff.mpr hr)
  exact absurd (hk.symm.trans (State.isLive_of_bounds_eq hempty k)) (by decide)

/-- Settles O49: each effect keeps the equations of the rows, and a decoded row's equation is its symbol. -/
theorem decodedPayloadIsTheSourceSymbol : Obligations.DecodedPayloadIsTheSourceSymbol := by
  intro i s t src hs hlen hc hread hsource hvmadd h
  have ho := exec_outcomes h
  have hcons : t.Consistent src := by
    rcases ho with rfl | ⟨c, info, -, -, rfl⟩ | hcomp
    · exact hc
    · exact hc.congr rfl rfl rfl rfl rfl rfl rfl fun _ _ => rfl
    · exact hcomp.consistent hs hlen hc hread hsource hvmadd
  have ht : t.Inv := hs.exec h
  refine ⟨hcons, fun k hk hd => ?_⟩
  have hsize : t.symBytes = s.symBytes := by
    rcases ho.symsize_or_empty hs with hsz | hempty
    · unfold State.symBytes; rw [hsz]
    · exact absurd (hk.symm.trans (State.isLive_of_bounds_eq hempty k)) (by decide)
  have hsrc : t.Sources src :=
    ⟨fun j => (hlen j).trans hsize.symm, ht.config.wholeElems (ht.config.ready_of_isLive hk)⟩
  exact hsrc.payload_of_decoded ht.rows hcons hk hd

end Sys2Proof.Machine
end

section
/-! The statements about memory: what the host reads back (R41, R48), what `RangeOK` says (R44), the canonical forms
that every step keeps (R25, R26, R40), and the one way a command is refused (R47). -/

namespace Sys2Proof.Machine

/-! ### The host's memory accesses (R48) -/

theorem hostAct_memWrite_of_fits {s : State} {a : Word} {bs : List Byte} (h : a.toNat + bs.length ≤ 2 ^ 64) :
    hostAct s (.memWrite a bs) = .next (s.memWrite a bs) :=
  State.hostMemWrite_next.mpr ⟨h, rfl⟩

theorem hostAct_memWrite_of_past_top {s : State} {a : Word} {bs : List Byte} (h : 2 ^ 64 < a.toNat + bs.length) :
    hostAct s (.memWrite a bs) = .fault .hostPastTop := by
  have hfits : ¬ rangeFits a.toNat bs.length = true := by rw [rangeFits_iff]; omega
  exact if_neg hfits

theorem hostAct_memRead_of_fits {s : State} {a : Word} {n : Nat} (h : a.toNat + n ≤ 2 ^ 64) :
    hostAct s (.memRead a n) = .next { s with returned := s.returned ++ [.bytes (s.memRead a n)] } :=
  State.hostMemRead_next.mpr ⟨h, rfl⟩

/-- The bytes that the state holds after a store are those stored (R45). -/
theorem State.memRead_memWrite_same (s : State) (a : Word) (bs : List Byte) :
    (s.memWrite a bs).memRead a bs.length = bs :=
  Memory.readBytes_writeBytes_same _ _ _

theorem step_of_memWrite {s : State} {a : Word} {bs : List Byte} {rest : List HostAction}
    (hprog : s.program = .memWrite a bs :: rest) (hfits : a.toNat + bs.length ≤ 2 ^ 64) :
    step s = .next (({ s with program := rest } : State).memWrite a bs) := by
  rw [step_of_program_cons hprog, hostAct_memWrite_of_fits hfits]

theorem step_of_memRead {s : State} {a : Word} {n : Nat} {rest : List HostAction}
    (hprog : s.program = .memRead a n :: rest) (hfits : a.toNat + n ≤ 2 ^ 64) :
    step s = .next { s with program := rest, returned := s.returned ++ [.bytes (s.memRead a n)] } := by
  rw [step_of_program_cons hprog, hostAct_memRead_of_fits hfits]
  rfl

theorem run_two {s t u : State} (h : step s = .next t) (h' : step t = .next u) :
    Host.Core.run core 2 s = .next u := by
  have hs : core.step s = .next t := h
  have ht : core.step t = .next u := h'
  simp only [Host.Core.run, hs, ht]

/-- Settles O11: the write and the read are one step each, and the read finds what `MemWrite` stored. -/
theorem hostReadsBackWhatItWrote : Obligations.HostReadsBackWhatItWrote := by
  intro s a bs rest hprog
  refine ⟨fun hfits => ?_, fun hpast => ?_⟩
  · have hwrite := step_of_memWrite hprog hfits
    have hread := step_of_memRead
      (s := ({ s with program := .memRead a bs.length :: rest } : State).memWrite a bs) rfl hfits
    rw [State.memRead_memWrite_same] at hread
    refine ⟨_, run_two hwrite hread, rfl, fun x hx => ?_⟩
    exact Memory.readByte_writeBytes_outside _ _ _ _ (by unfold inRange at hx; omega)
  · rw [step_of_program_cons hprog, hostAct_memWrite_of_past_top hpast]

/-! ### `RangeOK` (R44) -/

/-- An address lies in one of a list of intervals. -/
def InSome (gaps : List (Nat × Nat)) (x : Nat) : Prop := ∃ p ∈ gaps, p.1 ≤ x ∧ x < p.2

theorem inSome_flatMap {gaps : List (Nat × Nat)} {f : Nat × Nat → List (Nat × Nat)} {x : Nat} :
    InSome (gaps.flatMap f) x ↔ ∃ p ∈ gaps, InSome (f p) x := by
  simp only [InSome, List.mem_flatMap]
  exact ⟨fun ⟨p, ⟨g, hg, hp⟩, hx⟩ => ⟨g, hg, p, hp, hx⟩, fun ⟨g, hg, p, hp, hx⟩ => ⟨p, ⟨g, hg, hp⟩, hx⟩⟩

/-- Leaving out the empty intervals loses no address. -/
theorem inSome_filter_nonempty {gaps : List (Nat × Nat)} {x : Nat} :
    InSome (gaps.filter (fun p => decide (p.1 < p.2))) x ↔ InSome gaps x := by
  simp only [InSome, List.mem_filter, decide_eq_true_eq]
  exact ⟨fun ⟨p, ⟨hp, _⟩, hx⟩ => ⟨p, hp, hx⟩, fun ⟨p, hp, hx⟩ => ⟨p, ⟨hp, by omega⟩, hx⟩⟩

/-- A region takes from an interval exactly the addresses that it holds. -/
theorem Region.inSome_cut (r : Region) (iv : Nat × Nat) (x : Nat) :
    InSome (r.cut iv) x ↔ (iv.1 ≤ x ∧ x < iv.2) ∧ ¬ (r.base ≤ x ∧ x < r.base + r.size) := by
  rw [Region.cut, inSome_filter_nonempty]
  simp only [InSome, List.mem_cons, List.not_mem_nil, or_false, exists_eq_or_imp, exists_eq_left]
  omega

theorem inSome_foldl_cut (regions : List Region) (gaps : List (Nat × Nat)) (x : Nat) :
    InSome (regions.foldl (fun gaps r => gaps.flatMap r.cut) gaps) x ↔
      InSome gaps x ∧ ∀ r ∈ regions, ¬ (r.base ≤ x ∧ x < r.base + r.size) := by
  induction regions generalizing gaps with
  | nil => simp
  | cons r regions ih =>
    have hcut : InSome (gaps.flatMap r.cut) x ↔ InSome gaps x ∧ ¬ (r.base ≤ x ∧ x < r.base + r.size) := by
      rw [inSome_flatMap]
      simp only [Region.inSome_cut]
      exact ⟨fun ⟨p, hp, hx, hr⟩ => ⟨⟨p, hp, hx⟩, hr⟩, fun ⟨⟨p, hp, hx⟩, hr⟩ => ⟨p, hp, hx, hr⟩⟩
    rw [List.foldl_cons, ih, hcut, List.forall_mem_cons, and_assoc]

theorem inSome_uncovered (regions : List Region) (a n x : Nat) :
    InSome (uncovered regions a n) x ↔
      inRange x a n ∧ ∀ r ∈ regions, ¬ (r.base ≤ x ∧ x < r.base + r.size) := by
  rw [uncovered, inSome_foldl_cut, inSome_filter_nonempty]
  simp [InSome]

/-- No interval that is left is empty. -/
theorem nonempty_of_mem_foldl_cut {regions : List Region} {gaps : List (Nat × Nat)}
    (hgaps : ∀ p ∈ gaps, p.1 < p.2) :
    ∀ p ∈ regions.foldl (fun gaps r => gaps.flatMap r.cut) gaps, p.1 < p.2 := by
  induction regions generalizing gaps with
  | nil => exact hgaps
  | cons r regions ih =>
    refine ih fun p hp => ?_
    obtain ⟨iv, -, hp⟩ := List.mem_flatMap.mp hp
    exact of_decide_eq_true (List.mem_filter.mp hp).2

theorem nonempty_of_mem_uncovered {regions : List Region} {a n : Nat} :
    ∀ p ∈ uncovered regions a n, p.1 < p.2 :=
  nonempty_of_mem_foldl_cut fun _ hp => of_decide_eq_true (List.mem_filter.mp hp).2

/-- Since no interval is empty, no interval is left exactly when no address is. -/
theorem uncovered_isEmpty_iff (regions : List Region) (a n : Nat) :
    (uncovered regions a n).isEmpty = true ↔ ∀ x, ¬ InSome (uncovered regions a n) x := by
  rw [List.isEmpty_iff, List.eq_nil_iff_forall_not_mem]
  refine ⟨fun h x ⟨p, hp, _⟩ => h p hp, fun h p hp => h p.1 ⟨p, hp, le_rfl, ?_⟩⟩
  exact nonempty_of_mem_uncovered p hp

/-- Settles O13: the intervals left over hold the addresses of the range that no region holds. -/
theorem rangeOkMeansEveryByteMapped : Obligations.RangeOkMeansEveryByteMapped := by
  intro s a n
  rw [State.rangeOK, Bool.and_eq_true, decide_eq_true_eq, uncovered_isEmpty_iff]
  refine and_congr Iff.rfl ?_
  simp only [inSome_uncovered, not_and, not_forall, not_not, exists_prop]
  constructor
  · intro h k hk
    exact h (a.toNat + k) ⟨Nat.le_add_right _ _, Nat.add_lt_add_left hk _⟩
  · intro h x ⟨hle, hlt⟩
    have hback : a.toNat + (x - a.toNat) = x := Nat.add_sub_cancel' hle
    rw [← hback]
    exact h (x - a.toNat) (by omega)

/-! ### The canonical forms of memory and the tables (R25, R26, R40) -/

/-- Each of the three canonical forms holds of `t` if it holds of `s`, whatever the other two are. -/
structure State.KeepsForms (s t : State) : Prop where
  mem : s.mem.wf = true → t.mem.wf = true
  slots : tableWf natLt Slot.empty s.slots = true → tableWf natLt Slot.empty t.slots = true
  coef : tableWf pairLt 0 s.coef = true → tableWf pairLt 0 t.coef = true

namespace State.KeepsForms

variable {s t u : State}

theorem refl (s : State) : s.KeepsForms s := ⟨id, id, id⟩

theorem trans (h : s.KeepsForms t) (h' : t.KeepsForms u) : s.KeepsForms u :=
  ⟨h'.mem ∘ h.mem, h'.slots ∘ h.slots, h'.coef ∘ h.coef⟩

theorem congr (h : s.KeepsForms t) (hm : u.mem = t.mem) (hs : u.slots = t.slots) (hc : u.coef = t.coef) :
    s.KeepsForms u :=
  ⟨hm ▸ h.mem, hs ▸ h.slots, hc ▸ h.coef⟩

theorem memWrite (s : State) (a : Word) (bs : List Byte) : s.KeepsForms (s.memWrite a bs) :=
  ⟨fun h => Memory.writeBytes_wf h _ _, id, id⟩

theorem memForget (s : State) (a : Word) (n : Nat) : s.KeepsForms (s.memForget a n) :=
  ⟨fun h => Memory.forgetBytes_wf h _ _ _, id, id⟩

theorem setSlot (s : State) (i : Nat) (v : Slot) : s.KeepsForms (s.setSlot i v) :=
  ⟨id, fun h => State.setSlot_wf h i v, id⟩

theorem clearCross (s : State) (p : Nat) : s.KeepsForms (s.clearCross p) :=
  ⟨id, id, fun h => State.clearCross_wf h p⟩

theorem setRow (s : State) (i : Nat) (cs : List Elem) : s.KeepsForms (s.setRow i cs) where
  mem h := by rwa [State.setRow_eq]
  slots h := by rwa [State.setRow_slots]
  coef h := State.setRow_wf h i cs

theorem replaceRow (s : State) (v : Nat) (cs : List Elem) (pl : List Byte) (sl : Slot) :
    s.KeepsForms (s.replaceRow v cs pl sl) :=
  ((setRow s v cs).trans (memWrite _ _ pl)).trans (setSlot _ v sl)

/-- A loop keeps the forms if each of its passes does. -/
theorem foldl {f : State → Nat → State} (hf : ∀ (t : State) i, t.KeepsForms (f t i)) (l : List Nat) (s : State) :
    s.KeepsForms (l.foldl f s) := by
  induction l generalizing s with
  | nil => exact refl s
  | cons i l ih => exact (hf s i).trans (ih (f s i))

theorem substituteAt (v : Nat) (p : List Byte) (s : State) (r : Nat) :
    s.KeepsForms (State.substituteAt v p s r) := by
  by_cases h : s.References v r
  · rw [State.substituteAt_of_references h]
    exact replaceRow s r _ _ _
  · rw [State.substituteAt_of_not_references h]
    exact refl s

theorem insertRow (s : State) (v : Nat) (st : Staging) : s.KeepsForms (s.insertRow v st) := by
  rw [State.insertRow, State.storeRow_eq_replaceRow]
  exact (replaceRow s v _ _ _).trans (foldl (substituteAt v _) _ _)

theorem freezeDependents (s : State) (i : Nat) : s.KeepsForms (s.freezeDependents i) := by
  refine foldl (fun t r => ?_) _ _
  split
  · exact setSlot t r _
  · exact refl t

theorem appendSlot (s : State) (a : Word) : s.KeepsForms (s.appendSlot a) :=
  ((setSlot s _ _).trans (clearCross _ _)).congr rfl rfl rfl

theorem dropLowest (s : State) : s.KeepsForms s.dropLowest :=
  (((freezeDependents s _).trans (clearCross _ _)).trans (setSlot _ s.lower.toNat Slot.empty)).congr rfl rfl rfl

theorem absorb (s : State) (cv sp : List Byte) : s.KeepsForms (s.absorb cv sp) := by
  rcases s.absorb_cases cv sp with ⟨-, he⟩ | ⟨v, -, he⟩
  · rw [he]
    exact (refl s).congr rfl rfl rfl
  · rw [he]
    exact (insertRow s v _).congr rfl rfl rfl

theorem absorbSource (s : State) (v : Nat) (sp : List Byte) : s.KeepsForms (s.absorbSource v sp) := by
  rw [State.absorbSource_eq_insertRow]
  exact (insertRow s v _).congr rfl rfl rfl

theorem afterRead (s : State) : s.KeepsForms s.afterRead :=
  ((absorb s _ _).trans (memForget _ _ _)).trans (memForget _ _ _)

theorem toReset (s : State) : s.KeepsForms s.toReset :=
  ⟨id, fun _ => rfl, fun _ => rfl⟩

end State.KeepsForms

theorem Completes.keepsForms {s t : State} {i : Instr} (h : Completes s i t) : s.KeepsForms t := by
  cases h with
  | reset => exact .toReset s
  | store => exact .memWrite s _ _
  | push => exact .appendSlot s _
  | pop => exact .dropLowest s
  | readSymbol => exact .afterRead s
  | readSourceSymbol => exact .absorbSource s _ _
  | config | result | seed | window => exact (State.KeepsForms.refl s).congr rfl rfl rfl

/-- The states whose forms are kept from `s` on are closed under the actions, so a step from `s` leads to one. -/
theorem keepsForms_kept (s : State) : KeptByActions (s.KeepsForms ·) where
  program _ h := h.congr rfl rfl rfl
  returned _ h := h.congr rfl rfl rfl
  writeReg r v h := by
    obtain ⟨a, b, c, d, he⟩ := State.writeReg_eq _ r v
    exact he ▸ h.congr rfl rfl rfl
  hostWrite h _ := h.trans (.memWrite _ _ _)
  raise _ _ h _ := h.congr rfl rfl rfl
  completes h hc := h.trans hc.keepsForms

/-- Settles O53: every action keeps the three forms, each by itself. -/
theorem stepKeepsTheCanonicalForms : Obligations.StepKeepsTheCanonicalForms := by
  intro s t h
  obtain ⟨hmem, hslots, hcoef⟩ := step_keeps (keepsForms_kept s) (.refl s) h
  exact ⟨hmem, hslots, hcoef⟩

/-! ### When a command is refused (R47) -/

/-- The answer is a next state or, if `c` allows it, the refusal of overlapping buffers. -/
def NextOrOverlap (c : Prop) (r : Result) : Prop :=
  (∃ t, r = .next t) ∨ (r = .refused .overlappingBuffers ∧ c)

namespace NextOrOverlap

variable {s : State} {c : Prop}

theorem next {t : State} : NextOrOverlap c (.next t) := .inl ⟨t, rfl⟩

theorem fail {i : Instr} {cause : Cause} {info : Word} : NextOrOverlap c (s.fail i cause info) := next

theorem overlap (h : c) : NextOrOverlap c (.refused .overlappingBuffers) := .inr ⟨rfl, h⟩

/-- A check in front of the rest of a command. -/
theorem check {p : Prop} [Decidable p] {r r' : Result} (h : NextOrOverlap c r) (h' : NextOrOverlap c r') :
    NextOrOverlap c (if p then r else r') := by
  split
  · exact h
  · exact h'

theorem unlessFault {body : State → Result} (h : s.fault = false → NextOrOverlap c (body s)) :
    NextOrOverlap c (s.unlessFault body) := by
  unfold State.unlessFault
  split
  · exact next
  · exact h (Bool.eq_false_iff.mpr ‹_›)

/-- The guards answer a next state themselves, so a refusal is the body's, in the ready state (R52). -/
theorem whenReady {i : Instr} {body : State → Result} (h : s.Active → NextOrOverlap c (body s)) :
    NextOrOverlap c (s.whenReady i body) := by
  refine unlessFault fun hf => ?_
  split
  · exact h ⟨hf, ‹_›⟩
  · exact fail

theorem execConfig : NextOrOverlap c (execConfig s) := by
  refine unlessFault fun _ => check fail ?_
  split
  · exact fail
  · exact check fail (check fail next)

end NextOrOverlap

/-- Settles O57: the checks of each command in order; the refusal is what the check for overlaps answers. -/
theorem commandsStopOnlyOnOverlap : Obligations.CommandsStopOnlyOnOverlap := by
  intro i s
  change NextOrOverlap _ (exec i s)
  unfold exec
  cases i with
  | nop | reset => exact .next
  | config => exact .execConfig
  | gfadd | gfmul | setSeed =>
    refine .whenReady fun _ => ?_
    exact .next
  | gfinv | pop | setWindow | qstate =>
    refine .whenReady fun _ => ?_
    exact .check .fail .next
  | vmadd | push | writeSymbol | readSymbol =>
    refine .whenReady fun hactive => ?_
    exact .check .fail (.check .fail (.check .fail (.check (.overlap ⟨hactive, by decide⟩) .next)))
  | generate | writeSourceSymbol | readSourceSymbol =>
    refine .whenReady fun hactive => ?_
    exact .check .fail (.check .fail (.check (.overlap ⟨hactive, by decide⟩) .next))

end Sys2Proof.Machine
end

section
/-! The statements about command words: what decodes (R50, R51), what an illegal word does (R54), and what the host
actions of a command line do (R53, R56). -/

namespace Sys2Proof

/-! ### The words that decode (R50, R51) -/

/-- Settles O1: seven of the words are those of their commands; the other two fail one test of the decoder each. -/
theorem opcodeWordsDecode : Obligations.OpcodeWordsDecode :=
  ⟨decode_encode .nop, decode_encode .config, decode_encode .vmadd, decode_encode .generate,
    decode_encode .setWindow, decode_encode .writeSourceSymbol, decode_encode .readSymbol, by decide, by decide⟩

/-- Settles O2: every command is well formed. -/
theorem decodeOfEncodeIsTheCommand : Obligations.DecodeOfEncodeIsTheCommand :=
  fun i _ => decode_encode i

/-- A word whose reserved bits are 0 is its opcode, zero-extended (R50). -/
theorem CommandWord.eq_setWidth_op {cw : CommandWord} (h : cw.rsv = 0) : cw = cw.op.setWidth 32 := by
  have hrsv : cw.rsv.toNat = 0 := by rw [h]; rfl
  apply BitVec.eq_of_toNat_eq
  simp only [CommandWord.rsv, CommandWord.op, BitVec.extractLsb'_toNat, BitVec.toNat_setWidth,
    Nat.shiftRight_eq_div_pow] at hrsv ⊢
  omega

/-- A row of the opcode map holds the opcode of its command's word (R51). -/
theorem encode_of_mem_opcodeMap : ∀ row ∈ opcodeMap, encode row.2 = row.1.setWidth 32 := by
  decide

/-- The word that decodes to a command is the one that encodes it: no other word stands for it (R54). -/
theorem decode_eq_ok_iff {cw : CommandWord} {i : Instr} : decode cw = .ok i ↔ cw = encode i := by
  refine ⟨fun h => ?_, fun h => h ▸ decode_encode i⟩
  unfold decode at h
  split at h
  · cases h
  · rename_i hrsv
    split at h
    · rename_i row hrow
      cases h
      have hop : row.1 = cw.op := by simpa using List.find?_some hrow
      rw [encode_of_mem_opcodeMap row (List.mem_of_find?_eq_some hrow), hop]
      exact CommandWord.eq_setWidth_op (not_not.mp hrsv)
    · cases h

/-- Settles O3: the table of the statement pairs each command with its word. -/
theorem acceptedWordsAreTheSeventeenOpcodes : Obligations.AcceptedWordsAreTheSeventeenOpcodes := by
  intro w i
  rw [decode_eq_ok_iff]
  cases i <;> simp [encode]

/-- A word outside the list of the seventeen does not decode (R54). -/
theorem decode_error_of_not_mem {cw : CommandWord}
    (h : cw ∉ ([0x00, 0x01, 0x02, 0x10, 0x11, 0x12, 0x13, 0x20, 0x21, 0x30, 0x31, 0x32,
      0x40, 0x41, 0x50, 0x51, 0x52] : List CommandWord)) : ∃ e, decode cw = .error e := by
  cases hdec : decode cw with
  | error e => exact ⟨e, rfl⟩
  | ok i =>
    have hrow := (acceptedWordsAreTheSeventeenOpcodes cw i).mp hdec
    exact absurd (List.mem_map_of_mem (f := Prod.fst) hrow) h

namespace Machine

/-! ### Illegal words (R54) -/

theorem issue_of_decode_error {cw : CommandWord} {e : DecodeError} (h : decode cw = .error e) {s : State}
    (hf : s.fault = false) :
    issue cw s = .next (s.raise .illegal cw.op (cw.setWidth 64)) := by
  simp [issue, h, State.unlessFault, hf]

/-- The opcode of the word written to `CMD` is the low byte of the value (R18, R50). -/
theorem op_setWidth_word (v : Word) : CommandWord.op (v.setWidth 32) = v.extractLsb' 0 8 := by
  apply BitVec.eq_of_toNat_eq
  simp only [CommandWord.op, BitVec.extractLsb'_toNat, BitVec.toNat_setWidth, Nat.shiftRight_zero]
  omega

/-- Settles O5: a word outside the list does not decode, and outside the fault state that raises `F_ILLEGAL`. -/
theorem illegalWordRaisesIllegal : Obligations.IllegalWordRaisesIllegal := by
  intro s v rest hprog hf hword
  obtain ⟨e, hdec⟩ := decode_error_of_not_mem hword
  have hissue := issue_of_decode_error (s := { s with program := rest }) hdec hf
  rw [step_of_program_cons hprog, hostAct_writeReg_cmd, hissue, op_setWidth_word]
  rfl

/-! ### Command lines (R53, R56) -/

/-- The state with another host's list. -/
def State.withProgram (s : State) (p : List HostAction) : State := { s with program := p }

@[simp] theorem State.withProgram_program (s : State) (p : List HostAction) : (s.withProgram p).program = p := rfl

@[simp] theorem State.withProgram_withProgram (s : State) (p q : List HostAction) :
    (s.withProgram p).withProgram q = s.withProgram q := rfl

theorem State.withProgram_self {s : State} {p : List HostAction} (h : s.program = p) : s.withProgram p = s := by
  subst h
  rfl

/-- A register write and a change of the host's list do not meet. -/
theorem State.writeReg_withProgram (s : State) (p : List HostAction) (r : Reg) (v : Word) :
    (s.withProgram p).writeReg r v = (s.writeReg r v).withProgram p := by
  cases r <;> rfl

/-- The registers of a list written one after the other, each with its value. -/
def State.writeRegs (s : State) (ws : List (Reg × Word)) : State :=
  ws.foldl (fun t w => t.writeReg w.1 w.2) s

@[simp] theorem State.writeRegs_nil (s : State) : s.writeRegs [] = s := rfl

@[simp] theorem State.writeRegs_cons (s : State) (w : Reg × Word) (ws : List (Reg × Word)) :
    s.writeRegs (w :: ws) = (s.writeReg w.1 w.2).writeRegs ws := rfl

/-- `CMD` is the one register whose write is more than a store (R18, R20). -/
theorem hostAct_setReg {r : Reg} (h : r ≠ .cmd) (s : State) (v : Word) :
    hostAct s (setReg r v) = .next (s.writeReg r v) := by
  cases r with
  | cmd => exact absurd rfl h
  | _ => rfl

/-- The write of a register other than `CMD` at the front of the host's list. -/
theorem step_of_setReg {s : State} {r : Reg} {v : Word} {rest : List HostAction} (hr : r ≠ .cmd)
    (hprog : s.program = setReg r v :: rest) : step s = .next ((s.writeReg r v).withProgram rest) := by
  rw [← State.writeReg_withProgram, ← hostAct_setReg hr]
  exact step_of_program_cons hprog

theorem run_succ_of_step {s t : State} (h : step s = .next t) (k : Nat) :
    Host.Core.run core (k + 1) s = Host.Core.run core k t := by
  have hs : core.step s = .next t := h
  simp only [Host.Core.run, hs]

/-- Register writes at the front of the host's list are performed one a step, in their order. -/
theorem run_setReg_writes {ws : List (Reg × Word)} {rest : List HostAction} (hws : ∀ w ∈ ws, w.1 ≠ .cmd)
    {s : State} (hprog : s.program = ws.map (Function.uncurry setReg) ++ rest) :
    Host.Core.run core ws.length s = .next ((s.withProgram rest).writeRegs ws) := by
  induction ws generalizing s with
  | nil => exact congrArg _ (State.withProgram_self hprog).symm
  | cons w ws ih =>
    obtain ⟨hw, hws⟩ := List.forall_mem_cons.mp hws
    have hstep := step_of_setReg (rest := ws.map (Function.uncurry setReg) ++ rest) hw hprog
    rw [List.length_cons, run_succ_of_step hstep, ih hws (State.withProgram_program _ _),
      State.withProgram_withProgram, ← State.writeReg_withProgram, ← State.writeRegs_cons]

/-- Operands fill `A0` to `A3` in order; a register without an operand keeps its value (R53). -/
theorem State.writeRegs_operandRegs (s : State) (ops : List Word) :
    s.writeRegs (operandRegs.zip ops) =
      { s with a0 := ops.getD 0 s.a0, a1 := ops.getD 1 s.a1, a2 := ops.getD 2 s.a2, a3 := ops.getD 3 s.a3 } := by
  match ops with
  | [] | [_] | [_, _] | [_, _, _] | _ :: _ :: _ :: _ :: _ => rfl

/-- No operand is written to `CMD` (R53). -/
theorem ne_cmd_of_mem_zip_operandRegs {ops : List Word} : ∀ w ∈ operandRegs.zip ops, w.1 ≠ .cmd := by
  intro w hw
  have hreg : ∀ r ∈ operandRegs, r ≠ .cmd := by decide
  exact hreg _ (List.of_mem_zip hw).1

/-- There is a register for each operand (R51, R53). -/
theorem length_zip_operandRegs {i : Instr} {ops : List Word} (h : ops.length = i.arity) :
    (operandRegs.zip ops).length = ops.length := by
  have harity : i.arity ≤ operandRegs.length := by cases i <;> decide
  rw [List.length_zip]
  omega

theorem lineActions_command (i : Instr) (ops : List Word) :
    lineActions (.command i ops) = (operandRegs.zip ops).map (Function.uncurry setReg) ++ [issueAction i] := by
  rw [List.map_uncurry_zip_eq_zipWith]
  rfl

theorem step_of_issueAction {s : State} {i : Instr} {rest : List HostAction}
    (h : s.program = issueAction i :: rest) : step s = exec i { s with program := rest } := by
  have hdec : decode (((encode i).setWidth 64).setWidth 32) = .ok i := by
    rw [setWidth_setWidth_command, decode_encode]
  exact step_of_cmd_write h hdec

/-- Settles O12: one step per operand, then the step of the command's own `CMD` write. -/
theorem commandLineRunsItsCommand : Obligations.CommandLineRunsItsCommand := by
  intro s i ops rest hlen hprog
  rw [lineActions_command, List.append_assoc] at hprog
  have hrun := run_setReg_writes ne_cmd_of_mem_zip_operandRegs hprog
  rw [length_zip_operandRegs hlen, State.writeRegs_operandRegs] at hrun
  exact ⟨_, hrun, rfl, step_of_issueAction rfl⟩

end Machine

end Sys2Proof
end

section
/-! The control commands `NOP` and `CONFIG` (R90, R92). Field ids and fields match one to one (R61), so `CONFIG`'s test
for an unknown id is a bound on `A0`; each of its checks is then one equation under the checks before it. -/

namespace Sys2Proof.Machine

/-! ### Field ids (R61) -/

theorem fieldCode_toNat_le (f : FieldId) : (fieldCode f).toNat ≤ 3 := by
  cases f <;> decide

theorem fieldCode_eq_three_iff {f : FieldId} : fieldCode f = 3 ↔ f = .binary16 := by
  cases f <;> decide

/-- The numbers up to 3 are all ids of fields. -/
theorem exists_fieldCode_eq {r : Word} (h : r.toNat ≤ 3) : ∃ f, fieldCode f = r := by
  have hr : r = 0 ∨ r = 1 ∨ r = 2 ∨ r = 3 := by bv_omega
  rcases hr with rfl | rfl | rfl | rfl
  · exact ⟨.binary, rfl⟩
  · exact ⟨.binary4, rfl⟩
  · exact ⟨.binary8, rfl⟩
  · exact ⟨.binary16, rfl⟩

theorem fieldOf_eq_some_iff {r : Word} {f : FieldId} : fieldOf r = some f ↔ fieldCode f = r := by
  constructor
  · intro h
    unfold fieldOf at h
    repeat' split at h
    all_goals cases h
    all_goals exact Eq.symm ‹_›
  · rintro rfl
    cases f <;> rfl

/-- A number above 3 names no field; all 64 bits of it count (R92). -/
theorem fieldOf_eq_none {r : Word} (h : 3 < r.toNat) : fieldOf r = none := by
  refine Option.eq_none_iff_forall_ne_some.mpr fun f hf => ?_
  have hle := fieldCode_toNat_le f
  rw [fieldOf_eq_some_iff.mp hf] at hle
  omega

/-! ### The checks of `CONFIG` (R92) -/

theorem State.unlessFault_of_fault {s : State} (body : State → Result) (hfault : s.fault = true) :
    s.unlessFault body = .next s :=
  if_pos hfault

theorem State.unlessFault_of_no_fault {s : State} (body : State → Result) (hfault : s.fault = false) :
    s.unlessFault body = body s :=
  if_neg (ne_true_of_eq_false hfault)

section
variable {s : State}

theorem execConfig_of_fault (hfault : s.fault = true) : execConfig s = .next s :=
  State.unlessFault_of_fault _ hfault

theorem execConfig_of_ready (hfault : s.fault = false) (hready : s.ready = true) :
    execConfig s = .next (s.raise .state 0x02 s.status) :=
  (State.unlessFault_of_no_fault _ hfault).trans (if_pos hready)

theorem execConfig_of_unknown_field (hfault : s.fault = false) (hready : s.ready = false)
    (hid : 3 < s.a0.toNat) : execConfig s = .next (s.raise .config 0x02 s.a0) := by
  rw [execConfig, State.unlessFault_of_no_fault _ hfault, if_neg (ne_true_of_eq_false hready),
    fieldOf_eq_none hid]
  rfl

/-- Past checks 1 and 2 the field is the one with id `A0`; checks 3 and 4 are left. -/
theorem execConfig_of_field {f : FieldId} (hfault : s.fault = false) (hready : s.ready = false)
    (hid : fieldCode f = s.a0) :
    execConfig s =
      if s.a1 = 0 ∨ Config.symMax < s.a1.toNat then .next (s.raise .config 0x02 s.a1)
      else if f = .binary16 ∧ s.a1.toNat % 2 = 1 then .next (s.raise .config 0x02 s.a1)
      else .next { s with field := f, symsize := s.a1.setWidth 32, ready := true } := by
  rw [execConfig, State.unlessFault_of_no_fault _ hfault, if_neg (ne_true_of_eq_false hready),
    fieldOf_eq_some_iff.mpr hid]
  rfl

/-- Past check 3 only the parity of a binary16 symbol size is left to test. -/
theorem execConfig_of_size {f : FieldId} (hfault : s.fault = false) (hready : s.ready = false)
    (hid : fieldCode f = s.a0) (hpos : s.a1 ≠ 0) (hmax : s.a1.toNat ≤ Config.symMax) :
    execConfig s =
      if f = .binary16 ∧ s.a1.toNat % 2 = 1 then .next (s.raise .config 0x02 s.a1)
      else .next { s with field := f, symsize := s.a1.setWidth 32, ready := true } :=
  (execConfig_of_field hfault hready hid).trans (if_neg (not_or.mpr ⟨hpos, Nat.not_lt.mpr hmax⟩))

end

/-! ### The statements -/

/-- Settles O14: `NOP` answers its own state, with no guard before it. -/
theorem nopChangesNothing : Obligations.NopChangesNothing :=
  ⟨decode_encode .nop, fun _ => rfl⟩

/-- Settles O16: each check by its equation; an `A0` up to 3 is the id of a field, and that field is configured. -/
theorem configChecksThenConfigures : Obligations.ConfigChecksThenConfigures := by
  refine ⟨decode_encode .config, fun _ => execConfig_of_fault, fun s hfault =>
    ⟨execConfig_of_ready hfault, execConfig_of_unknown_field hfault, ?badSize, ?oddSize, ?accepted⟩⟩
  case badSize =>
    intro hready hle hsize
    obtain ⟨f, hid⟩ := exists_fieldCode_eq hle
    exact (execConfig_of_field hfault hready hid).trans (if_pos hsize)
  case oddSize =>
    intro hready hid hpos hmax hodd
    have hthree : fieldCode .binary16 = s.a0 := hid.symm
    exact (execConfig_of_size hfault hready hthree hpos hmax).trans (if_pos ⟨rfl, hodd⟩)
  case accepted =>
    intro hready hle hpos hmax heven
    obtain ⟨f, hid⟩ := exists_fieldCode_eq hle
    have hwhole : ¬ (f = .binary16 ∧ s.a1.toNat % 2 = 1) := by
      rintro ⟨hf, hodd⟩
      have hthree : s.a0 = 3 := hid ▸ fieldCode_eq_three_iff.mpr hf
      have hzero := heven hthree
      omega
    exact ⟨f, hid, (execConfig_of_size hfault hready hid hpos hmax).trans (if_neg hwhole)⟩

end Sys2Proof.Machine
end

section
/-! The laws of the four fields as the specification states them (R64, R65, R76), each read off from the residues
modulo `P_w`. -/

namespace Sys2Proof.Machine

open Polynomial

/-! ### Field laws (R65, R76) -/

theorem gfInv_lt (f : FieldId) (a : Elem) : (gfInv f a).toNat < 2 ^ width f :=
  gfPow_lt f (one_lt_width f) _ _ _

theorem residue_mul_gfInv (f : FieldId) {a : Elem} (ha : a.toNat < 2 ^ width f) (h0 : a ≠ 0) :
    residue f a * residue f (gfInv f a) = 1 := by
  rw [← residue_mul, gfMul_gfInv f ha h0, residue_one]

/-- An element with product 1 is the inverse: both invert the residue of `a`. -/
theorem eq_gfInv_of_gfMul_eq_one {f : FieldId} {a b : Elem} (ha : a.toNat < 2 ^ width f) (h0 : a ≠ 0)
    (hb : b.toNat < 2 ^ width f) (h : gfMul f a b = 1) : b = gfInv f a := by
  have hba : residue f b * residue f a = 1 := by rw [mul_comm, ← residue_mul, h, residue_one]
  exact residue_injective hb (gfInv_lt f a) (left_inv_eq_right_inv hba (residue_mul_gfInv f ha h0))

theorem gfAdd_comm (a b : Elem) : gfAdd a b = gfAdd b a := BitVec.xor_comm a b

theorem gfAdd_assoc (a b c : Elem) : gfAdd (gfAdd a b) c = gfAdd a (gfAdd b c) := BitVec.xor_assoc a b c

theorem gfAdd_gfAdd_cancel (a b : Elem) : gfAdd (gfAdd a b) b = a := by
  rw [gfAdd_assoc, gfAdd_self, gfAdd_zero]

theorem gfMul_assoc (f : FieldId) (a b c : Elem) : gfMul f (gfMul f a b) c = gfMul f a (gfMul f b c) :=
  residue_injective (gfMul_lt f _ _) (gfMul_lt f _ _) (by simp only [residue_mul, mul_assoc])

theorem gfMul_gfAdd (f : FieldId) (a b c : Elem) :
    gfMul f a (gfAdd b c) = gfAdd (gfMul f a b) (gfMul f a c) :=
  residue_injective (gfMul_lt f _ _) (gfAdd_lt (gfMul_lt f _ _) (gfMul_lt f _ _))
    (by simp only [residue_mul, residue_add, mul_add])

/-- There are no zero divisors: a nonzero factor can be cancelled by its inverse. -/
theorem eq_zero_or_eq_zero_of_gfMul {f : FieldId} {a b : Elem} (ha : a.toNat < 2 ^ width f)
    (hb : b.toNat < 2 ^ width f) (h : gfMul f a b = 0) : a = 0 ∨ b = 0 := by
  refine or_iff_not_imp_left.mpr fun h0 => residue_injective hb (Nat.two_pow_pos _) ?_
  calc residue f b = residue f (gfInv f a) * residue f a * residue f b := by
        rw [mul_comm (residue f _), residue_mul_gfInv f ha h0, one_mul]
    _ = residue f (gfInv f a) * residue f (gfMul f a b) := by rw [residue_mul, mul_assoc]
    _ = residue f 0 := by rw [h, residue_zero, mul_zero]

/-! ### The product as a product of polynomials (R64) -/

/-- The polynomial over GF(2) whose coefficients are the low 17 bits of a number. -/
noncomputable def numPoly (v : Nat) : (ZMod 2)[X] :=
  ∑ k ∈ Finset.range 17, if v.testBit k then X ^ k else 0

theorem numPoly_toNat {n : Nat} {a : BitVec n} (h : a.toNat < 2 ^ 17) : numPoly a.toNat = toPoly a := by
  rw [← lowPoly_eq_toPoly a fun _ hk => getLsbD_of_toNat_lt h hk]
  simp only [numPoly, lowPoly, BitVec.testBit_toNat]

theorem numPoly_elem (a : Elem) : numPoly a.toNat = toPoly a :=
  numPoly_toNat (lt_trans a.isLt (by decide))

/-- On the elements 0 and 1 the product is the and. -/
theorem gfMul_binary {a b : Elem} (ha : a.toNat < 2) (hb : b.toNat < 2) : gfMul .binary a b = a &&& b := by
  have hbit : ∀ c : Elem, c.toNat < 2 → c = 0 ∨ c = 1 := fun c hc => by bv_omega
  rcases hbit a ha with rfl | rfl
  · rw [zero_gfMul, BitVec.ofNat_eq_ofNat, BitVec.zero_and]
  · rcases hbit b hb with rfl | rfl
    · rw [gfMul_zero, BitVec.ofNat_eq_ofNat, BitVec.and_zero]
    · decide

/-- `P_w` divides the difference between the product of two elements and the product of their polynomials. -/
theorem modulus_dvd_mul_sub_gfMul {f : FieldId} {a b : Elem} (ha : a.toNat < 2 ^ width f)
    (hb : b.toNat < 2 ^ width f) :
    numPoly (modulus f).toNat ∣ numPoly a.toNat * numPoly b.toNat - numPoly (gfMul f a b).toNat := by
  have hmod : (modulus f).toNat < 2 ^ 17 := by cases f <;> decide
  obtain ⟨hdvd, -⟩ := gfMul_spec f a b
  rw [(lt_width_iff f a).mp ha, (lt_width_iff f b).mp hb] at hdvd
  rwa [numPoly_toNat hmod, numPoly_elem, numPoly_elem, numPoly_elem]

/-- The numbers that R62 prints for `P_w`. -/
theorem eq_toNat_modulus {f : FieldId} {p : Nat}
    (h : (f, p) ∈ [(FieldId.binary4, 0x13), (.binary8, 0x11D), (.binary16, 0x1100B)]) :
    p = (modulus f).toNat := by
  simp only [List.mem_cons, Prod.mk.injEq, List.not_mem_nil, or_false] at h
  rcases h with ⟨rfl, rfl⟩ | ⟨rfl, rfl⟩ | ⟨rfl, rfl⟩ <;> rfl

/-! ### The statements -/

/-- Settles O20: `gfInv` inverts, and inverses are unique. -/
theorem inverseIsTheOneElementWithProductOne : Obligations.InverseIsTheOneElementWithProductOne := by
  intro f a hpos ha
  have h0 : a ≠ 0 := by
    rintro rfl
    exact absurd hpos (by decide)
  exact ⟨gfInv_lt f a, gfMul_gfInv f ha h0, fun b hb => eq_gfInv_of_gfMul_eq_one ha h0 hb⟩

/-- Settles O21: the two loops of R64 multiply the polynomials modulo `P_w`. -/
theorem productIsThePolynomialProductModP : Obligations.ProductIsThePolynomialProductModP := by
  refine ⟨fun a b => gfMul_binary, fun f p hp a b ha hb => ?_⟩
  rw [eq_toNat_modulus hp]
  exact ⟨gfMul_lt f a b, modulus_dvd_mul_sub_gfMul ha hb, gfMul_zero f a, zero_gfMul f a, gfMul_one ha⟩

/-- Settles O22: closure and the laws one by one. -/
theorem elementsObeyTheFieldLaws : Obligations.ElementsObeyTheFieldLaws := fun f a b c ha hb _ =>
  ⟨gfAdd_lt ha hb, gfMul_lt f a b, gfAdd_comm a b, gfAdd_assoc a b c, gfAdd_self a, gfAdd_zero a,
    gfMul_comm f a b, gfMul_assoc f a b c, gfMul_gfAdd f a b c, gfMul_one ha, gfMul_zero f a,
    gfMul_gfInv f ha, eq_zero_or_eq_zero_of_gfMul ha hb⟩

end Sys2Proof.Machine
end

section
/-! Packed buffers (R66 to R69) and linear combinations (R77) as the specification states them. `SetElem` replaces one
run of bits of the buffer, so what it does to elements and to spare bytes follows from its effect on the bits. -/

namespace Sys2Proof.Machine

/-! ### The packing table (R66) -/

theorem toNat_elemAt_binary (buf : List Byte) (k : Nat) :
    (elemAt .binary buf k).toNat = (buf.getD (k / 8) 0).toNat / 2 ^ (k % 8) % 2 := by
  have hbyte := (buf.getD (k / 8) 0).isLt
  simp only [elemAt, BitVec.toNat_and, BitVec.toNat_ushiftRight, BitVec.toNat_setWidth, Nat.shiftRight_eq_div_pow]
  rw [Nat.mod_eq_of_lt (by omega)]
  exact Nat.and_one_is_mod _

theorem toNat_elemAt_binary4 (buf : List Byte) (k : Nat) : (elemAt .binary4 buf k).toNat =
    if k % 2 = 0 then (buf.getD (k / 2) 0).toNat % 16 else (buf.getD (k / 2) 0).toNat / 16 := by
  have hbyte := (buf.getD (k / 2) 0).isLt
  rw [elemAt]
  split <;> simp only [BitVec.toNat_setWidth, BitVec.extractLsb'_toNat, Nat.shiftRight_eq_div_pow] <;> omega

theorem toNat_elemAt_binary8 (buf : List Byte) (k : Nat) :
    (elemAt .binary8 buf k).toNat = (buf.getD k 0).toNat :=
  BitVec.toNat_setWidth_of_le (by decide)

theorem toNat_elemAt_binary16 (buf : List Byte) (k : Nat) : (elemAt .binary16 buf k).toNat =
    (buf.getD (2 * k) 0).toNat + 256 * (buf.getD (2 * k + 1) 0).toNat := by
  have hlow := (buf.getD (2 * k) 0).isLt
  rw [elemAt, BitVec.toNat_append, ← Nat.shiftLeft_add_eq_or_of_lt hlow, Nat.shiftLeft_eq]
  omega

/-! ### `SetElem` on the bits (R66) -/

theorem bufBit_set {buf : List Byte} {i : Nat} (hi : i < buf.length) (b : Byte) (m : Nat) :
    bufBit (buf.set i b) m = if m / 8 = i then b.getLsbD (m % 8) else bufBit buf m := by
  simp only [bufBit, List.getD_eq_getElem?_getD, List.getElem?_set]
  by_cases h : i = m / 8
  · subst h
    simp [hi]
  · simp [h, Ne.symm h]

theorem getLsbD_replaceBit (b : Byte) (v : Elem) {r j : Nat} (hj : j < 8) :
    ((b &&& ~~~(1#8 <<< r)) ||| ((v &&& 0x1).setWidth 8 <<< r)).getLsbD j =
      if j = r then v.getLsbD 0 else b.getLsbD j := by
  simp only [BitVec.getLsbD_or, BitVec.getLsbD_and, BitVec.getLsbD_not, BitVec.getLsbD_shiftLeft,
    BitVec.getLsbD_setWidth, BitVec.ofNat_eq_ofNat, BitVec.getLsbD_one]
  rcases Nat.lt_trichotomy j r with hlt | rfl | hgt
  · have hne : j ≠ r := by omega
    simp [hj, hlt, hne]
  · simp [hj]
  · have hne : j ≠ r := by omega
    have hoff : j - r ≠ 0 := by omega
    simp [hj, hne, hoff]

theorem getLsbD_lowNibble (b : Byte) (v : Elem) {j : Nat} (hj : j < 8) :
    (b.extractLsb' 4 4 ++ v.setWidth 4).getLsbD j = if j < 4 then v.getLsbD j else b.getLsbD j := by
  rw [BitVec.getLsbD_append]
  split
  · next h => simp [h]
  · have hback : 4 + (j - 4) = j := by omega
    have hnib : j - 4 < 4 := by omega
    simp [hback, hnib]

theorem getLsbD_highNibble (b : Byte) (v : Elem) {j : Nat} (hj : j < 8) :
    (v.setWidth 4 ++ b.extractLsb' 0 4).getLsbD j = if j < 4 then b.getLsbD j else v.getLsbD (j - 4) := by
  rw [BitVec.getLsbD_append]
  split
  · next h => simp [h]
  · have hnib : j - 4 < 4 := by omega
    simp [hnib]

section
variable {buf : List Byte} {k : Nat}

theorem bufBit_setElem_binary (hk : k < numElems .binary buf.length) (v : Elem) (m : Nat) :
    bufBit (setElem .binary buf k v) m = if m = k then v.getLsbD 0 else bufBit buf m := by
  simp only [numElems, width] at hk
  rw [setElem, bufBit_set (by omega), getLsbD_replaceBit _ _ (by omega)]
  by_cases hm : m = k
  · rw [hm, if_pos rfl, if_pos rfl, if_pos rfl]
  · rw [if_neg hm, bufBit]
    by_cases hbyte : m / 8 = k / 8
    · have hbit : m % 8 ≠ k % 8 := by omega
      rw [if_pos hbyte, if_neg hbit, hbyte]
    · rw [if_neg hbyte]

theorem bufBit_setElem_binary4 (hk : k < numElems .binary4 buf.length) (v : Elem) (m : Nat) :
    bufBit (setElem .binary4 buf k v) m = if m / 4 = k then v.getLsbD (m % 4) else bufBit buf m := by
  simp only [numElems, width] at hk
  rw [setElem]
  split
  · next hpar =>
    have helem : m / 4 = k ↔ m / 8 = k / 2 ∧ m % 8 < 4 := by omega
    have hbit : m % 8 < 4 → m % 8 = m % 4 := by omega
    rw [bufBit_set (by omega), getLsbD_lowNibble _ _ (by omega), bufBit]
    grind
  · next hpar =>
    have helem : m / 4 = k ↔ m / 8 = k / 2 ∧ ¬ m % 8 < 4 := by omega
    have hbit : ¬ m % 8 < 4 → m % 8 - 4 = m % 4 := by omega
    rw [bufBit_set (by omega), getLsbD_highNibble _ _ (by omega), bufBit]
    grind

theorem bufBit_setElem_binary8 (hk : k < numElems .binary8 buf.length) (v : Elem) (m : Nat) :
    bufBit (setElem .binary8 buf k v) m = if m / 8 = k then v.getLsbD (m % 8) else bufBit buf m := by
  simp only [numElems, width] at hk
  have hbit : m % 8 < 8 := Nat.mod_lt m (by decide)
  rw [setElem, bufBit_set (by omega), BitVec.getLsbD_setWidth, decide_eq_true hbit, Bool.true_and]

theorem bufBit_setElem_binary16 (hk : k < numElems .binary16 buf.length) (v : Elem) (m : Nat) :
    bufBit (setElem .binary16 buf k v) m = if m / 16 = k then v.getLsbD (m % 16) else bufBit buf m := by
  simp only [numElems, width] at hk
  have hlast : 2 * k + 1 < (buf.set (2 * k) (v.setWidth 8)).length := by
    rw [List.length_set]
    omega
  have hbit : m % 8 < 8 := Nat.mod_lt m (by decide)
  rw [setElem, bufBit_set hlast, bufBit_set (by omega), BitVec.getLsbD_setWidth, BitVec.getLsbD_setWidth,
    BitVec.getLsbD_ushiftRight, decide_eq_true hbit, Bool.true_and, Bool.true_and]
  by_cases hm : m / 16 = k
  · rw [if_pos hm]
    by_cases hhigh : m / 8 = 2 * k + 1
    · have hsplit : 8 + m % 8 = m % 16 := by omega
      rw [if_pos hhigh, hsplit]
    · have hlow : m / 8 = 2 * k := by omega
      have hsplit : m % 8 = m % 16 := by omega
      rw [if_neg hhigh, if_pos hlow, hsplit]
  · have hlow : m / 8 ≠ 2 * k := by omega
    have hhigh : m / 8 ≠ 2 * k + 1 := by omega
    rw [if_neg hm, if_neg hhigh, if_neg hlow]

/-- `SetElem(buf, k, v)` puts the bits of `v` where element `k` lies and keeps every other bit. -/
theorem bufBit_setElem {f : FieldId} (hk : k < numElems f buf.length) (v : Elem) (m : Nat) :
    bufBit (setElem f buf k v) m =
      if m / width f = k then v.getLsbD (m % width f) else bufBit buf m := by
  cases f with
  | binary => simpa only [width, Nat.div_one, Nat.mod_one] using bufBit_setElem_binary hk v m
  | binary4 => exact bufBit_setElem_binary4 hk v m
  | binary8 => exact bufBit_setElem_binary8 hk v m
  | binary16 => exact bufBit_setElem_binary16 hk v m

end

theorem elemAt_setElem {f : FieldId} {buf : List Byte} {k : Nat} (hk : k < numElems f buf.length) {v : Elem}
    (hv : v.toNat < 2 ^ width f) (j : Nat) :
    elemAt f (setElem f buf k v) j = if j = k then v else elemAt f buf j := by
  refine BitVec.eq_of_getLsbD_eq fun b _ => ?_
  rw [getLsbD_elemAt, bufBit_setElem hk, apply_ite (BitVec.getLsbD · b), getLsbD_elemAt]
  by_cases hb : b < width f
  · have hdiv : (j * width f + b) / width f = j := by
      rw [Nat.mul_comm, Nat.mul_add_div (width_pos f), Nat.div_eq_of_lt hb, Nat.add_zero]
    have hmod : (j * width f + b) % width f = b := by
      rw [Nat.mul_comm, Nat.mul_add_mod, Nat.mod_eq_of_lt hb]
    simp only [hb, hdiv, hmod, decide_true, Bool.true_and]
  · simp [hb, getLsbD_of_toNat_lt hv (Nat.le_of_not_lt hb)]

/-- The elements of a buffer fill whole bytes. -/
theorem eight_dvd_numElems_mul_width (f : FieldId) (n : Nat) : 8 ∣ numElems f n * width f := by
  cases f <;> simp only [numElems, width] <;> omega

/-- `SetElem` keeps the bytes that belong to no element. -/
theorem getD_setElem_spare {f : FieldId} {buf : List Byte} {k m : Nat} (hk : k < numElems f buf.length) (v : Elem)
    (hm : numElems f buf.length * width f / 8 ≤ m) : (setElem f buf k v).getD m 0 = buf.getD m 0 := by
  have hbytes := Nat.div_mul_cancel (eight_dvd_numElems_mul_width f buf.length)
  refine BitVec.eq_of_getLsbD_eq fun b hb => ?_
  have hdiv : (8 * m + b) / 8 = m := by omega
  have hmod : (8 * m + b) % 8 = b := by omega
  have hout : (8 * m + b) / width f ≠ k := by
    have hpast := (Nat.le_div_iff_mul_le (width_pos f)).mpr
      (show numElems f buf.length * width f ≤ 8 * m + b by omega)
    omega
  have hbit := bufBit_setElem hk v (8 * m + b)
  rw [if_neg hout] at hbit
  simpa only [bufBit, hdiv, hmod] using hbit

/-! ### The special cases of `VecMAdd` (R68) -/

theorem vecMAdd_zero {f : FieldId} {dst src : List Byte} (hlen : dst.length = src.length)
    (hwhole : WholeElems f dst.length) : vecMAdd f dst src 0 = dst := by
  have hkeep := length_vecMAdd f 0 hlen
  refine buffer_ext hkeep (hkeep ▸ hwhole) fun k hk => ?_
  rw [elemAt_vecMAdd f 0 hlen (hkeep ▸ hk), zero_gfMul, gfAdd_zero]

theorem vecMAdd_vecMAdd_cancel {f : FieldId} {dst src : List Byte} (e : Elem) (hlen : dst.length = src.length)
    (hwhole : WholeElems f dst.length) : vecMAdd f (vecMAdd f dst src e) src e = dst := by
  have hinner := length_vecMAdd f e hlen
  have houter := length_vecMAdd f e (hinner.trans hlen)
  have hkeep := houter.trans hinner
  refine buffer_ext hkeep (hkeep ▸ hwhole) fun k hk => ?_
  rw [elemAt_vecMAdd f e (hinner.trans hlen) (houter ▸ hk), elemAt_vecMAdd f e hlen (hkeep ▸ hk),
    gfAdd_gfAdd_cancel]

theorem bufBit_zipWith_xor {as bs : List Byte} (hlen : as.length = bs.length) (m : Nat) :
    bufBit (List.zipWith (· ^^^ ·) as bs) m = (bufBit as m ^^ bufBit bs m) := by
  unfold bufBit
  by_cases hm : m / 8 < as.length
  · rw [getD_zipWith _ hlen hm, BitVec.getLsbD_xor]
  · simp [List.getD, hm, hlen ▸ Nat.le_of_not_lt hm]

/-- The bytewise exclusive or adds element by element in every field. -/
theorem elemAt_zipWith_xor (f : FieldId) {as bs : List Byte} (hlen : as.length = bs.length) (k : Nat) :
    elemAt f (List.zipWith (· ^^^ ·) as bs) k = gfAdd (elemAt f as k) (elemAt f bs k) := by
  refine BitVec.eq_of_getLsbD_eq fun b _ => ?_
  rw [gfAdd, BitVec.getLsbD_xor, getLsbD_elemAt, getLsbD_elemAt, getLsbD_elemAt, bufBit_zipWith_xor hlen,
    Bool.and_xor_distrib_left]

theorem vecMAdd_one {f : FieldId} {dst src : List Byte} (hlen : dst.length = src.length)
    (hwhole : WholeElems f dst.length) : vecMAdd f dst src 1 = List.zipWith (· ^^^ ·) dst src := by
  have hkeep := length_vecMAdd f 1 hlen
  have hxor : (List.zipWith (· ^^^ ·) dst src).length = dst.length := by simp [hlen]
  refine buffer_ext (hkeep.trans hxor.symm) (hkeep ▸ hwhole) fun k hk => ?_
  rw [elemAt_vecMAdd f 1 hlen (hkeep ▸ hk), elemAt_zipWith_xor f hlen, gfMul_comm, gfMul_one (elemAt_lt f src k)]

/-! ### Linear combinations (R77) -/

theorem foldl_gfAdd_lt {f : FieldId} {es : List Elem} {acc : Elem} (hacc : acc.toNat < 2 ^ width f)
    (hes : ∀ e ∈ es, e.toNat < 2 ^ width f) : (es.foldl gfAdd acc).toNat < 2 ^ width f := by
  induction es generalizing acc with
  | nil => exact hacc
  | cons e es ih => exact ih (gfAdd_lt hacc (hes e (by simp))) fun x hx => hes x (by simp [hx])

theorem residue_foldl_gfAdd (f : FieldId) (es : List Elem) (acc : Elem) :
    residue f (es.foldl gfAdd acc) = residue f acc + (es.map (residue f)).sum := by
  induction es generalizing acc with
  | nil => simp
  | cons e es ih => rw [List.foldl_cons, ih, residue_add, List.map_cons, List.sum_cons, add_assoc]

section
variable {f : FieldId} {n : Nat} {terms : List (Elem × List Byte)}

theorem elemAt_linComb (hlen : ∀ t ∈ terms, t.2.length = n) {k : Nat} (hk : k < numElems f n) :
    elemAt f (linComb f n terms) k = (terms.map fun t => gfMul f t.1 (elemAt f t.2 k)).foldl gfAdd 0 := by
  have hproducts : ∀ e ∈ terms.map (fun t => gfMul f t.1 (elemAt f t.2 k)), e.toNat < 2 ^ width f := by
    intro e he
    obtain ⟨t, -, rfl⟩ := List.mem_map.mp he
    exact gfMul_lt f _ _
  refine residue_injective (elemAt_lt f _ k) (foldl_gfAdd_lt (Nat.two_pow_pos _) hproducts) ?_
  rw [residue_elemAt_linComb f hlen hk, residue_foldl_gfAdd, residue_zero, zero_add, List.map_map]
  simp only [Function.comp_def, residue_mul]

/-- The order of the terms does not matter: each element is a sum in a commutative ring. -/
theorem linComb_perm (hlen : ∀ t ∈ terms, t.2.length = n) (hwhole : WholeElems f n)
    {terms' : List (Elem × List Byte)} (h : terms.Perm terms') : linComb f n terms' = linComb f n terms := by
  have hlen' : ∀ t ∈ terms', t.2.length = n := fun t ht => hlen t (h.mem_iff.mpr ht)
  refine buffer_ext_residue (length_linComb f hlen') (length_linComb f hlen) hwhole fun k hk => ?_
  rw [residue_elemAt_linComb f hlen' hk, residue_elemAt_linComb f hlen hk]
  exact (h.symm.map _).sum_eq

end

/-! ### The statements -/

/-- Settles O23: the table from the definition, `SetElem` from its effect on the bits. -/
theorem packedElementsFollowTheTable : Obligations.PackedElementsFollowTheTable :=
  ⟨fun buf k => ⟨toNat_elemAt_binary buf k, toNat_elemAt_binary4 buf k, toNat_elemAt_binary8 buf k,
      toNat_elemAt_binary16 buf k⟩,
    fun f buf k j v hk _ hv =>
      ⟨length_setElem f buf k v, elemAt_setElem hk hv j, fun _ => getD_setElem_spare hk v⟩⟩

/-- Settles O24: the special cases hold because they hold for every element. -/
theorem packedVectorsAreElementwise : Obligations.PackedVectorsAreElementwise :=
  fun f dst _ e hlen _ hwhole =>
    ⟨length_vecMAdd f e hlen, fun _ => elemAt_vecMAdd f e hlen, vecMAdd_zero hlen hwhole,
      vecMAdd_one hlen hwhole, vecMAdd_vecMAdd_cancel e hlen hwhole, length_vecScale f dst e,
      fun _ => elemAt_vecScale f dst e⟩

/-- Settles O25: each element is a sum of residues modulo `P_w`. -/
theorem linearCombinationIsTheFieldSum : Obligations.LinearCombinationIsTheFieldSum :=
  fun f _ _ hlen hwhole =>
    ⟨rfl, length_linComb f hlen, fun _ => elemAt_linComb hlen, fun _ => linComb_perm hlen hwhole⟩

end Sys2Proof.Machine
end

section
/-! The field-arithmetic commands `GFADD`, `GFMUL`, `GFINV` and `VMADD` (R72 to R75): their common guard, how they take
an element from an operand register (R71), and each check of `VMADD` under the checks before it. -/

namespace Sys2Proof.Machine

/-! ### What every guarded command does outside the ready state -/

/-- R52 for a command that stands behind `whenReady`. -/
theorem guardedCommand_of_whenReady {i : Instr} {body : State → Result}
    (h : ∀ s, exec i s = s.whenReady i body) : GuardedCommand i (encode i) :=
  ⟨decode_encode i, fun s hfault => (h s).trans (State.unlessFault_of_fault _ hfault),
    fun s hfault hready => (h s).trans (State.whenReady_unconfigured i body hfault hready)⟩

theorem exec_of_active {i : Instr} {s : State} {body : State → Result} (hs : s.Active)
    (h : ∀ s, exec i s = s.whenReady i body) : exec i s = body s :=
  (h s).trans (State.whenReady_active i body hs.1 hs.2)

/-- A command that ends in one memory write stores exactly those bytes. -/
theorem storesExactly_of_memWrite {i : Instr} {s : State} {a : Word} {bs : List Byte}
    (h : exec i s = .next (s.memWrite a bs)) : StoresExactly i s a bs :=
  ⟨_, h, rfl, Memory.readBytes_writeBytes_same _ _ _, fun x hx =>
    Memory.readByte_writeBytes_outside _ _ _ _ (by omega)⟩

/-! ### Element operands and results (R71) -/

theorem toNat_and_elemMask (f : FieldId) (a : Elem) : (a &&& elemMask f).toNat = a.toNat % 2 ^ width f := by
  have hmask : (elemMask f).toNat = 2 ^ width f - 1 := by cases f <;> decide
  rw [BitVec.toNat_and, hmask, Nat.and_two_pow_sub_one_eq_mod]

theorem toNat_elemOperand (f : FieldId) (r : Word) : (elemOperand f r).toNat = r.toNat % 2 ^ width f := by
  rw [elemOperand, toNat_and_elemMask, BitVec.toNat_setWidth,
    Nat.mod_mod_of_dvd _ (Nat.pow_dvd_pow 2 (width_le f))]

theorem elemOperand_eq_lowElem (f : FieldId) (r : Word) : elemOperand f r = lowElem f r := by
  rw [lowElem, ← toNat_elemOperand, BitVec.ofNat_toNat, BitVec.setWidth_eq]

theorem elemOperand_eq_zero_iff {f : FieldId} {r : Word} :
    elemOperand f r = 0 ↔ r.toNat % 2 ^ width f = 0 := by
  rw [← toNat_elemOperand, ← BitVec.toNat_inj]
  rfl

theorem elemResult_eq (e : Elem) : elemResult e = BitVec.ofNat 64 e.toNat := (BitVec.ofNat_toNat 64 e).symm

/-- The sum of two element operands is the exclusive or of the registers, cut to `w` bits. -/
theorem elemResult_gfAdd (f : FieldId) (a b : Word) :
    elemResult (gfAdd (elemOperand f a) (elemOperand f b)) =
      (a ^^^ b) &&& BitVec.ofNat 64 (2 ^ width f - 1) := by
  have hmask : (2 ^ width f - 1) % 2 ^ 64 = 2 ^ width f - 1 := by cases f <;> rfl
  apply BitVec.eq_of_toNat_eq
  rw [elemResult, BitVec.toNat_setWidth_of_le (by decide), gfAdd, BitVec.toNat_xor, toNat_elemOperand,
    toNat_elemOperand, ← Nat.xor_mod_two_pow, BitVec.toNat_and, BitVec.toNat_ofNat, hmask,
    Nat.and_two_pow_sub_one_eq_mod, BitVec.toNat_xor]

/-! ### The checks of `VMADD` (R75) -/

section
variable {s : State}

/-- What `VMADD` stores: `VecMAdd` of the two buffers as they were. -/
def State.vmaddBytes (s : State) : List Byte :=
  vecMAdd s.field (s.memRead s.a0 s.a3.toNat) (s.memRead s.a1 s.a3.toNat) (lowElem s.field s.a2)

theorem State.length_vmaddBytes (s : State) : s.vmaddBytes.length = s.a3.toNat := by
  rw [State.vmaddBytes, length_vecMAdd _ _ (by simp only [length_memRead]), length_memRead]

theorem exec_vmadd_of_active (h : s.Active) : exec .vmadd s =
    if s.field = .binary16 ∧ s.a3.toNat % 2 = 1 then .next (s.raise .operand 0x13 s.a3)
    else if s.rangeOK s.a0 s.a3.toNat = false then .next (s.raise .bus 0x13 s.a0)
    else if s.rangeOK s.a1 s.a3.toNat = false then .next (s.raise .bus 0x13 s.a1)
    else if s.a0 ≠ s.a1 ∧ overlap s.a0.toNat s.a3.toNat s.a1.toNat s.a3.toNat = true then
      .refused .overlappingBuffers
    else .next (s.memWrite s.a0 s.vmaddBytes) := by
  rw [State.vmaddBytes, ← elemOperand_eq_lowElem]
  exact exec_of_active (i := .vmadd) h fun _ => rfl

/-- Buffers of whole elements pass the parity check. -/
theorem State.not_odd_of_whole (hwhole : s.field = .binary16 → s.a3.toNat % 2 = 0) :
    ¬ (s.field = .binary16 ∧ s.a3.toNat % 2 = 1) := by
  rintro ⟨hfield, hodd⟩
  have heven := hwhole hfield
  omega

/-- Past the parity and range checks only the overlap is left to test. -/
theorem exec_vmadd_of_ranges (h : s.Active) (hwhole : s.field = .binary16 → s.a3.toNat % 2 = 0)
    (hdst : s.rangeOK s.a0 s.a3.toNat = true) (hsrc : s.rangeOK s.a1 s.a3.toNat = true) :
    exec .vmadd s =
      if s.a0 ≠ s.a1 ∧ overlap s.a0.toNat s.a3.toNat s.a1.toNat s.a3.toNat = true then
        .refused .overlappingBuffers
      else .next (s.memWrite s.a0 s.vmaddBytes) := by
  rw [exec_vmadd_of_active h, if_neg (State.not_odd_of_whole hwhole), if_neg (ne_false_of_eq_true hdst),
    if_neg (ne_false_of_eq_true hsrc)]

end

/-! ### The statements -/

/-- Settles O17: cutting both operands to `w` bits commutes with the exclusive or. -/
theorem gfaddWritesExclusiveOr : Obligations.GfaddWritesExclusiveOr := by
  refine ⟨guardedCommand_of_whenReady (i := .gfadd) fun _ => rfl, fun s h => ?_⟩
  rw [← elemResult_gfAdd]
  exact exec_of_active (i := .gfadd) h fun _ => rfl

/-- Settles O18: the operands are the low elements of `A0` and `A1`. -/
theorem gfmulWritesProduct : Obligations.GfmulWritesProduct := by
  refine ⟨guardedCommand_of_whenReady (i := .gfmul) fun _ => rfl, fun s h => ?_⟩
  rw [← elemResult_eq, ← elemOperand_eq_lowElem, ← elemOperand_eq_lowElem]
  exact exec_of_active (i := .gfmul) h fun _ => rfl

/-- Settles O19: the test of `GFINV` looks at the low `w` bits of `A0`. -/
theorem gfinvWritesInverse : Obligations.GfinvWritesInverse := by
  refine ⟨guardedCommand_of_whenReady (i := .gfinv) fun _ => rfl, fun s h => ?_⟩
  rw [← elemResult_eq, ← elemOperand_eq_lowElem, ← elemOperand_eq_zero_iff, ne_eq,
    ← elemOperand_eq_zero_iff]
  have hbody := exec_of_active (i := .gfinv) h fun _ => rfl
  exact ⟨fun hzero => hbody.trans (if_pos hzero), fun hzero => hbody.trans (if_neg hzero)⟩

/-- Settles O26: each check by its equation, and past them one write of the destination. -/
theorem vmaddChecksThenAdds : Obligations.VmaddChecksThenAdds := by
  refine ⟨guardedCommand_of_whenReady (i := .vmadd) fun _ => rfl, fun s h =>
    ⟨fun hfield hodd => (exec_vmadd_of_active h).trans (if_pos ⟨hfield, hodd⟩), fun hwhole =>
      ⟨?badDestination, ?badSource, fun hdst hsrc =>
        ⟨?overlapping, fun hapart => ⟨s.length_vmaddBytes, storesExactly_of_memWrite ?stored⟩⟩⟩⟩⟩
  case badDestination =>
    intro hdst
    rw [exec_vmadd_of_active h, if_neg (State.not_odd_of_whole hwhole), if_pos hdst]
  case badSource =>
    intro hdst hsrc
    rw [exec_vmadd_of_active h, if_neg (State.not_odd_of_whole hwhole), if_neg (ne_false_of_eq_true hdst), if_pos hsrc]
  case overlapping =>
    intro hne hover
    exact (exec_vmadd_of_ranges h hwhole hdst hsrc).trans (if_pos ⟨hne, hover⟩)
  case stored =>
    refine (exec_vmadd_of_ranges h hwhole hdst hsrc).trans (if_neg fun ⟨hne, hover⟩ => ?_)
    exact hapart.elim hne fun hfalse => ne_false_of_eq_true hover hfalse

end Sys2Proof.Machine
end

section
/-! The coefficient generator (R81, R82) and its commands `SET_SEED` and `GENERATE` (R83, R84, R86): the words over the
natural numbers, the bytes cut from them, and each check of `GENERATE` under the checks before it. -/

namespace Sys2Proof.Machine

/-! ### The words (R81) -/

/-- The first line of R81: reducing the factor `k` to a word loses nothing modulo `2^64`. -/
theorem toNat_add_ofNat_mul (seed c : Word) (k : Nat) :
    (seed + BitVec.ofNat 64 k * c).toNat = (seed.toNat + k * c.toNat) % 2 ^ 64 := by
  rw [BitVec.toNat_add, BitVec.toNat_mul, BitVec.toNat_ofNat, Nat.mod_mul_mod, Nat.add_mod_mod]

theorem toNat_xor_ushiftRight (z : Word) (n : Nat) : (z ^^^ (z >>> n)).toNat = z.toNat ^^^ (z.toNat >>> n) := by
  rw [BitVec.toNat_xor, BitVec.toNat_ushiftRight]

/-- One mixing line of R81. -/
theorem toNat_xor_ushiftRight_mul (z c : Word) (n : Nat) :
    ((z ^^^ (z >>> n)) * c).toNat = ((z.toNat ^^^ (z.toNat >>> n)) * c.toNat) % 2 ^ 64 := by
  rw [BitVec.toNat_mul, toNat_xor_ushiftRight]

/-- Settles O27: the four lines of R81 from the last to the first. -/
theorem sm64IsThePrintedFormula : Obligations.Sm64IsThePrintedFormula := by
  intro seed k
  rw [sm64, toNat_xor_ushiftRight, toNat_xor_ushiftRight_mul, toNat_xor_ushiftRight_mul, toNat_add_ofNat_mul]
  rfl

/-! ### The bytes (R82) -/

theorem toNat_streamByte (seed : Word) (t : Nat) :
    (streamByte seed t).toNat = (sm64 seed (t / 8)).toNat / 2 ^ (8 * (t % 8)) % 256 := by
  rw [streamByte, BitVec.extractLsb'_toNat, Nat.shiftRight_eq_div_pow]

/-- The mask of the last byte keeps its `u = ws * w mod 8` low bits, and all of them where the vector fills it. -/
theorem toNat_and_lastByteMask (f : FieldId) (ws : Nat) (b : Byte) :
    (b &&& lastByteMask f ws).toNat =
      b.toNat % (if ws * width f % 8 ≠ 0 then 2 ^ (ws * width f % 8) else 256) := by
  rw [lastByteMask, ite_not]
  split
  case isTrue =>
    exact (BitVec.toNat_and b 0xFF).trans (Nat.and_two_pow_sub_one_eq_mod b.toNat 8)
  case isFalse =>
    have hle : 2 ^ (ws * width f % 8) ≤ 2 ^ 8 := Nat.pow_le_pow_right (by decide) (by omega)
    rw [BitVec.toNat_and, BitVec.toNat_ofNat, Nat.mod_eq_of_lt (by omega), Nat.and_two_pow_sub_one_eq_mod]

theorem getD_genBytes (f : FieldId) (seed : Word) {ws t : Nat} (ht : t < coefBytes f ws) :
    (genBytes f seed ws).getD t 0 =
      if t + 1 = coefBytes f ws then streamByte seed t &&& lastByteMask f ws else streamByte seed t := by
  rw [List.getD_eq_getElem _ _ (by rwa [length_genBytes])]
  simp only [genBytes, List.getElem_map, List.getElem_range]

/-- The cut to a byte and the mask of the last byte are one reduction. -/
theorem toNat_getD_genBytes (f : FieldId) (seed : Word) {ws t : Nat} (ht : t < coefBytes f ws) :
    ((genBytes f seed ws).getD t 0).toNat =
      (sm64 seed (t / 8)).toNat / 2 ^ (8 * (t % 8)) %
        (if t + 1 = coefBytes f ws ∧ ws * width f % 8 ≠ 0 then 2 ^ (ws * width f % 8) else 256) := by
  rw [getD_genBytes f seed ht]
  by_cases hlast : t + 1 = coefBytes f ws
  case neg => rw [if_neg hlast, if_neg (not_and_of_not_left _ hlast), toNat_streamByte]
  case pos =>
    simp only [hlast, if_true, true_and, toNat_and_lastByteMask, toNat_streamByte]
    split
    case isTrue => exact Nat.mod_mod_of_dvd _ (Nat.pow_dvd_pow 2 (n := 8) (by omega))
    case isFalse => exact Nat.mod_mod _ 256

/-- Settles O28: `CoefBytes` is the length, and every byte is its word's byte, the last one cut to the bits in use. -/
theorem generatedBytesComeFromTheWords : Obligations.GeneratedBytesComeFromTheWords :=
  fun f seed ws => ⟨length_genBytes f seed ws, fun _ ht => toNat_getD_genBytes f seed ht⟩

/-! ### `SET_SEED` (R83) -/

/-- Settles O29: past the guard the command is one write of `SEED`. -/
theorem setSeedWritesTheSeed : Obligations.SetSeedWritesTheSeed :=
  ⟨guardedCommand_of_whenReady (i := .setSeed) fun _ => rfl, fun _ h => exec_of_active (i := .setSeed) h fun _ => rfl⟩

/-! ### `GENERATE` (R84, R86) -/

section
variable {s t : State}

theorem exec_generate_of_active (h : s.Active) : exec .generate s =
    if s.windowOK = false then .next (s.raise .window 0x21 s.wlower)
    else if s.rangeOK s.a0 s.vectorBytes = false then .next (s.raise .bus 0x21 s.a0)
    else if s.overlapsLive s.a0 s.vectorBytes = true then .refused .overlappingBuffers
    else .next (s.memWrite s.a0 (genBytes s.field s.seed s.wsyms.toNat)) :=
  exec_of_active (i := .generate) h fun _ => rfl

/-- Past the window and range checks only the overlap is left to test. -/
theorem exec_generate_of_range (h : s.Active) (hwindow : s.windowOK = true)
    (hrange : s.rangeOK s.a0 s.vectorBytes = true) : exec .generate s =
      if s.overlapsLive s.a0 s.vectorBytes = true then .refused .overlappingBuffers
      else .next (s.memWrite s.a0 (genBytes s.field s.seed s.wsyms.toNat)) := by
  rw [exec_generate_of_active h, if_neg (ne_false_of_eq_true hwindow), if_neg (ne_false_of_eq_true hrange)]

/-- A `GENERATE` that completes without a fault leaves the generated vector in its output buffer. -/
theorem readBytes_of_exec_generate (hs : s.Active) (h : exec .generate s = .next t) (ht : t.fault = false) :
    t.mem.readBytes s.a0.toNat s.vectorBytes = genBytes s.field s.seed s.wsyms.toNat := by
  have hraised (c : Cause) (info : Word) : t ≠ s.raise c 0x21 info := by
    rintro rfl
    exact Bool.noConfusion ht
  obtain ⟨hfault, hready⟩ := hs
  rcases execGenerate_next h with ⟨hfault', -⟩ | ⟨-, hready', -⟩ | ⟨-, -, hwindow | hbus | rfl⟩
  · exact absurd hfault' (ne_true_of_eq_false hfault)
  · exact absurd hready (ne_true_of_eq_false hready')
  · exact absurd hwindow (hraised _ _)
  · exact absurd hbus (hraised _ _)
  · rw [State.memWrite_mem, State.vectorBytes, ← length_genBytes s.field s.seed]
    exact Memory.readBytes_writeBytes_same _ _ _

end

/-- Settles O30: each check by its equation, and past them one write of the output buffer. -/
theorem generateChecksThenWritesTheVector : Obligations.GenerateChecksThenWritesTheVector := by
  refine ⟨guardedCommand_of_whenReady (i := .generate) fun _ => rfl, fun s h =>
    ⟨fun hwindow => (exec_generate_of_active h).trans (if_pos hwindow), fun hwindow hrange => ?badRange,
      fun hwindow hrange hover => (exec_generate_of_range h hwindow hrange).trans (if_pos hover),
      fun hwindow hrange hfree => storesExactly_of_memWrite
        ((exec_generate_of_range h hwindow hrange).trans (if_neg (ne_true_of_eq_false hfree)))⟩⟩
  case badRange =>
    rw [exec_generate_of_active h, if_neg (ne_false_of_eq_true hwindow)]
    exact if_pos hrange

/-- Settles O31: what each unit's buffer holds is `GenBytes` of the three registers alone. -/
theorem equalSeedsGenerateEqualBytes : Obligations.EqualSeedsGenerateEqualBytes := by
  intro s s' t t' hs hs' hfield hwsyms hseed ht hfault ht' hfault'
  rw [readBytes_of_exec_generate hs ht hfault, readBytes_of_exec_generate hs' ht' hfault', hfield, hwsyms, hseed]

end Sys2Proof.Machine
end

section
/-! The stream and window commands `PUSH`, `POP` and `SET_WINDOW` (R101, R102, R104): the tests of R47 and R103 over the
natural numbers, the freezing loop of `POP` in closed form, and each check of `PUSH` under the checks before it. -/

namespace Sys2Proof.Machine

/-! ### The window test and the overlap tests (R47, R103) -/

theorem overlap_iff (a n b m : Nat) : overlap a n b m = true ↔ 0 < n ∧ 0 < m ∧ a < b + m ∧ b < a + n :=
  decide_eq_true_iff

theorem State.windowFits_iff (s : State) (lo n : Word) :
    s.windowFits lo n = true ↔ s.lower.toNat ≤ lo.toNat ∧ lo.toNat + n.toNat ≤ s.upper.toNat :=
  decide_eq_true_iff

theorem State.overlapsLive_iff (s : State) (a : Word) (n : Nat) :
    s.overlapsLive a n = true ↔
      ∃ i, s.isLive i = true ∧ overlap a.toNat n (s.slot i).addr.toNat s.symBytes = true := by
  simp only [State.overlapsLive, List.any_eq_true, State.mem_live]

/-- Settles O60: each test by its own equivalence, the live slots by their bounds. -/
theorem windowAndOverlapTestsAreTheWrittenConditions :
    Obligations.WindowAndOverlapTestsAreTheWrittenConditions := by
  refine ⟨fun s => s.windowFits_iff _ _, overlap_iff, fun s a n => ?_⟩
  simp only [State.overlapsLive_iff, State.isLive_iff, overlap_iff, and_assoc]
  rfl

/-! ### `SET_WINDOW` (R104) -/

/-- Settles O34: the one check of the command is the window test on its operands. -/
theorem setWindowChecksThenSets : Obligations.SetWindowChecksThenSets := by
  refine ⟨guardedCommand_of_whenReady (i := .setWindow) fun _ => rfl, fun s h => ?_⟩
  have hbody := exec_of_active (i := .setWindow) h fun _ => rfl
  rw [← State.windowFits_iff]
  exact ⟨fun houtside => hbody.trans (if_pos (Bool.eq_false_iff.mpr houtside)), fun hlow hhigh =>
    hbody.trans (if_neg (ne_false_of_eq_true ((s.windowFits_iff _ _).mpr ⟨hlow, hhigh⟩)))⟩

/-! ### `PUSH` (R101) -/

/-- A cleared row and column in the form R101 and R102 state it. -/
theorem State.coefAt_clearCross_of_or (s : State) (p a b : Nat) :
    (s.clearCross p).coefAt a b = if a = p ∨ b = p then 0 else s.coefAt a b := by
  rw [State.coefAt_clearCross]
  simp only [ne_eq, ← not_or, ite_not]

section
variable {s : State}

theorem exec_push_of_active (h : s.Active) : exec .push s =
    if s.nsyms = s.cap then .next (s.raise .capacity 0x30 s.upper)
    else if s.upper.toNat = 2 ^ 64 - 1 then .next (s.raise .index 0x30 s.upper)
    else if s.rangeOK s.a0 s.symBytes = false then .next (s.raise .bus 0x30 s.a0)
    else if s.overlapsLive s.a0 s.symBytes = true then .refused .overlappingBuffers
    else .next (s.appendSlot s.a0) :=
  exec_of_active (i := .push) h fun _ => rfl

/-- With room for one more index only the new buffer is left to test. -/
theorem exec_push_of_room (h : s.Active) (hroom : s.nsyms ≠ s.cap) (hlast : s.upper.toNat ≠ 2 ^ 64 - 1) :
    exec .push s =
      if s.rangeOK s.a0 s.symBytes = false then .next (s.raise .bus 0x30 s.a0)
      else if s.overlapsLive s.a0 s.symBytes = true then .refused .overlappingBuffers
      else .next (s.appendSlot s.a0) := by
  rw [exec_push_of_active h, if_neg hroom, if_neg hlast]

end

/-- Settles O32: each check by its equation, and past them the new slot with its row and column cleared. -/
theorem pushChecksThenAppendsAMissingSlot : Obligations.PushChecksThenAppendsAMissingSlot := by
  refine ⟨guardedCommand_of_whenReady (i := .push) fun _ => rfl, fun s h =>
    ⟨fun hfull => (exec_push_of_active h).trans (if_pos hfull), fun hroom =>
      ⟨?lastIndex, fun hlast hrange => (exec_push_of_room h hroom hlast).trans (if_pos hrange),
        ?overlapping, fun hlast hrange hfree => ⟨s.appendSlot s.a0, ?appended, rfl,
          s.slotAt_appendSlot s.a0, s.coefAt_clearCross_of_or _⟩⟩⟩⟩
  case lastIndex =>
    intro hlast
    exact (exec_push_of_active h).trans ((if_neg hroom).trans (if_pos hlast))
  case overlapping =>
    intro hlast hrange hover
    exact (exec_push_of_room h hroom hlast).trans ((if_neg (ne_false_of_eq_true hrange)).trans (if_pos hover))
  case appended =>
    exact (exec_push_of_room h hroom hlast).trans
      ((if_neg (ne_false_of_eq_true hrange)).trans (if_neg (ne_true_of_eq_false hfree)))

/-! ### The freezing loop of `POP` (R102, R127) -/

/-- A slot marked frozen if `b`. -/
def Slot.freezeIf (v : Slot) (b : Bool) : Slot := { v with frz := v.frz || b }

@[simp] theorem Slot.freezeIf_false (v : Slot) : v.freezeIf false = v := by simp [Slot.freezeIf]

@[simp] theorem Slot.freezeIf_freezeIf (v : Slot) (b c : Bool) :
    (v.freezeIf b).freezeIf c = v.freezeIf (b || c) := by simp [Slot.freezeIf, Bool.or_assoc]

@[simp] theorem Slot.piv_freezeIf (v : Slot) (b : Bool) : (v.freezeIf b).piv = v.piv := rfl

/-- The pass of the loop for stream index `r` marks physical slot `q`. -/
def State.freezes (s : State) (i q r : Nat) : Bool :=
  decide (q = s.phys r ∧ r ≠ i ∧ (s.slotAt q).piv = true ∧ s.coefAt q (s.phys i) ≠ 0)

/-- One pass of the loop. -/
def State.freezePass (i : Nat) (s : State) (r : Nat) : State :=
  if r ≠ i ∧ (s.slot r).piv = true ∧ s.coefOf r i ≠ 0 then s.setSlot r { s.slot r with frz := true } else s

theorem State.freezeDependents_eq_foldl (s : State) (i : Nat) :
    s.freezeDependents i = s.live.foldl (State.freezePass i) s := rfl

theorem State.slotAt_freezePass (i : Nat) (s : State) (r q : Nat) :
    (State.freezePass i s r).slotAt q = (s.slotAt q).freezeIf (s.freezes i q r) := by
  unfold State.freezePass State.freezes
  by_cases hq : q = s.phys r
  case neg =>
    split
    · simp [State.slotAt_setSlot, hq]
    · simp [hq]
  case pos =>
    subst hq
    split
    case isTrue hmarks =>
      rw [State.slotAt_setSlot, if_pos rfl, decide_eq_true ⟨rfl, hmarks⟩, Slot.freezeIf, Bool.or_true]
      rfl
    case isFalse hkeeps =>
      rw [decide_eq_false fun hall => hkeeps hall.2, Slot.freezeIf_false]

/-- A pass writes `FRZ` only, which no pass tests. -/
theorem State.freezes_freezePass (i : Nat) (s : State) (r : Nat) :
    (State.freezePass i s r).freezes i = s.freezes i := by
  have hpass : (State.freezePass i s r).cap = s.cap ∧ (State.freezePass i s r).coef = s.coef := by
    unfold State.freezePass
    split <;> exact ⟨rfl, rfl⟩
  funext q r'
  refine decide_eq_decide.mpr ?_
  simp only [State.slotAt_freezePass, Slot.piv_freezeIf, State.coefAt, State.phys, hpass]

theorem State.slotAt_foldl_freezePass (i : Nat) (l : List Nat) (s : State) (q : Nat) :
    (l.foldl (State.freezePass i) s).slotAt q = (s.slotAt q).freezeIf (l.any (s.freezes i q)) := by
  induction l generalizing s with
  | nil => simp
  | cons r l ih =>
    rw [List.foldl_cons, ih, State.freezes_freezePass, State.slotAt_freezePass, Slot.freezeIf_freezeIf,
      List.any_cons]

theorem State.slotAt_freezeDependents (s : State) (i q : Nat) :
    (s.freezeDependents i).slotAt q = (s.slotAt q).freezeIf (s.live.any (s.freezes i q)) :=
  State.slotAt_foldl_freezePass i s.live s q

/-- At the slot of a live index `r ≠ i`, the pass for `r` decides whether any pass marks it. -/
theorem State.any_freezes_phys {s : State} {i r : Nat} (hr : s.isLive r = true) (hne : r ≠ i) :
    s.live.any (s.freezes i (s.phys r)) = ((s.slot r).piv && decide (s.coefOf r i ≠ 0)) := by
  rw [Bool.eq_iff_iff, List.any_eq_true, Bool.and_eq_true, decide_eq_true_eq]
  constructor
  · rintro ⟨r', -, hmarks⟩
    exact (of_decide_eq_true hmarks).2.2
  · exact fun hmarks => ⟨r, (s.mem_live r).mpr hr, decide_eq_true ⟨rfl, hne, hmarks⟩⟩

theorem State.any_freezes_dead {s : State} (i : Nat) {q : Nat} (hdead : ∀ r, s.isLive r = true → s.phys r ≠ q) :
    s.live.any (s.freezes i q) = false :=
  List.any_eq_false.mpr fun r hr hmarks =>
    hdead r ((s.mem_live r).mp hr) (of_decide_eq_true hmarks).1.symm

/-! ### `POP` (R102) -/

/-- The slot table after `POP`, whatever the loop has marked. -/
theorem State.slotAt_dropLowest_freezeIf (s : State) (q : Nat) :
    s.dropLowest.slotAt q = if q = s.phys s.lower.toNat then Slot.empty
      else (s.slotAt q).freezeIf (s.live.any (s.freezes s.lower.toNat q)) := by
  have hphys : (s.freezeDependents s.lower.toNat).phys s.lower.toNat = s.phys s.lower.toNat :=
    State.phys_congr (by rw [State.freezeDependents_eq]) _
  rw [← State.slotAt_freezeDependents, ← hphys]
  exact State.slotAt_setSlot ((s.freezeDependents _).clearCross _) s.lower.toNat q Slot.empty

/-- The coefficient store after `POP`: the loop marks slots only. -/
theorem State.coefAt_dropLowest_of_or (s : State) (p q : Nat) :
    s.dropLowest.coefAt p q =
      if p = s.phys s.lower.toNat ∨ q = s.phys s.lower.toNat then 0 else s.coefAt p q := by
  have hcoef : (s.freezeDependents s.lower.toNat).coefAt p q = s.coefAt p q := by
    rw [State.freezeDependents_eq]
    rfl
  rw [← hcoef]
  exact State.coefAt_clearCross_of_or _ _ _ _

theorem exec_pop_of_active {s : State} (h : s.Active) : exec .pop s =
    if s.upper = s.lower then .next (s.raise .empty 0x31 s.lower) else .next s.dropLowest :=
  exec_of_active (i := .pop) h fun _ => rfl

/-- Settles O33: the slot table after the command is the loop's closed form with the lowest slot emptied. -/
theorem popDropsTheLowestSlot : Obligations.PopDropsTheLowestSlot := by
  refine ⟨guardedCommand_of_whenReady (i := .pop) fun _ => rfl, fun s h =>
    ⟨fun hempty => (exec_pop_of_active h).trans (if_pos hempty), fun hb hne =>
      have hlow : s.isLive s.lower.toNat = true := (s.isLive_iff _).mpr ⟨le_rfl, State.lower_lt_upper hb hne⟩
      ⟨s.dropLowest, (exec_pop_of_active h).trans (if_neg hne), s.dropLowest_eq, ?lowest, ?others, ?dead,
        s.coefAt_dropLowest_of_or⟩⟩⟩
  case lowest => exact (s.slotAt_dropLowest_freezeIf _).trans (if_pos rfl)
  case others =>
    intro r hr hother
    have hphys : s.phys r ≠ s.phys s.lower.toNat := fun he => hother (State.phys_inj hb.fits hr hlow he)
    rw [State.slot, State.phys_dropLowest, State.slotAt_dropLowest_freezeIf, if_neg hphys,
      State.any_freezes_phys hr hother]
    rfl
  case dead =>
    intro q hdead
    rw [State.slotAt_dropLowest_freezeIf, if_neg (hdead _ hlow).symm, State.any_freezes_dead _ hdead,
      Slot.freezeIf_false]

end Sys2Proof.Machine
end

section
/-! The encoder commands `WRITE_SYMBOL` and `WRITE_SOURCE_SYMBOL` (R110, R111): each check under the checks before it,
and that they and `GENERATE` complete with one store outside every live payload buffer (R112). -/

namespace Sys2Proof.Machine

section
variable {s t : State}

/-! ### The checks of `WRITE_SYMBOL` (R110) -/

theorem exec_writeSymbol_of_active (h : s.Active) : exec .writeSymbol s =
    if s.windowOK = false then .next (s.raise .window 0x40 s.wlower)
    else if s.rangeOK s.a0 s.symBytes = false then .next (s.raise .bus 0x40 s.a0)
    else if s.rangeOK s.a1 s.vectorBytes = false then .next (s.raise .bus 0x40 s.a1)
    else if overlap s.a0.toNat s.symBytes s.a1.toNat s.vectorBytes = true ∨
        s.overlapsLive s.a0 s.symBytes = true then .refused .overlappingBuffers
    else .next (s.memWrite s.a0 (s.codedSymbol (s.memRead s.a1 s.vectorBytes))) :=
  exec_of_active (i := .writeSymbol) h fun _ => rfl

/-- In a legal window only the two buffers are left to test. -/
theorem exec_writeSymbol_of_window (h : s.Active) (hwindow : s.windowOK = true) : exec .writeSymbol s =
    if s.rangeOK s.a0 s.symBytes = false then .next (s.raise .bus 0x40 s.a0)
    else if s.rangeOK s.a1 s.vectorBytes = false then .next (s.raise .bus 0x40 s.a1)
    else if overlap s.a0.toNat s.symBytes s.a1.toNat s.vectorBytes = true ∨
        s.overlapsLive s.a0 s.symBytes = true then .refused .overlappingBuffers
    else .next (s.memWrite s.a0 (s.codedSymbol (s.memRead s.a1 s.vectorBytes))) := by
  rw [exec_writeSymbol_of_active h, if_neg (ne_false_of_eq_true hwindow)]

/-- Past the window and range checks only the overlaps are left to test. -/
theorem exec_writeSymbol_of_ranges (h : s.Active) (hwindow : s.windowOK = true)
    (hout : s.rangeOK s.a0 s.symBytes = true) (hcoef : s.rangeOK s.a1 s.vectorBytes = true) :
    exec .writeSymbol s =
      if overlap s.a0.toNat s.symBytes s.a1.toNat s.vectorBytes = true ∨
        s.overlapsLive s.a0 s.symBytes = true then .refused .overlappingBuffers
      else .next (s.memWrite s.a0 (s.codedSymbol (s.memRead s.a1 s.vectorBytes))) := by
  rw [exec_writeSymbol_of_window h hwindow, if_neg (ne_false_of_eq_true hout), if_neg (ne_false_of_eq_true hcoef)]

/-! ### The checks of `WRITE_SOURCE_SYMBOL` (R111) -/

theorem exec_writeSourceSymbol_of_active (h : s.Active) : exec .writeSourceSymbol s =
    if s.isLive s.a1.toNat = false then .next (s.raise .index 0x41 s.a1)
    else if s.rangeOK s.a0 s.symBytes = false then .next (s.raise .bus 0x41 s.a0)
    else if s.overlapsLive s.a0 s.symBytes = true then .refused .overlappingBuffers
    else .next (s.memWrite s.a0 (s.payload s.a1.toNat)) :=
  exec_of_active (i := .writeSourceSymbol) h fun _ => rfl

/-- For a live index only the output buffer is left to test. -/
theorem exec_writeSourceSymbol_of_live (h : s.Active) (hlive : s.isLive s.a1.toNat = true) :
    exec .writeSourceSymbol s =
      if s.rangeOK s.a0 s.symBytes = false then .next (s.raise .bus 0x41 s.a0)
      else if s.overlapsLive s.a0 s.symBytes = true then .refused .overlappingBuffers
      else .next (s.memWrite s.a0 (s.payload s.a1.toNat)) := by
  rw [exec_writeSourceSymbol_of_active h, if_neg (ne_false_of_eq_true hlive)]

/-- Past the index and range checks only the overlap is left to test. -/
theorem exec_writeSourceSymbol_of_range (h : s.Active) (hlive : s.isLive s.a1.toNat = true)
    (hout : s.rangeOK s.a0 s.symBytes = true) : exec .writeSourceSymbol s =
      if s.overlapsLive s.a0 s.symBytes = true then .refused .overlappingBuffers
      else .next (s.memWrite s.a0 (s.payload s.a1.toNat)) := by
  rw [exec_writeSourceSymbol_of_live h hlive, if_neg (ne_false_of_eq_true hout)]

/-! ### What the three commands leave unchanged (R112) -/

/-- They complete with a store only, and the overlap check before it keeps it off the live slots' buffers. -/
theorem Completes.memWrite_of_encoder {i : Instr} (h : Completes s i t)
    (hi : i ∈ [Instr.generate, .writeSymbol, .writeSourceSymbol]) :
    ∃ bs, s.overlapsLive s.a0 bs.length = false ∧ t = s.memWrite s.a0 bs := by
  cases h with
  | store _ _ bs _ _ hfree => exact ⟨bs, hfree (by rintro rfl; exact absurd hi (by decide)), rfl⟩
  | result hresult => fin_cases hi <;> exact absurd hresult (by decide)
  | _ => exact absurd hi (by decide)

end

/-! ### The statements -/

/-- Settles O35: each check by its equation, and past them one write of the output buffer. -/
theorem writeSymbolChecksThenCombines : Obligations.WriteSymbolChecksThenCombines := by
  refine ⟨guardedCommand_of_whenReady (i := .writeSymbol) fun _ => rfl, fun s h =>
    ⟨fun hwindow => (exec_writeSymbol_of_active h).trans (if_pos hwindow),
      fun hwindow hout => (exec_writeSymbol_of_window h hwindow).trans (if_pos hout),
      ?badVector, fun hwindow hout hcoef =>
        have hbody := exec_writeSymbol_of_ranges h hwindow hout hcoef
        ⟨fun hover => hbody.trans (if_pos hover), fun hapart hfree =>
          ⟨length_codedSymbol s _, storesExactly_of_memWrite (hbody.trans (if_neg ?noOverlap))⟩⟩⟩⟩
  case badVector =>
    intro hwindow hout hcoef
    exact (exec_writeSymbol_of_window h hwindow).trans ((if_neg (ne_false_of_eq_true hout)).trans (if_pos hcoef))
  case noOverlap =>
    exact not_or.mpr ⟨ne_true_of_eq_false hapart, ne_true_of_eq_false hfree⟩

/-- Settles O36: each check by its equation, and past them one write of the output buffer. -/
theorem writeSourceSymbolChecksThenCopies : Obligations.WriteSourceSymbolChecksThenCopies := by
  refine ⟨guardedCommand_of_whenReady (i := .writeSourceSymbol) fun _ => rfl, fun s h => ?_⟩
  rw [← State.isLive_iff]
  exact ⟨fun hdead => (exec_writeSourceSymbol_of_active h).trans (if_pos (eq_false_of_ne_true hdead)),
    fun hlive hout => (exec_writeSourceSymbol_of_live h hlive).trans (if_pos hout),
    fun hlive hout hover => (exec_writeSourceSymbol_of_range h hlive hout).trans (if_pos hover),
    fun hlive hout hfree => storesExactly_of_memWrite
      ((exec_writeSourceSymbol_of_range h hlive hout).trans (if_neg (ne_true_of_eq_false hfree)))⟩

/-- Settles O37: past the fault entries the command is one store that overlaps no live payload buffer. -/
theorem encoderCommandsAreReadOnly : Obligations.EncoderCommandsAreReadOnly := by
  intro i s t hi _ hexec hfault
  rcases exec_outcomes hexec with rfl | ⟨c, info, -, -, rfl⟩ | hcompletes
  case inl => exact ⟨rfl, fun _ _ => rfl⟩
  case inr.inl => exact Bool.noConfusion hfault
  case inr.inr =>
    obtain ⟨bs, hfree, rfl⟩ := hcompletes.memWrite_of_encoder hi
    exact ⟨rfl, fun _ hj => State.payload_memWrite_of_free hfree hj⟩

end Sys2Proof.Machine
end

section
/-! The states of the live slots (R121, R122, R126). `PUSH` and `POP` leave the rows that stay as they are; a read
command drops its row or inserts one at a slot, and an insertion never takes a pivot away and keeps decoded rows
decoded, since these do not reference the new row's column. -/

namespace Sys2Proof.Machine

variable {s t : State}

/-! ### The state of a slot (R121) -/

theorem State.dependsOnOther_iff (s : State) (i : Nat) :
    s.dependsOnOther i = true ↔ ∃ j, s.isLive j = true ∧ j ≠ i ∧ s.coefOf i j ≠ 0 := by
  simp only [State.dependsOnOther, List.any_eq_true, State.mem_live, decide_eq_true_eq]

theorem State.rowState_eq_partiallyDecoded_iff (s : State) (i : Nat) :
    s.rowState i = .partiallyDecoded ↔ (s.slot i).piv = true ∧
      ((s.slot i).frz = true ∨ ∃ j, s.isLive j = true ∧ j ≠ i ∧ s.coefOf i j ≠ 0) := by
  rw [← State.dependsOnOther_iff, ← Bool.not_eq_false]
  unfold State.rowState
  split
  case isTrue hmissing => simp [hmissing]
  case isFalse hpiv =>
    rw [and_iff_right hpiv]
    split
    case isTrue hother => exact iff_of_true rfl hother
    case isFalse hnone => exact iff_of_false (by decide) hnone

/-- Settles O38: one equivalence per state. -/
theorem slotStateFollowsTheRow : Obligations.SlotStateFollowsTheRow := fun s i _ =>
  ⟨s.rowState_eq_missing_iff i, s.rowState_eq_partiallyDecoded_iff i, s.rowState_eq_decoded_iff i, rfl⟩

/-- Settles O39: the test on the index and the code of the state behind it. -/
theorem qstateWritesTheSlotState : Obligations.QstateWritesTheSlotState := by
  refine ⟨guardedCommand_of_whenReady (i := .qstate) fun _ => rfl, fun s h => ?_⟩
  have hbody := exec_of_active (i := .qstate) h fun _ => rfl
  rw [← State.isLive_iff]
  exact ⟨fun hdead => hbody.trans (if_pos (eq_false_of_ne_true hdead)), fun hlow hhigh =>
    hbody.trans (if_neg (ne_false_of_eq_true ((s.isLive_iff _).mpr ⟨hlow, hhigh⟩)))⟩

/-- A slot's state is read off its entry and, where it has a pivot, off its references to other live columns. -/
theorem State.rowState_congr {k : Nat} (hslot : t.slot k = s.slot k)
    (hrow : (s.slot k).piv = true → ((∀ j, t.isLive j = true → j ≠ k → t.coefOf k j = 0) ↔
      ∀ j, s.isLive j = true → j ≠ k → s.coefOf k j = 0)) : t.rowState k = s.rowState k := by
  rw [← State.dependsOnOther_eq_false_iff, ← State.dependsOnOther_eq_false_iff] at hrow
  unfold State.rowState
  rw [hslot]
  split
  case isTrue => rfl
  case isFalse hpiv =>
    have hdep : t.dependsOnOther k = s.dependsOnOther k :=
      Bool.eq_iff_iff.mpr (by simpa using not_congr (hrow (Bool.not_eq_false _ ▸ hpiv)))
    rw [hdep]

/-- The order of the codes is that of R122: a state is no lower where a pivot and a decoded row are kept. -/
theorem rowStateCode_le {k : Nat} (hpiv : (s.slot k).piv = true → (t.slot k).piv = true)
    (hdecoded : s.rowState k = .decoded → t.rowState k = .decoded) :
    (rowStateCode (s.rowState k)).toNat ≤ (rowStateCode (t.rowState k)).toNat := by
  cases hk : s.rowState k with
  | missing => exact Nat.zero_le _
  | decoded => rw [hdecoded hk]
  | partiallyDecoded =>
    have hmissing : t.rowState k ≠ .missing := fun h => by
      rw [State.rowState_eq_missing_iff, hpiv ((s.rowState_eq_partiallyDecoded_iff k).mp hk).1] at h
      exact Bool.noConfusion h
    cases ht : t.rowState k with
    | missing => exact absurd ht hmissing
    | partiallyDecoded => exact le_rfl
    | decoded => decide

/-! ### `PUSH` and `POP` (R101, R102) -/

section
variable (hlast : s.upper.toNat ≠ 2 ^ 64 - 1) (a : Word) (hb : s.BoundsOk) (hroom : s.nsyms ≠ s.cap)
include hlast hb hroom

/-- The new column is 0 in every row, so no row's state depends on it. -/
theorem State.rowState_appendSlot {k : Nat} (hk : s.isLive k = true) :
    (s.appendSlot a).rowState k = s.rowState k := by
  have hcoef := fun j (hj : s.isLive j = true) => State.coefOf_appendSlot hlast a hb hroom hk hj
  refine State.rowState_congr (State.slot_appendSlot hlast a hb hroom hk) fun _ =>
    ⟨fun h j hj hjk => ?_, fun h j hj hjk => ?_⟩
  · exact (hcoef j hj).symm.trans (h j ((State.isLive_appendSlot hlast a hb.lower_le j).mpr (.inl hj)) hjk)
  · rcases (State.isLive_appendSlot hlast a hb.lower_le j).mp hj with hj | hj
    · exact (hcoef j hj).trans (h j hj hjk)
    · exact State.coefOf_appendSlot_upper a s k j (.inr hj)

theorem State.rank_appendSlot : (s.appendSlot a).rank = s.rank := by
  have hkept : s.live.countP (fun i => ((s.appendSlot a).slot i).piv) = s.live.countP fun i => (s.slot i).piv :=
    List.countP_congr fun i hi => by rw [State.slot_appendSlot hlast a hb hroom ((s.mem_live i).mp hi)]
  rw [State.rank, State.live_appendSlot hb hlast, List.countP_append, hkept, List.countP_singleton,
    State.slot_appendSlot_upper]
  rfl

end

section
variable (hb : s.BoundsOk) (hs : s.RowsOk) (hlt : s.lower.toNat < s.upper.toNat)
include hb hs hlt

/-- The column that goes is 0 in every stored row that stays (R28 (f)), so no row's state depends on it. -/
theorem State.rowState_dropLowest {k : Nat} (hk : s.isLive k = true) (hne : k ≠ s.lower.toNat) :
    s.dropLowest.rowState k = s.rowState k := by
  have hcoef := fun j (hj : s.isLive j = true) (hjl : j ≠ s.lower.toNat) =>
    State.coefOf_dropLowest hb hs hlt hk hne hj hjl
  refine State.rowState_congr (State.slot_dropLowest hb hs hlt hk hne) fun hpiv =>
    ⟨fun h j hj hjk => ?_, fun h j hj hjk => ?_⟩
  · by_cases hjl : j = s.lower.toNat
    · exact hjl ▸ State.coefOf_lower hs hlt hk hne hpiv
    · exact (hcoef j hj hjl).symm.trans (h j ((State.isLive_dropLowest hlt j).mpr ⟨hj, hjl⟩) hjk)
  · obtain ⟨hj, hjl⟩ := (State.isLive_dropLowest hlt j).mp hj
    exact (hcoef j hj hjl).trans (h j hj hjk)

theorem State.rank_dropLowest :
    s.rank = s.dropLowest.rank + if (s.slot s.lower.toNat).piv = true then 1 else 0 := by
  have hkept : s.dropLowest.live.countP (fun i => (s.slot i).piv) = s.dropLowest.rank :=
    List.countP_congr fun i hi => by
      obtain ⟨hi, hil⟩ := (State.isLive_dropLowest hlt i).mp ((State.mem_live _ i).mp hi)
      rw [State.slot_dropLowest hb hs hlt hi hil]
  rw [State.rank, State.live_dropLowest hlt, List.countP_cons, hkept]

end

/-! ### A row inserted (R123, R125) -/

/-- The rows of two states are the same: the bounds of the stream and the tables agree. -/
structure State.SameRows (s t : State) : Prop where
  lower : t.lower = s.lower
  upper : t.upper = s.upper
  cap : t.cap = s.cap
  slots : t.slots = s.slots
  coef : t.coef = s.coef

namespace State.SameRows

theorem isLive (h : s.SameRows t) (k : Nat) : t.isLive k = s.isLive k := State.isLive_congr h.lower h.upper k

theorem nsyms (h : s.SameRows t) : t.nsyms = s.nsyms := by unfold State.nsyms; rw [h.lower, h.upper]

theorem slot (h : s.SameRows t) (k : Nat) : t.slot k = s.slot k := State.slot_congr h.cap h.slots k

theorem coefOf (h : s.SameRows t) (i j : Nat) : t.coefOf i j = s.coefOf i j := State.coefOf_congr h.cap h.coef i j

theorem rowState (h : s.SameRows t) (k : Nat) : t.rowState k = s.rowState k :=
  State.rowState_congr (h.slot k) fun _ => by simp only [h.isLive, h.coefOf]

theorem rank (h : s.SameRows t) : t.rank = s.rank := by
  unfold State.rank
  rw [State.live_congr h.lower h.upper]
  simp only [h.slot]

theorem of_flags (s : State) (adv : Bool) (res : Word) : s.SameRows { s with adv := adv, res := res } :=
  ⟨rfl, rfl, rfl, rfl, rfl⟩

theorem memForget (h : s.SameRows t) (a : Word) (n : Nat) : s.SameRows (t.memForget a n) :=
  ⟨h.lower, h.upper, h.cap, h.slots, h.coef⟩

end State.SameRows

/-- Counting with a predicate that gained one element of a list without repetitions. -/
theorem countP_insert {p q : Nat → Bool} {l : List Nat} {v : Nat} (hl : l.Nodup) (hv : v ∈ l)
    (hne : ∀ i ∈ l, i ≠ v → q i = p i) (hq : q v = true) :
    l.countP q = l.countP p + if p v then 0 else 1 := by
  have hrest : (l.erase v).countP q = (l.erase v).countP p := List.countP_congr fun i hi => by
    obtain ⟨hiv, hi⟩ := hl.mem_erase_iff.mp hi
    rw [hne i hi hiv]
  rw [(List.perm_cons_erase hv).countP_eq q, (List.perm_cons_erase hv).countP_eq p, List.countP_cons,
    List.countP_cons, hrest, if_pos hq]
  cases p v <;> rfl

section
variable {v : Nat} {st : Staging} (hb : s.BoundsOk) (hbuf : s.BuffersOk) (hi : s.Insertable v st)
include hb hbuf hi

theorem State.piv_insertRow {k : Nat} (hk : s.isLive k = true) :
    ((s.insertRow v st).slot k).piv = if k = v then true else (s.slot k).piv := by
  split
  case isTrue hkv => rw [hkv, State.slot_insertRow_self hb hbuf hi]; rfl
  case isFalse hkv => rw [State.slot_insertRow_of_ne hb hbuf hi hk hkv]

theorem State.rank_insertRow : (s.insertRow v st).rank = s.rank + if (s.slot v).piv then 0 else 1 := by
  have hup := State.insertRow_update hb hbuf hi.live hi.payload_length
  rw [State.rank, hup.live]
  refine countP_insert s.live_nodup ((s.mem_live v).mpr hi.live) (fun k hk hkv => ?_) ?_
  · rw [State.piv_insertRow hb hbuf hi ((s.mem_live k).mp hk), if_neg hkv]
  · rw [State.piv_insertRow hb hbuf hi hi.live, if_pos rfl]

/-- A decoded row other than the new one does not reference its column, so nothing is added to it. -/
theorem State.decoded_insertRow_of_ne {k : Nat} (hk : s.isLive k = true) (hkv : k ≠ v)
    (hdecoded : s.rowState k = .decoded) : (s.insertRow v st).rowState k = .decoded := by
  have hup := State.insertRow_update hb hbuf hi.live hi.payload_length
  obtain ⟨hpiv, hfrz, hzero⟩ := (s.rowState_eq_decoded_iff k).mp hdecoded
  rw [State.rowState_eq_decoded_iff, State.slot_insertRow_of_ne hb hbuf hi hk hkv]
  refine ⟨hpiv, hfrz, fun j hj hjk => ?_⟩
  rw [hup.isLive] at hj
  rw [State.coefOf_insertRow_of_ne hb hbuf hi hk hkv hj, if_pos hpiv, hzero j hj hjk,
    hzero v hi.live hkv.symm, zero_gfMul, gfAdd_zero]

/-- The new row is decoded where it has no other coefficient. -/
theorem State.decoded_insertRow_self
    (hunit : ∀ j, s.isLive j = true → j ≠ v → s.stagedCoef st.coefs j = 0) :
    (s.insertRow v st).rowState v = .decoded := by
  have hup := State.insertRow_update hb hbuf hi.live hi.payload_length
  rw [State.rowState_eq_decoded_iff, State.slot_insertRow_self hb hbuf hi]
  refine ⟨rfl, rfl, fun j hj hjv => ?_⟩
  rw [hup.isLive] at hj
  rw [State.coefOf_insertRow_self hb hbuf hi hj, hunit j hj hjv]

end

/-! ### The two read commands (R122, R123, R125) -/

/-- What a completed read command does to the rows: it drops its row, or it inserts one, in place of a stored row only
if the new one is the unit row. -/
inductive State.ReadEffect (s t : State) : Prop
  | dropped (hsame : s.SameRows t) (hadv : t.adv = false)
  | inserted {v : Nat} {st : Staging} (hi : s.Insertable v st)
      (hunit : (s.slot v).piv = true → ∀ j, s.isLive j = true → j ≠ v → s.stagedCoef st.coefs j = 0)
      (hsame : (s.insertRow v st).SameRows t) (hadv : t.adv = !(s.slot v).piv)

/-- The pivot column of a reduced row has no stored row: it would have been cleared (R123). -/
theorem State.ReducedAt.piv_pivot {st : Staging} (h : s.ReducedAt s.live st) {v : Nat}
    (hv : s.isLive v = true) (hne : s.stagedCoef st.coefs v ≠ 0) : (s.slot v).piv = false :=
  Bool.eq_false_iff.mpr fun hp => hne (h.pivot_zero v ((s.mem_live v).mpr hv) hv hp)

/-- The bytes that become unspecified belong to no row. -/
theorem State.afterRead_sameRows {u : State} {adv : Bool} {res : Word}
    (he : s.absorb (s.memRead s.a1 s.vectorBytes) (s.memRead s.a0 s.symBytes) = { u with adv := adv, res := res }) :
    u.SameRows s.afterRead ∧ s.afterRead.adv = adv ∧ s.afterRead.res = res := by
  unfold State.afterRead
  rw [he]
  exact ⟨((State.SameRows.of_flags u adv res).memForget _ _).memForget _ _, rfl, rfl⟩

theorem State.RowsInv.readEffect_afterRead (h : s.RowsInv) : s.ReadEffect s.afterRead := by
  have hsp := length_memRead s s.a0 s.symBytes
  rcases s.absorb_cases (s.memRead s.a1 s.vectorBytes) (s.memRead s.a0 s.symBytes) with ⟨-, he⟩ | ⟨v, hv, he⟩
  · obtain ⟨hsame, hadv, -⟩ := State.afterRead_sameRows he
    exact .dropped hsame hadv
  · obtain ⟨hsame, hadv, -⟩ := State.afterRead_sameRows he
    have hred := h.reducedInput (s.memRead s.a1 s.vectorBytes) hsp
    obtain ⟨hlive, hne, -⟩ := State.pivotOf_eq_some hv
    have hmissing := hred.piv_pivot hlive hne
    refine .inserted (State.normalise_insertable hred hv) (fun hp => ?_) hsame (by rw [hadv, hmissing]; rfl)
    rw [hmissing] at hp
    exact Bool.noConfusion hp

theorem State.stagedCoef_unitRow (s : State) (v : Nat) {j : Nat} (hj : s.isLive j = true) :
    s.stagedCoef (s.unitRow v) j = if j = v then 1 else 0 :=
  s.stagedCoef_map (fun j => if j = v then 1 else 0) hj

theorem State.readEffect_absorbSource {v : Nat} (hv : s.isLive v = true) {sp : List Byte}
    (hsp : sp.length = s.symBytes) : s.ReadEffect (s.absorbSource v sp) := by
  rw [State.absorbSource_eq_insertRow]
  exact .inserted (State.unitRow_insertable hv hsp)
    (fun _ j hj hjv => (s.stagedCoef_unitRow v hj).trans (if_neg hjv)) (.of_flags _ _ _) rfl

theorem Completes.readEffect {i : Instr} (h : Completes s i t) (hi : i = .readSymbol ∨ i = .readSourceSymbol)
    (hs : s.RowsInv) : s.ReadEffect t := by
  cases h with
  | readSymbol => exact hs.readEffect_afterRead
  | readSourceSymbol _ hlive => exact State.readEffect_absorbSource hlive (length_memRead s _ _)
  | result hmem => rcases hi with rfl | rfl <;> exact absurd hmem (by decide)
  | store hmem => rcases hi with rfl | rfl <;> exact absurd hmem (by decide)
  | _ => rcases hi with hi | hi <;> cases hi

section
variable (h : s.ReadEffect t)
include h

theorem State.ReadEffect.isLive (hs : s.RowsInv) (k : Nat) : t.isLive k = s.isLive k := by
  cases h with
  | dropped hsame => exact hsame.isLive k
  | inserted hi _ hsame =>
    exact (hsame.isLive k).trans
      ((State.insertRow_update hs.bounds hs.buffers hi.live hi.payload_length).isLive k)

theorem State.ReadEffect.nsyms (hs : s.RowsInv) : t.nsyms = s.nsyms := by
  cases h with
  | dropped hsame => exact hsame.nsyms
  | inserted hi _ hsame =>
    exact hsame.nsyms.trans (State.insertRow_update hs.bounds hs.buffers hi.live hi.payload_length).nsyms

/-- `RANK` counts one row more where `ADV` is set. -/
theorem State.ReadEffect.rank (hs : s.RowsInv) : t.rank = s.rank + if t.adv then 1 else 0 := by
  cases h with
  | dropped hsame hadv => rw [hsame.rank, hadv]; rfl
  | @inserted v _ hi _ hsame hadv =>
    rw [hsame.rank, State.rank_insertRow hs.bounds hs.buffers hi, hadv]
    cases (s.slot v).piv <;> rfl

/-- No live slot falls back (R122). -/
theorem State.ReadEffect.code_le (hs : s.RowsInv) {k : Nat} (hk : s.isLive k = true) :
    (rowStateCode (s.rowState k)).toNat ≤ (rowStateCode (t.rowState k)).toNat := by
  cases h with
  | dropped hsame => rw [hsame.rowState]
  | @inserted v _ hi hunit hsame =>
    rw [hsame.rowState]
    refine rowStateCode_le (fun hp => ?_) fun hdecoded => ?_
    · rw [State.piv_insertRow hs.bounds hs.buffers hi hk, hp, ite_self]
    · by_cases hkv : k = v
      · subst hkv
        exact State.decoded_insertRow_self hs.bounds hs.buffers hi
          (hunit ((s.rowState_eq_decoded_iff k).mp hdecoded).1)
      · exact State.decoded_insertRow_of_ne hs.bounds hs.buffers hi hk hkv hdecoded

end

/-- In the ready state only the third outcome of a guarded command is left (R52, R93, R144). -/
theorem State.Active.body_of_next {A B C : Prop} (hs : s.Active)
    (h : (s.fault = true ∧ A) ∨ (s.fault = false ∧ s.ready = false ∧ B) ∨ (s.fault = false ∧ s.ready = true ∧ C)) :
    C := by
  obtain ⟨hf, hr⟩ := hs
  rcases h with ⟨hfault, -⟩ | ⟨-, hready, -⟩ | ⟨-, -, hc⟩
  · exact absurd hfault (ne_true_of_eq_false hf)
  · exact absurd hr (ne_true_of_eq_false hready)
  · exact hc

/-- A completed `READ_SYMBOL`, with everything that its checks found (R47, R123). -/
structure State.ReadsSymbol (s t : State) : Prop where
  ready : s.ready = true
  window : s.windowOK = true
  symbol : s.rangeOK s.a0 s.symBytes = true
  vector : s.rangeOK s.a1 s.vectorBytes = true
  symbol_free : s.overlapsLive s.a0 s.symBytes = false
  vector_free : s.overlapsLive s.a1 s.vectorBytes = false
  apart : overlap s.a0.toNat s.symBytes s.a1.toNat s.vectorBytes = false
  eq : t = s.afterRead

theorem State.ReadsSymbol.completes (h : s.ReadsSymbol t) : Completes s .readSymbol t :=
  h.eq ▸ .readSymbol h.ready h.window h.symbol h.vector h.symbol_free h.vector_free

theorem State.ne_raise (ht : t.fault = false) (c : Cause) (op : BitVec 8) (info : Word) :
    t ≠ s.raise c op info := by
  rintro rfl
  exact Bool.noConfusion ht

section
variable (hs : s.Active) (ht : t.fault = false)
include hs ht

theorem appendSlot_of_exec_push (h : exec .push s = .next t) :
    s.nsyms ≠ s.cap ∧ s.upper.toNat ≠ 2 ^ 64 - 1 ∧ t = s.appendSlot s.a0 := by
  rcases hs.body_of_next (execPush_next h) with he | he | he | ⟨hroom, hlast, -, -, he⟩
  · exact absurd he (State.ne_raise ht _ _ _)
  · exact absurd he (State.ne_raise ht _ _ _)
  · exact absurd he (State.ne_raise ht _ _ _)
  · exact ⟨hroom, hlast, he⟩

theorem dropLowest_of_exec_pop (h : exec .pop s = .next t) : s.upper ≠ s.lower ∧ t = s.dropLowest :=
  (hs.body_of_next (execPop_next h)).resolve_left (State.ne_raise ht _ _ _)

theorem readsSymbol_of_exec (h : exec .readSymbol s = .next t) : s.ReadsSymbol t := by
  rcases hs.body_of_next (execReadSymbol_next h) with
    he | he | he | ⟨hwindow, hsym, hvec, hsymFree, hvecFree, hapart, he⟩
  · exact absurd he (State.ne_raise ht _ _ _)
  · exact absurd he (State.ne_raise ht _ _ _)
  · exact absurd he (State.ne_raise ht _ _ _)
  · exact ⟨hs.2, hwindow, hsym, hvec, hsymFree, hvecFree, hapart, he⟩

theorem completes_of_exec_readSourceSymbol (h : exec .readSourceSymbol s = .next t) :
    Completes s .readSourceSymbol t := by
  rcases hs.body_of_next (execReadSourceSymbol_next h) with he | he | ⟨hlive, hsym, hfree, rfl⟩
  · exact absurd he (State.ne_raise ht _ _ _)
  · exact absurd he (State.ne_raise ht _ _ _)
  · exact .readSourceSymbol hs.2 hlive hsym hfree

end

/-! ### The statements -/

/-- Settles O47: a read command that does not complete changes no row; one that completes drops a row or inserts one.
`PUSH` and `POP` add and take away one index and keep the states of the others. -/
theorem slotStatesOnlyAdvance : Obligations.SlotStatesOnlyAdvance := by
  refine ⟨fun i s t hi hs h => ?read, fun s t hs hactive h ht => ?push, fun s t hs hactive h ht => ?pop⟩
  case read =>
    rcases exec_outcomes h with rfl | ⟨c, info, -, -, rfl⟩ | hc
    · exact ⟨le_rfl, fun k hk => ⟨hk, le_rfl⟩⟩
    · exact ⟨le_rfl, fun k hk => ⟨hk, le_rfl⟩⟩
    · have heffect := hc.readEffect hi hs.rowsInv
      exact ⟨heffect.rank hs.rowsInv ▸ Nat.le_add_right _ _, fun k hk =>
        ⟨(heffect.isLive hs.rowsInv k).trans hk, heffect.code_le hs.rowsInv hk⟩⟩
  case push =>
    obtain ⟨hroom, hlast, rfl⟩ := appendSlot_of_exec_push hactive ht h
    have hlive := State.isLive_appendSlot hlast s.a0 hs.bounds.lower_le
    refine ⟨State.rank_appendSlot hlast _ hs.bounds hroom, (hlive _).mpr (.inr rfl), ?_, fun k hk =>
      ⟨(hlive k).mpr (.inl hk), State.rowState_appendSlot hlast _ hs.bounds hroom hk⟩⟩
    rw [State.rowState_eq_missing_iff, State.slot_appendSlot_upper]
  case pop =>
    obtain ⟨hne, rfl⟩ := dropLowest_of_exec_pop hactive ht h
    have hlt := State.lower_lt_upper hs.bounds hne
    have hlive := State.isLive_dropLowest hlt
    refine ⟨eq_false_of_ne_true fun hl => ((hlive _).mp hl).2 rfl,
      State.rank_dropLowest hs.bounds hs.rows hlt, fun k hk => ?_⟩
    obtain ⟨hk, hkl⟩ := (hlive k).mp hk
    exact ⟨hk, State.rowState_dropLowest hs.bounds hs.rows hlt hk hkl⟩

/-- Settles O48: the rank by the effect on the rows, and the missing slots are the others. -/
theorem rankGrowsExactlyWithAdv : Obligations.RankGrowsExactlyWithAdv := by
  intro i s t hi hs hactive h ht
  have hc : Completes s i t := by
    rcases hi with rfl | rfl
    · exact (readsSymbol_of_exec hactive ht h).completes
    · exact completes_of_exec_readSourceSymbol hactive ht h
  have heffect := hc.readEffect hi hs.rowsInv
  have hrank := heffect.rank hs.rowsInv
  have hs' := s.rank_add_missing
  have ht' := t.rank_add_missing
  rw [heffect.nsyms hs.rowsInv] at ht'
  exact ⟨hrank, by omega⟩

end Sys2Proof.Machine
end

section
/-! What row operations store (R46, R124, R125). Back-substitution writes the buffers of the rows it adds to, an insertion
also that of the new row, and every other byte of memory is as before. -/

namespace Sys2Proof.Machine

variable {s t : State}

/-! ### Back-substitution (R124) -/

theorem State.readByte_replaceRow {v x : Nat} (cs : List Elem) {pl : List Byte} (hpl : pl.length = s.symBytes)
    (sl : Slot) (hx : ¬ inRange x (s.slot v).addr.toNat s.symBytes) :
    (s.replaceRow v cs pl sl).mem.readByte x = s.mem.readByte x := by
  rw [State.replaceRow_eq]
  exact Memory.readByte_writeBytes_outside _ _ _ _ (by rw [hpl]; omega)

theorem State.readByte_substituteAt {v r x : Nat}
    (hx : s.References v r → ¬ inRange x (s.slot r).addr.toNat s.symBytes) :
    (State.substituteAt v (s.payload v) s r).mem.readByte x = s.mem.readByte x := by
  by_cases href : s.References v r
  · have hlen := (length_payload s r).trans (length_payload s v).symm
    rw [State.substituteAt_of_references href]
    exact State.readByte_replaceRow _ ((length_vecMAdd _ _ hlen).trans (length_payload s r)) _ (hx href)
  · rw [State.substituteAt_of_not_references href]

/-- Whether a row references column `v` is read off the row alone. -/
theorem State.references_of_view_eq (h : s.RowUpdate t) {v r : Nat} (hv : s.isLive v = true)
    (hview : t.view r = s.view r) : t.References v r ↔ s.References v r := by
  have hslot : t.slot r = s.slot r := congrArg RowView.slot hview
  rw [State.References, State.References, hslot, State.coefOf_of_view_eq h hv hview]

/-- The loop of R124 writes the buffers of the rows that reference column `v`: a pass changes its own row only, so the
rows still to come reference what they did before it. -/
theorem State.readByte_foldl_substituteAt {v x : Nat} {l : List Nat} (hl : l.Nodup) (hb : s.BoundsOk)
    (hbuf : s.BuffersOk) (hv : s.isLive v = true) (hlive : ∀ r ∈ l, s.isLive r = true)
    (hx : ∀ r ∈ l, s.References v r → ¬ inRange x (s.slot r).addr.toNat s.symBytes) :
    (l.foldl (State.substituteAt v (s.payload v)) s).mem.readByte x = s.mem.readByte x := by
  induction l generalizing s with
  | nil => rfl
  | cons r l ih =>
    obtain ⟨hrl, hl⟩ := List.nodup_cons.mp hl
    have hpass : s.Substituted v [r] (State.substituteAt v (s.payload v) s r) :=
      State.Substituted.step (l := []) hb hbuf hv ⟨.refl s, by simp⟩ (hlive r (by simp)) (by simp)
    obtain ⟨hup, hview⟩ := hpass
    have hsame : ∀ k, s.isLive k = true → ¬ (k ∈ [r] ∧ s.References v k) →
        (State.substituteAt v (s.payload v) s r).view k = s.view k := fun k hk hn => by rw [hview k hk, if_neg hn]
    have hpay : (State.substituteAt v (s.payload v) s r).payload v = s.payload v :=
      congrArg RowView.payload (hsame v hv fun h => h.2.1 rfl)
    have hrest : ∀ k ∈ l, (State.substituteAt v (s.payload v) s r).References v k →
        ¬ inRange x ((State.substituteAt v (s.payload v) s r).slot k).addr.toNat
          (State.substituteAt v (s.payload v) s r).symBytes := fun k hk href => by
      have hkr : ¬ (k ∈ [r] ∧ s.References v k) := fun h => hrl (List.mem_singleton.mp h.1 ▸ hk)
      rw [State.references_of_view_eq hup hv (hsame k (hlive k (by simp [hk])) hkr)] at href
      rw [hup.addr, hup.symBytes]
      exact hx k (by simp [hk]) href
    have hloop := ih hl (hup.boundsOk hb) (hup.buffersOk hbuf) ((hup.isLive v).trans hv)
      (fun k hk => (hup.isLive k).trans (hlive k (by simp [hk]))) hrest
    rw [hpay] at hloop
    exact hloop.trans (State.readByte_substituteAt (hx r (by simp)))

theorem State.readByte_backSubstitute (hb : s.BoundsOk) (hbuf : s.BuffersOk) {v x : Nat} (hv : s.isLive v = true)
    (hx : ∀ r, s.isLive r = true → s.References v r → ¬ inRange x (s.slot r).addr.toNat s.symBytes) :
    (s.backSubstitute v).mem.readByte x = s.mem.readByte x :=
  State.readByte_foldl_substituteAt s.live_nodup hb hbuf hv (fun r hr => (s.mem_live r).mp hr)
    fun r hr => hx r ((s.mem_live r).mp hr)

/-- Settles O41: each row by its view after the loop, and the bytes by what the loop stores. -/
theorem backSubstituteAddsTheNewRow : Obligations.BackSubstituteAddsTheNewRow := by
  intro s v hb hbuf hv _
  obtain ⟨hup, hview⟩ := State.backSubstitute_substituted hb hbuf hv
  have hadded : ∀ r, s.isLive r = true → s.References v r → (s.backSubstitute v).view r =
      (s.view r).plus s.field (s.view v) (s.coefOf r v) := fun r hr href => by
    rw [hview r hr, if_pos ⟨(s.mem_live r).mpr hr, href⟩]
  have hkept : ∀ r, s.isLive r = true → ¬ s.References v r → (s.backSubstitute v).view r = s.view r :=
    fun r hr href => by rw [hview r hr, if_neg fun h => href h.2]
  refine ⟨hup.eq, fun r j hr hj => ⟨fun href => ?_, fun href => ?_⟩, fun r hr => ⟨fun href => ?_, fun href => ?_⟩,
    fun x hx => State.readByte_backSubstitute hb hbuf hv hx⟩
  · rw [State.coefOf_of_row_eq hup hj (congrArg RowView.coefs (hadded r hr href)), ← State.stagedCoef_row s r hj,
      ← State.stagedCoef_row s v hj]
    exact State.stagedCoef_addMultiple _ (s.length_row r) (s.length_row v) hj
  · exact State.coefOf_of_view_eq hup hj (hkept r hr href)
  · exact ⟨congrArg RowView.payload (hadded r hr href), congrArg RowView.slot (hadded r hr href)⟩
  · exact ⟨congrArg RowView.payload (hkept r hr href), congrArg RowView.slot (hkept r hr href)⟩

/-! ### An insertion (R123, R125) -/

theorem State.readByte_insertRow (hb : s.BoundsOk) (hbuf : s.BuffersOk) {v x : Nat} {st : Staging}
    (hi : s.Insertable v st) (hnew : ¬ inRange x (s.slot v).addr.toNat s.symBytes)
    (hx : ∀ r, s.isLive r = true → s.References v r → ¬ inRange x (s.slot r).addr.toNat s.symBytes) :
    (s.insertRow v st).mem.readByte x = s.mem.readByte x := by
  have hstore := State.storeRow_update hbuf hi.live hi.payload_length
  have hstored : (s.storeRow v st).mem.readByte x = s.mem.readByte x := by
    rw [State.storeRow_eq_replaceRow]
    exact State.readByte_replaceRow _ hi.payload_length _ hnew
  rw [State.insertRow, ← hstored]
  refine State.readByte_backSubstitute (hstore.boundsOk hb) (hstore.buffersOk hbuf)
    ((hstore.isLive v).trans hi.live) fun r hr href => ?_
  rw [hstore.isLive] at hr
  have hview : (s.storeRow v st).view r = s.view r := by
    rw [State.view_storeRow hb hbuf hi.live hr hi.coefs_length hi.payload_length, if_neg href.1]
  rw [State.references_of_view_eq hstore hi.live hview] at href
  rw [hstore.addr, hstore.symBytes]
  exact hx r hr href

/-! ### `READ_SOURCE_SYMBOL` (R125) -/

theorem exec_readSourceSymbol_of_active (h : s.Active) : exec .readSourceSymbol s =
    if s.isLive s.a1.toNat = false then .next (s.raise .index 0x51 s.a1)
    else if s.rangeOK s.a0 s.symBytes = false then .next (s.raise .bus 0x51 s.a0)
    else if s.overlapsLive s.a0 s.symBytes = true then .refused .overlappingBuffers
    else .next (s.absorbSource s.a1.toNat (s.memRead s.a0 s.symBytes)) :=
  exec_of_active (i := .readSourceSymbol) h fun _ => rfl

/-- For a live index only the incoming buffer is left to test. -/
theorem exec_readSourceSymbol_of_live (h : s.Active) (hlive : s.isLive s.a1.toNat = true) :
    exec .readSourceSymbol s =
      if s.rangeOK s.a0 s.symBytes = false then .next (s.raise .bus 0x51 s.a0)
      else if s.overlapsLive s.a0 s.symBytes = true then .refused .overlappingBuffers
      else .next (s.absorbSource s.a1.toNat (s.memRead s.a0 s.symBytes)) := by
  rw [exec_readSourceSymbol_of_active h, if_neg (ne_false_of_eq_true hlive)]

/-- Past the index and range checks only the overlap is left to test. -/
theorem exec_readSourceSymbol_of_range (h : s.Active) (hlive : s.isLive s.a1.toNat = true)
    (hsym : s.rangeOK s.a0 s.symBytes = true) : exec .readSourceSymbol s =
      if s.overlapsLive s.a0 s.symBytes = true then .refused .overlappingBuffers
      else .next (s.absorbSource s.a1.toNat (s.memRead s.a0 s.symBytes)) := by
  rw [exec_readSourceSymbol_of_live h hlive, if_neg (ne_false_of_eq_true hsym)]

/-- A row after the unit row at `v` was inserted: its column `v` is cleared if it is stored, nothing else changes. -/
theorem State.RowsInv.coefOf_insertRow_unitRow (h : s.RowsInv) {v r j : Nat} {sp : List Byte}
    (hi : s.Insertable v ⟨s.unitRow v, sp, false⟩) (hr : s.isLive r = true) (hrv : r ≠ v) (hj : s.isLive j = true) :
    (s.insertRow v ⟨s.unitRow v, sp, false⟩).coefOf r j =
      if (s.slot r).piv = true ∧ j = v then 0 else s.coefOf r j := by
  rw [State.coefOf_insertRow_of_ne h.bounds h.buffers hi hr hrv hj, s.stagedCoef_unitRow v hj]
  have hfield : (s.coefOf r v).toNat < 2 ^ width s.field := h.rows.in_field _ _
  by_cases hp : (s.slot r).piv = true
  · by_cases hjv : j = v
    · rw [if_pos hp, if_pos hjv, if_pos ⟨hp, hjv⟩, gfMul_one hfield, hjv, gfAdd_self]
    · rw [if_pos hp, if_neg hjv, if_neg fun hc => hjv hc.2, gfMul_zero, gfAdd_zero]
  · rw [if_neg hp, if_neg fun hc => hp hc.1]

/-- Settles O46: each check by its equation, and past them the insertion of the unit row. -/
theorem readSourceSymbolChecksThenStoresTheUnitRow : Obligations.ReadSourceSymbolChecksThenStoresTheUnitRow := by
  refine ⟨guardedCommand_of_whenReady (i := .readSourceSymbol) fun _ => rfl, fun s h => ?_⟩
  dsimp only
  rw [← State.isLive_iff]
  refine ⟨fun hdead => (exec_readSourceSymbol_of_active h).trans (if_pos (eq_false_of_ne_true hdead)),
    fun hlive hsym => (exec_readSourceSymbol_of_live h hlive).trans (if_pos hsym),
    fun hlive hsym hover => (exec_readSourceSymbol_of_range h hlive hsym).trans (if_pos hover),
    fun hs hlive hsym hfree => ⟨s.absorbSource s.a1.toNat (s.memRead s.a0 s.symBytes),
      (exec_readSourceSymbol_of_range h hlive hsym).trans (if_neg (ne_true_of_eq_false hfree)), ?_⟩⟩
  have hb := hs.bounds
  have hbuf := hs.buffers
  have hi := State.unitRow_insertable hlive (length_memRead s s.a0 s.symBytes)
  have hup := State.insertRow_update hb hbuf hi.live hi.payload_length
  have hres : BitVec.ofNat 64 s.a1.toNat = s.a1 := BitVec.ofNat_toNat 64 s.a1
  rw [State.absorbSource_eq_insertRow, hres]
  refine ⟨?frame, State.slot_insertRow_self hb hbuf hi, State.payload_insertRow_self hb hbuf hi,
    fun j hj => (State.coefOf_insertRow_self hb hbuf hi hj).trans (s.stagedCoef_unitRow _ hj),
    fun r hr hrv => ⟨State.slot_insertRow_of_ne hb hbuf hi hr hrv,
      fun j hj => hs.rowsInv.coefOf_insertRow_unitRow hi hr hrv hj,
      fun href => (State.payload_insertRow_of_ne hb hbuf hi hr hrv).trans (if_pos href),
      fun href => (State.payload_insertRow_of_ne hb hbuf hi hr hrv).trans (if_neg href)⟩,
    fun x hnew hx => State.readByte_insertRow hb hbuf hi hnew hx⟩
  case frame =>
    rw [hup.eq]

end Sys2Proof.Machine
end

section
/-! The reduction of an incoming row in closed form (R123 (b)). A stored row is 0 at the pivot columns of the others
(R28 (d)), so the coefficient that the loop finds at a pivot column is the one that came in, and the loop computes the
sums of `reducedCoef` and `reducedPayload`. -/

namespace Sys2Proof.Machine

variable {s : State}

/-! ### The sums over some of the live rows -/

/-- The live indices of `l` that have a stored row. -/
def State.pivotsIn (s : State) (l : List Nat) : List Nat := l.filter fun i => (s.slot i).piv

/-- The sum of R123 (b) over the stored rows in `l`. -/
def State.partialCoef (s : State) (cv : List Byte) (l : List Nat) (j : Nat) : Elem :=
  (s.pivotsIn l).foldl (fun acc i => gfAdd acc (gfMul s.field (s.incoming cv i) (s.coefOf i j))) (s.incoming cv j)

/-- The payload that goes with `partialCoef`. -/
def State.partialPayload (s : State) (cv sp : List Byte) (l : List Nat) : List Byte :=
  (s.pivotsIn l).foldl (fun acc i => vecMAdd s.field acc (s.payload i) (s.incoming cv i)) sp

theorem State.partialCoef_live (s : State) (cv : List Byte) : s.partialCoef cv s.live = s.reducedCoef cv := rfl

theorem State.partialPayload_live (s : State) (cv sp : List Byte) :
    s.partialPayload cv sp s.live = s.reducedPayload cv sp := rfl

section
variable (cv sp : List Byte) (l : List Nat) {i : Nat}

theorem State.pivotsIn_append_of_pivot (hp : (s.slot i).piv = true) :
    s.pivotsIn (l ++ [i]) = s.pivotsIn l ++ [i] := by simp [State.pivotsIn, hp]

theorem State.pivotsIn_append_of_missing (hp : ¬ (s.slot i).piv = true) :
    s.pivotsIn (l ++ [i]) = s.pivotsIn l := by simp [State.pivotsIn, hp]

theorem State.partialCoef_append_of_pivot (hp : (s.slot i).piv = true) (j : Nat) :
    s.partialCoef cv (l ++ [i]) j =
      gfAdd (s.partialCoef cv l j) (gfMul s.field (s.incoming cv i) (s.coefOf i j)) := by
  rw [State.partialCoef, State.pivotsIn_append_of_pivot l hp, List.foldl_append]
  rfl

theorem State.partialPayload_append_of_pivot (hp : (s.slot i).piv = true) :
    s.partialPayload cv sp (l ++ [i]) =
      vecMAdd s.field (s.partialPayload cv sp l) (s.payload i) (s.incoming cv i) := by
  rw [State.partialPayload, State.pivotsIn_append_of_pivot l hp, List.foldl_append]
  rfl

theorem State.partialCoef_append_of_missing (hp : ¬ (s.slot i).piv = true) (j : Nat) :
    s.partialCoef cv (l ++ [i]) j = s.partialCoef cv l j := by
  rw [State.partialCoef, State.pivotsIn_append_of_missing l hp, State.partialCoef]

theorem State.partialPayload_append_of_missing (hp : ¬ (s.slot i).piv = true) :
    s.partialPayload cv sp (l ++ [i]) = s.partialPayload cv sp l := by
  rw [State.partialPayload, State.pivotsIn_append_of_missing l hp, State.partialPayload]

end

/-- At a pivot column that is still to come the sum is what came in: the other stored rows are 0 there. -/
theorem State.partialCoef_of_pivot (hs : s.RowsOk) (cv : List Byte) {l : List Nat}
    (hl : ∀ k ∈ l, s.isLive k = true) {i : Nat} (hi : s.isLive i = true) (hp : (s.slot i).piv = true) (hil : i ∉ l) :
    s.partialCoef cv l i = s.incoming cv i := by
  induction l using List.reverseRecOn with
  | nil => rfl
  | append_singleton l k ih =>
    have hik : i ≠ k := fun h => hil (by simp [h])
    have hrest := ih (fun r hr => hl r (by simp [hr])) fun h => hil (by simp [h])
    by_cases hpk : (s.slot k).piv = true
    · rw [State.partialCoef_append_of_pivot cv l hpk, hrest, hs.reduced i k hi (hl k (by simp)) hik hp hpk,
        gfMul_zero, gfAdd_zero]
    · rw [State.partialCoef_append_of_missing cv l hpk, hrest]

/-! ### The loop of R123 -/

/-- The staging row holds the sums over the stored rows in `l`. -/
structure State.Sums (s : State) (cv sp : List Byte) (l : List Nat) (st : Staging) : Prop where
  coefs : ∀ j, s.isLive j = true → s.stagedCoef st.coefs j = s.partialCoef cv l j
  payload : st.payload = s.partialPayload cv sp l

/-- One pass adds the term of its row; where it skips a stored row the term is 0. -/
theorem State.Sums.step (hs : s.RowsOk) (hwhole : WholeElems s.field s.symBytes) {cv sp : List Byte} {l : List Nat}
    {st : Staging} (hred : s.ReducedAt l st) (h : s.Sums cv sp l st) (hl : ∀ k ∈ l, s.isLive k = true) {i : Nat}
    (hi : s.isLive i = true) (hil : i ∉ l) : s.Sums cv sp (l ++ [i]) (s.reduceAt st i) := by
  by_cases hp : (s.slot i).piv = true
  case neg =>
    rw [State.reduceAt_of_neg fun hc => hp hc.1]
    refine ⟨fun j hj => ?_, ?_⟩
    · rw [State.partialCoef_append_of_missing cv l hp, h.coefs j hj]
    · rw [State.partialPayload_append_of_missing cv sp l hp, h.payload]
  case pos =>
    have hfactor : s.stagedCoef st.coefs i = s.incoming cv i :=
      (h.coefs i hi).trans (State.partialCoef_of_pivot hs cv hl hi hp hil)
    by_cases hzero : s.stagedCoef st.coefs i = 0
    · have hlen : st.payload.length = (s.payload i).length := hred.payload_length.trans (length_payload s i).symm
      rw [State.reduceAt_of_neg fun hc => hc.2 hzero]
      refine ⟨fun j hj => ?_, ?_⟩
      · rw [State.partialCoef_append_of_pivot cv l hp, ← hfactor, hzero, zero_gfMul, gfAdd_zero, h.coefs j hj]
      · rw [State.partialPayload_append_of_pivot cv sp l hp, ← hfactor, hzero, ← h.payload,
          vecMAdd_zero hlen (hred.payload_length ▸ hwhole)]
    · rw [State.reduceAt_of_pos ⟨hp, hzero⟩]
      refine ⟨fun j hj => ?_, ?_⟩
      · rw [State.partialCoef_append_of_pivot cv l hp, ← hfactor, ← h.coefs j hj, ← State.stagedCoef_row s i hj]
        exact State.stagedCoef_addMultiple _ hred.coefs_length (s.length_row i) hj
      · rw [State.partialPayload_append_of_pivot cv sp l hp, ← hfactor, ← h.payload]

/-- The loop over some of the live rows computes the sums over them. -/
theorem State.sums_foldl (hs : s.RowsOk) (hwhole : WholeElems s.field s.symBytes) (cv : List Byte) {sp : List Byte}
    (hsp : sp.length = s.symBytes) {l : List Nat} (hnodup : l.Nodup) (hl : ∀ k ∈ l, s.isLive k = true) :
    s.Sums cv sp l (l.foldl s.reduceAt (s.loadStaging cv sp)) := by
  induction l using List.reverseRecOn with
  | nil => exact ⟨fun _ hj => s.stagedCoef_map _ hj, rfl⟩
  | append_singleton l i ih =>
    obtain ⟨hnodup, -, hdisj⟩ := List.nodup_append.mp hnodup
    have hl' : ∀ k ∈ l, s.isLive k = true := fun k hk => hl k (by simp [hk])
    rw [List.foldl_append, List.foldl_cons, List.foldl_nil]
    exact (ih hnodup hl').step hs hwhole ((s.loadStaging_reducedAt cv hsp).foldl hs hl') hl' (hl i (by simp))
      fun hil => hdisj i hil i (by simp) rfl

/-- The reduced row is the closed form of R123 (b). -/
theorem State.RowsInv.reducedInput_sums (h : s.RowsInv) (hwhole : WholeElems s.field s.symBytes) (cv : List Byte)
    {sp : List Byte} (hsp : sp.length = s.symBytes) : s.Sums cv sp s.live (s.reducedInput cv sp) :=
  State.sums_foldl h.rows hwhole cv hsp s.live_nodup fun k hk => (s.mem_live k).mp hk

/-! ### The pivot and the row that is inserted -/

theorem State.pivotOf_eq_none_iff (st : Staging) :
    s.pivotOf st = none ↔ ∀ j, s.isLive j = true → s.stagedCoef st.coefs j = 0 := by
  simp only [State.pivotOf, List.find?_eq_none, State.mem_live, decide_eq_true_eq, not_not]

/-- The lowest live column with a nonzero coefficient is the pivot. -/
theorem State.pivotOf_eq_some_of {st : Staging} {v : Nat} (hv : s.isLive v = true) (hne : s.stagedCoef st.coefs v ≠ 0)
    (hbelow : ∀ j, s.isLive j = true → j < v → s.stagedCoef st.coefs j = 0) : s.pivotOf st = some v := by
  cases hpivot : s.pivotOf st with
  | none => exact absurd ((State.pivotOf_eq_none_iff st).mp hpivot v hv) hne
  | some w =>
    obtain ⟨hw, hnew, hbelow'⟩ := State.pivotOf_eq_some hpivot
    rcases Nat.lt_trichotomy w v with hlt | rfl | hlt
    · exact absurd (hbelow w hw hlt) hnew
    · rfl
    · exact absurd (hbelow' v hv hlt) hne

/-- The row that `READ_SYMBOL` stores at its pivot `v` (R123). -/
def State.newRow (s : State) (cv sp : List Byte) (v : Nat) : Staging := s.normalise (s.reducedInput cv sp) v

section
variable (h : s.RowsInv) (hwhole : WholeElems s.field s.symBytes) {cv sp : List Byte} (hsp : sp.length = s.symBytes)
include h hwhole hsp

theorem State.RowsInv.absorb_of_zero (hzero : ∀ j, s.isLive j = true → s.reducedCoef cv j = 0) :
    s.absorb cv sp = { s with adv := false, res := 0 } := by
  have hsums := h.reducedInput_sums hwhole cv hsp
  rcases s.absorb_cases cv sp with ⟨-, he⟩ | ⟨v, hv, -⟩
  · exact he
  · obtain ⟨hlive, hne, -⟩ := State.pivotOf_eq_some hv
    exact absurd ((hsums.coefs v hlive).trans (hzero v hlive)) hne

section
variable {v : Nat} (hv : s.isLive v = true)
include hv

theorem State.RowsInv.stagedCoef_newRow {j : Nat} (hj : s.isLive j = true) :
    s.stagedCoef (s.newRow cv sp v).coefs j =
      gfMul s.field (gfInv s.field (s.reducedCoef cv v)) (s.reducedCoef cv j) := by
  have hsums := h.reducedInput_sums hwhole cv hsp
  rw [← State.partialCoef_live, ← hsums.coefs v hv, ← hsums.coefs j hj]
  exact s.stagedCoef_map_gfMul _ _ _

theorem State.RowsInv.payload_newRow : (s.newRow cv sp v).payload =
    vecScale s.field (s.reducedPayload cv sp) (gfInv s.field (s.reducedCoef cv v)) := by
  have hsums := h.reducedInput_sums hwhole cv hsp
  rw [← State.partialCoef_live, ← State.partialPayload_live, ← hsums.coefs v hv, ← hsums.payload]
  rfl

variable (hne : s.reducedCoef cv v ≠ 0)
include hne

/-- The pivot's column had no stored row (R123). -/
theorem State.RowsInv.piv_of_reducedCoef : (s.slot v).piv = false :=
  (h.reducedInput cv hsp).piv_pivot hv fun hzero =>
    hne (((h.reducedInput_sums hwhole cv hsp).coefs v hv).symm.trans hzero)

variable (hbelow : ∀ j, s.isLive j = true → j < v → s.reducedCoef cv j = 0)
include hbelow

theorem State.RowsInv.pivotOf_reducedInput : s.pivotOf (s.reducedInput cv sp) = some v := by
  have hsums := (h.reducedInput_sums hwhole cv hsp).coefs
  exact State.pivotOf_eq_some_of hv (fun hzero => hne ((hsums v hv).symm.trans hzero))
    fun j hj hjv => (hsums j hj).trans (hbelow j hj hjv)

theorem State.RowsInv.newRow_insertable : s.Insertable v (s.newRow cv sp v) :=
  State.normalise_insertable (h.reducedInput cv hsp) (h.pivotOf_reducedInput hwhole hsp hv hne hbelow)

theorem State.RowsInv.absorb_of_pivot :
    s.absorb cv sp = { s.insertRow v (s.newRow cv sp v) with adv := true, res := BitVec.ofNat 64 v } := by
  have hpivot := h.pivotOf_reducedInput hwhole hsp hv hne hbelow
  rcases s.absorb_cases cv sp with ⟨hnone, -⟩ | ⟨w, hw, he⟩
  · exact absurd (hpivot.symm.trans hnone) (Option.some_ne_none v)
  · obtain rfl : v = w := Option.some.inj (hpivot.symm.trans hw)
    exact he

end

end

end Sys2Proof.Machine
end

section
/-! `READ_SYMBOL` (R123): each check under the checks before it, and what a completed command leaves of the rows, of
memory and of its two incoming buffers (R46, U4). -/

namespace Sys2Proof.Machine

variable {s t : State}

/-! ### The checks -/

theorem exec_readSymbol_of_active (h : s.Active) : exec .readSymbol s =
    if s.windowOK = false then .next (s.raise .window 0x50 s.wlower)
    else if s.rangeOK s.a0 s.symBytes = false then .next (s.raise .bus 0x50 s.a0)
    else if s.rangeOK s.a1 s.vectorBytes = false then .next (s.raise .bus 0x50 s.a1)
    else if s.overlapsLive s.a0 s.symBytes = true ∨ s.overlapsLive s.a1 s.vectorBytes = true ∨
        overlap s.a0.toNat s.symBytes s.a1.toNat s.vectorBytes = true then .refused .overlappingBuffers
    else .next s.afterRead :=
  exec_of_active (i := .readSymbol) h fun _ => rfl

/-- In a legal window only the two buffers are left to test. -/
theorem exec_readSymbol_of_window (h : s.Active) (hwindow : s.windowOK = true) : exec .readSymbol s =
    if s.rangeOK s.a0 s.symBytes = false then .next (s.raise .bus 0x50 s.a0)
    else if s.rangeOK s.a1 s.vectorBytes = false then .next (s.raise .bus 0x50 s.a1)
    else if s.overlapsLive s.a0 s.symBytes = true ∨ s.overlapsLive s.a1 s.vectorBytes = true ∨
        overlap s.a0.toNat s.symBytes s.a1.toNat s.vectorBytes = true then .refused .overlappingBuffers
    else .next s.afterRead := by
  rw [exec_readSymbol_of_active h, if_neg (ne_false_of_eq_true hwindow)]

/-- Past the window and range checks only the overlaps are left to test. -/
theorem exec_readSymbol_of_ranges (h : s.Active) (hwindow : s.windowOK = true)
    (hsym : s.rangeOK s.a0 s.symBytes = true) (hvec : s.rangeOK s.a1 s.vectorBytes = true) : exec .readSymbol s =
    if s.overlapsLive s.a0 s.symBytes = true ∨ s.overlapsLive s.a1 s.vectorBytes = true ∨
        overlap s.a0.toNat s.symBytes s.a1.toNat s.vectorBytes = true then .refused .overlappingBuffers
    else .next s.afterRead := by
  rw [exec_readSymbol_of_window h hwindow, if_neg (ne_false_of_eq_true hsym), if_neg (ne_false_of_eq_true hvec)]

theorem State.afterRead_fault (s : State) : s.afterRead.fault = s.fault := by rw [State.afterRead_eq]

/-- Settles O42: each check by its equation; what follows them sets no fault. -/
theorem readSymbolChecksThenCompletes : Obligations.ReadSymbolChecksThenCompletes := by
  refine ⟨guardedCommand_of_whenReady (i := .readSymbol) fun _ => rfl, fun s h =>
    ⟨fun hwindow => (exec_readSymbol_of_active h).trans (if_pos hwindow),
      fun hwindow hsym => (exec_readSymbol_of_window h hwindow).trans (if_pos hsym),
      ?badVector, fun hwindow hsym hvec =>
        have hbody := exec_readSymbol_of_ranges h hwindow hsym hvec
        ⟨fun hover => hbody.trans (if_pos hover), fun hsymFree hvecFree hapart =>
          ⟨s.afterRead, hbody.trans (if_neg ?noOverlap), s.afterRead_fault.trans h.1⟩⟩⟩⟩
  case badVector =>
    intro hwindow hsym hvec
    exact (exec_readSymbol_of_window h hwindow).trans ((if_neg (ne_false_of_eq_true hsym)).trans (if_pos hvec))
  case noOverlap =>
    exact not_or.mpr ⟨ne_true_of_eq_false hsymFree,
      not_or.mpr ⟨ne_true_of_eq_false hvecFree, ne_true_of_eq_false hapart⟩⟩

/-! ### The rows (R123 (b)) -/

/-- Settles O43: the reduced row is the closed form; the rest is its insertion at its lowest nonzero column. -/
theorem readSymbolEliminatesTheIncomingRow : Obligations.ReadSymbolEliminatesTheIncomingRow := by
  intro s t hs hactive hexec ht
  have h := hs.rowsInv
  have hwhole := hs.config.wholeElems hactive.2
  have hsp := length_memRead s s.a0 s.symBytes
  have hread := readsSymbol_of_exec hactive ht hexec
  obtain rfl := hread.eq
  refine ⟨s.afterRead_eq, fun hzero => ?dropped, fun v hv hne hbelow => ?inserted⟩
  case dropped =>
    obtain ⟨hsame, hadv, hres⟩ := State.afterRead_sameRows (h.absorb_of_zero hwhole hsp hzero)
    exact ⟨hadv, hres, hsame.slots, hsame.coef⟩
  case inserted =>
    obtain ⟨hsame, hadv, hres⟩ := State.afterRead_sameRows (h.absorb_of_pivot hwhole hsp hv hne hbelow)
    have hi := h.newRow_insertable hwhole hsp hv hne hbelow
    have hnew : ∀ j, s.isLive j = true → s.afterRead.coefOf v j = _ := fun j hj =>
      (hsame.coefOf v j).trans (State.coefOf_insertRow_self h.bounds h.buffers hi hj)
    refine ⟨hadv, ?_, h.piv_of_reducedCoef hwhole hsp hv hne,
      (hsame.slot v).trans (State.slot_insertRow_self h.bounds h.buffers hi),
      fun r hr hrv => (hsame.slot r).trans (State.slot_insertRow_of_ne h.bounds h.buffers hi hr hrv),
      fun j hj => (hnew j hj).trans (h.stagedCoef_newRow hwhole hsp hv hj), fun r j hr hj hrv => ?_⟩
    · have hlt := ((s.isLive_iff v).mp hv).2.trans s.upper.isLt
      rw [hres, BitVec.toNat_ofNat, Nat.mod_eq_of_lt hlt]
    · rw [hnew j hj, hsame.coefOf]
      exact State.coefOf_insertRow_of_ne h.bounds h.buffers hi hr hrv hj

/-! ### Memory -/

/-- Outside the incoming buffers memory is what the effect on the rows left (U4). -/
theorem State.readByte_afterRead {u : State} {adv : Bool} {res : Word} {x : Nat}
    (he : s.absorb (s.memRead s.a1 s.vectorBytes) (s.memRead s.a0 s.symBytes) = { u with adv := adv, res := res })
    (hsym : ¬ inRange x s.a0.toNat s.symBytes) (hvec : ¬ inRange x s.a1.toNat s.vectorBytes) :
    s.afterRead.mem.readByte x = u.mem.readByte x := by
  rw [State.afterRead, State.memForget_mem, Memory.readByte_forgetBytes, if_neg hvec, State.memForget_mem,
    Memory.readByte_forgetBytes, if_neg hsym, he]

/-- The incoming buffers are no live slot's, so the payloads are those of the rows (R47). -/
theorem State.payload_afterRead {u : State} {adv : Bool} {res : Word} (hup : s.RowUpdate u)
    (he : s.absorb (s.memRead s.a1 s.vectorBytes) (s.memRead s.a0 s.symBytes) = { u with adv := adv, res := res })
    (hsym : s.overlapsLive s.a0 s.symBytes = false) (hvec : s.overlapsLive s.a1 s.vectorBytes = false) {k : Nat}
    (hk : s.isLive k = true) : s.afterRead.payload k = u.payload k := by
  have hlive : u.isLive k = true := (hup.isLive k).trans hk
  have hsym' : u.overlapsLive s.a0 s.symBytes = false := (hup.overlapsLive _ _).trans hsym
  have hvec' : u.overlapsLive s.a1 s.vectorBytes = false := (hup.overlapsLive _ _).trans hvec
  rw [State.afterRead, he]
  exact (State.payload_memForget_of_free (s := State.memForget _ s.a0 s.symBytes) hvec' hlive).trans
    (State.payload_memForget_of_free (s := { u with adv := adv, res := res }) hsym' hlive)

/-- Settles O44: the payloads of the insertion, which the incoming buffers do not overlap, and its frame. -/
theorem readSymbolUpdatesThePayloads : Obligations.ReadSymbolUpdatesThePayloads := by
  intro s t hs hactive hexec ht
  have h := hs.rowsInv
  have hwhole := hs.config.wholeElems hactive.2
  have hsp := length_memRead s s.a0 s.symBytes
  have hread := readsSymbol_of_exec hactive ht hexec
  obtain rfl := hread.eq
  refine ⟨fun hzero x hx => ?dropped, fun v hv hne hbelow => ?inserted⟩
  case dropped => exact State.readByte_afterRead (h.absorb_of_zero hwhole hsp hzero) hx.1 hx.2
  case inserted =>
    have he := h.absorb_of_pivot hwhole hsp hv hne hbelow
    have hi := h.newRow_insertable hwhole hsp hv hne hbelow
    have hup := State.insertRow_update h.bounds h.buffers hi.live hi.payload_length
    have hpay := fun k (hk : s.isLive k = true) =>
      State.payload_afterRead hup he hread.symbol_free hread.vector_free hk
    have hnew := State.payload_insertRow_self h.bounds h.buffers hi
    refine ⟨(hpay v hv).trans (hnew.trans (h.payload_newRow hwhole hsp hv)), fun r hr hrv hp => ?_,
      fun x hx hxv hxr => (State.readByte_afterRead he hx.1 hx.2).trans
        (State.readByte_insertRow h.bounds h.buffers hi hxv fun r hr href => hxr r hr href.2.1 href.2.2)⟩
    rw [hpay r hr, hpay v hv, hnew, State.payload_insertRow_of_ne h.bounds h.buffers hi hr hrv]
    by_cases hzero : s.coefOf r v = 0
    · have hlen := (length_payload s r).trans hi.payload_length.symm
      rw [if_neg fun href => href.2.2 hzero, hzero, vecMAdd_zero hlen (length_payload s r ▸ hwhole)]
    · rw [if_pos ⟨hrv, hp, hzero⟩]

/-! ### The incoming buffers (U4) -/

/-- The free values in memory are numbered below `n`, each byte with a number of its own. -/
structure Memory.Numbered (m : Memory) (n : Nat) : Prop where
  used : ∀ e ∈ m.scratch, e.2 < n
  distinct : ∀ e ∈ m.scratch, ∀ e' ∈ m.scratch, e.2 = e'.2 → e = e'

theorem Memory.Numbered.of_subset {m m' : Memory} {n : Nat} (h : m.Numbered n)
    (hsub : ∀ e ∈ m'.scratch, e ∈ m.scratch) : m'.Numbered n :=
  ⟨fun e he => h.used e (hsub e he), fun e he e' he' => h.distinct e (hsub e he) e' (hsub e' he')⟩

/-- Bytes forgotten from number `n` on get the next numbers. -/
theorem Memory.Numbered.forgetBytes {m : Memory} {n : Nat} (h : m.Numbered n) (a k : Nat) :
    (m.forgetBytes a n k).Numbered (n + k) where
  used e he := by
    rcases Memory.mem_scratch_forgetBytes he with he | ⟨j, hj, rfl⟩
    · exact Nat.lt_add_right k (h.used e he)
    · exact Nat.add_lt_add_left hj n
  distinct e he e' he' heq := by
    rcases Memory.mem_scratch_forgetBytes he with he | ⟨j, -, rfl⟩ <;>
      rcases Memory.mem_scratch_forgetBytes he' with he' | ⟨j', -, rfl⟩
    · exact h.distinct e he e' he' heq
    · exact absurd (h.used e he) (heq ▸ Nat.not_lt.mpr (Nat.le_add_right n j'))
    · exact absurd (h.used e' he') (heq ▸ Nat.not_lt.mpr (Nat.le_add_right n j))
    · rw [Nat.add_left_cancel heq]

/-- A row operation writes bytes and forgets none, so it numbers no free value. -/
theorem State.mem_scratch_substituteAt {v r : Nat} {p : List Byte} {e : Nat × Nat}
    (h : e ∈ (State.substituteAt v p s r).mem.scratch) : e ∈ s.mem.scratch := by
  by_cases href : s.References v r
  · rw [State.substituteAt_of_references href, State.replaceRow_eq] at h
    exact Memory.mem_scratch_writeBytes h
  · rwa [State.substituteAt_of_not_references href] at h

theorem State.mem_scratch_backSubstitute {v : Nat} {e : Nat × Nat} (h : e ∈ (s.backSubstitute v).mem.scratch) :
    e ∈ s.mem.scratch := by
  have hloop : ∀ (l : List Nat) (u : State) (p : List Byte),
      e ∈ (l.foldl (State.substituteAt v p) u).mem.scratch → e ∈ u.mem.scratch := by
    intro l
    induction l with
    | nil => exact fun _ _ he => he
    | cons r l ih => exact fun u p he => State.mem_scratch_substituteAt (ih _ p he)
  exact hloop s.live s (s.payload v) h

theorem State.mem_scratch_absorb {cv sp : List Byte} {e : Nat × Nat} (h : e ∈ (s.absorb cv sp).mem.scratch) :
    e ∈ s.mem.scratch := by
  rcases s.absorb_cases cv sp with ⟨-, he⟩ | ⟨v, -, he⟩
  · rwa [he] at h
  · rw [he, State.insertRow] at h
    have hstored := State.mem_scratch_backSubstitute h
    rw [State.storeRow_eq_replaceRow, State.replaceRow_eq] at hstored
    exact Memory.mem_scratch_writeBytes hstored

theorem State.freeNext_absorb (s : State) (cv sp : List Byte) : (s.absorb cv sp).freeNext = s.freeNext := by
  rw [State.absorb_eq]

/-- Memory after a completed `READ_SYMBOL`: the two buffers are numbered one after the other. -/
theorem State.afterRead_mem (s : State) : s.afterRead.mem =
    ((s.absorb (s.memRead s.a1 s.vectorBytes) (s.memRead s.a0 s.symBytes)).mem.forgetBytes s.a0.toNat s.freeNext
      s.symBytes).forgetBytes s.a1.toNat (s.freeNext + s.symBytes) s.vectorBytes := by
  rw [State.afterRead, State.memForget_mem, State.memForget_mem, State.memForget_freeNext, State.freeNext_absorb]

/-- Settles O45: the numbers are handed out in order from `freeNext` on, to disjoint buffers. -/
theorem readSymbolForgetsTheIncomingBuffers : Obligations.ReadSymbolForgetsTheIncomingBuffers := by
  intro s t hactive hexec ht
  have hread := readsSymbol_of_exec hactive ht hexec
  obtain rfl := hread.eq
  have hapart := hread.apart
  rw [← Bool.not_eq_true, overlap_iff] at hapart
  refine ⟨?freeNext, fun k hk => ?symbol, fun k hk => ?vector, fun hm => ⟨hm.scratch_used, ?distinct⟩⟩
  case freeNext =>
    rw [State.afterRead, State.memForget_freeNext, State.memForget_freeNext, State.freeNext_absorb]
  case symbol =>
    rw [State.afterRead_mem, Memory.readByte_forgetBytes, if_neg (by omega), Memory.readByte_forgetBytes,
      if_pos (by omega), Nat.add_sub_cancel_left]
  case vector =>
    rw [State.afterRead_mem, Memory.readByte_forgetBytes, if_pos (by omega), Nat.add_sub_cancel_left]
  case distinct =>
    have hold : s.mem.Numbered s.freeNext := ⟨hm.scratch_used, hm.scratch_distinct⟩
    have habsorb := hold.of_subset fun _ he =>
      State.mem_scratch_absorb (cv := s.memRead s.a1 s.vectorBytes) (sp := s.memRead s.a0 s.symBytes) he
    rw [State.afterRead_mem]
    exact ((habsorb.forgetBytes _ _).forgetBytes _ _).distinct

end Sys2Proof.Machine
end

section
/-! The fault state (R143 to R145): a command either raises its fault or has its effect, never both; a unit in the fault
state ignores every command word but that of `RESET`; so only the two resets lead out of it. -/

namespace Sys2Proof.Machine

variable {s t : State}

/-! ### Entering the fault state (R143) -/

/-- A command that completes does not end in a fault: `RESET` clears `FAULT`, and no other effect writes it. -/
theorem Completes.no_fault {i : Instr} (h : Completes s i t) (hfault : s.fault = false) : t.fault = false := by
  cases h with
  | reset => rfl
  | pop => rw [State.dropLowest_eq]; exact hfault
  | readSymbol => exact s.afterRead_fault.trans hfault
  | readSourceSymbol => rw [State.absorbSource_eq]; exact hfault
  | _ => exact hfault

/-- Settles O56: of the outcomes of a command, fault entry is the one that leads into the fault state. -/
theorem faultsArePrecise : Obligations.FaultsArePrecise := by
  refine ⟨fun _ _ _ _ => rfl, fun i s t hfault hexec ht => ?_⟩
  rcases exec_outcomes hexec with rfl | ⟨c, info, hc, -, rfl⟩ | hdone
  · exact absurd (ht.symm.trans hfault) (by decide)
  · exact ⟨rfl, hc⟩
  · exact absurd (ht.symm.trans (hdone.no_fault hfault)) (by decide)

/-! ### Staying in the fault state (R144) -/

/-- R52 for every command that needs the ready state. -/
theorem guardedCommand_encode {i : Instr} (hi : i ∉ [Instr.nop, .reset, .config]) :
    GuardedCommand i (encode i) := by
  cases i with
  | nop | reset | config => exact absurd (by decide) hi
  | _ => exact guardedCommand_of_whenReady fun _ => rfl

/-- `NOP` changes nothing anyway; each of the others but `RESET` stands behind a guard. -/
theorem exec_of_fault {i : Instr} (hi : i ≠ .reset) (hfault : s.fault = true) : exec i s = .next s := by
  by_cases hguarded : i ∈ [Instr.nop, .reset, .config]
  · cases i with
    | nop => rfl
    | config => exact execConfig_of_fault hfault
    | reset => exact absurd rfl hi
    | _ => exact absurd hguarded (by decide)
  · obtain ⟨-, hignored, -⟩ := guardedCommand_encode hguarded
    exact hignored s hfault

/-- In the fault state a word is ignored whether it decodes or not. -/
theorem issue_of_fault {cw : CommandWord} (hcw : cw ≠ encode .reset) (hfault : s.fault = true) :
    issue cw s = .next s := by
  cases hdec : decode cw with
  | ok i =>
    have hi : i ≠ .reset := fun h => hcw (h ▸ decode_eq_ok_iff.mp hdec)
    rw [issue_of_decode hdec, exec_of_fault hi hfault]
  | error e =>
    rw [issue, hdec]
    exact State.unlessFault_of_fault _ hfault

/-- Settles O6: the word is ignored when it is issued; the register accesses are those of every unit state (R20). -/
theorem faultStateIgnoresCommands : Obligations.FaultStateIgnoresCommands := by
  intro s v rest hfault
  obtain ⟨-, -, -, ha0, ha1, ha2, ha3⟩ := registerAccessRules s rest 0x00 v
  refine ⟨fun hprog hword => ?command, ha0, ha1, ha2, ha3, fun offset hprog hmod hlt => ?read⟩
  case command =>
    rw [step_of_program_cons hprog, hostAct_writeReg_cmd]
    exact issue_of_fault hword hfault
  case read =>
    obtain ⟨-, hread, -⟩ := registerAccessRules s rest offset v
    exact hread hmod hlt hprog

/-! ### Leaving the fault state (R145, R160) -/

/-- The host actions that reset the unit: the hardware reset, and a `CMD` write of the word of `RESET`. -/
def IsResetAction (a : HostAction) : Prop :=
  a = .hardReset ∨ ∃ v : Word, a = .writeReg 0x00 v ∧ (v.setWidth 32 : CommandWord) = encode .reset

theorem hostAct_of_isResetAction {a : HostAction} (h : IsResetAction a) (s : State) :
    hostAct s a = .next s.toReset := by
  rcases h with rfl | ⟨v, rfl, hword⟩
  · rfl
  · rw [hostAct_writeReg_cmd, issue_of_decode (decode_eq_ok_iff.mpr hword)]
    rfl

theorem State.writeReg_fault (s : State) (r : Reg) (v : Word) : (s.writeReg r v).fault = s.fault := by
  obtain ⟨a, b, c, d, he⟩ := s.writeReg_eq r v
  rw [he]

/-- Any other action of the host leaves the unit in the fault state. -/
theorem hostAct_keeps_fault {a : HostAction} (ha : ¬ IsResetAction a) (hfault : s.fault = true)
    (h : hostAct s a = .next t) : t.fault = true := by
  cases a with
  | writeReg offset v =>
    rcases State.hostWriteReg_next h with ⟨-, ⟨hcmd, hissue⟩ | rfl | ⟨r, -, rfl⟩⟩
    · obtain rfl : 0x00 = offset := offset_of_regAt hcmd
      have hword : (v.setWidth 32 : CommandWord) ≠ encode .reset := fun hw => ha (.inr ⟨v, rfl, hw⟩)
      rw [issue_of_fault hword hfault] at hissue
      exact Host.Outcome.next.inj hissue ▸ hfault
    · exact hfault
    · exact (s.writeReg_fault r v).trans hfault
  | readReg offset =>
    obtain ⟨-, rfl⟩ := State.hostReadReg_next.mp h
    exact hfault
  | memWrite addr bs =>
    obtain ⟨-, rfl⟩ := State.hostMemWrite_next.mp h
    exact hfault
  | memRead addr n =>
    obtain ⟨-, rfl⟩ := State.hostMemRead_next.mp h
    exact hfault
  | hardReset => exact absurd (.inl rfl) ha

theorem step_of_isResetAction {a : HostAction} {rest : List HostAction} (ha : IsResetAction a)
    (hprog : s.program = a :: rest) : step s = .next ({ s with program := rest } : State).toReset := by
  rw [step_of_program_cons hprog, hostAct_of_isResetAction ha]

/-- A step that leads out of the fault state performs one of the two resets. -/
theorem isResetAction_of_step (hfault : s.fault = true) (h : step s = .next t) (ht : t.fault = false) :
    ∃ a rest, s.program = a :: rest ∧ IsResetAction a := by
  rcases step_next h with ⟨-, rfl⟩ | ⟨a, rest, hprog, hact⟩
  · exact absurd (hfault.symm.trans ht) (by decide)
  · refine ⟨a, rest, hprog, by_contra fun ha => ?_⟩
    exact absurd ((hostAct_keeps_fault (s := { s with program := rest }) ha hfault hact).symm.trans ht) (by decide)

/-- Settles O7: the action that leads out is one of the two resets, and both have the effect of `toReset`. -/
theorem onlyResetLeavesTheFaultState : Obligations.OnlyResetLeavesTheFaultState := by
  refine ⟨fun s t hfault hstep ht => ?wayOut, fun _ _ hprog => step_of_isResetAction (.inl rfl) hprog,
    fun _ _ v hprog hword => step_of_isResetAction (.inr ⟨v, rfl, hword⟩) hprog⟩
  case wayOut =>
    obtain ⟨a, rest, hprog, ha⟩ := isResetAction_of_step hfault hstep ht
    rw [step_of_isResetAction ha hprog] at hstep
    refine ⟨rest, ?_, (Host.Outcome.next.inj hstep).symm⟩
    rcases ha with rfl | ⟨v, rfl, hword⟩
    · exact .inl hprog
    · exact .inr ⟨v, hprog, hword⟩

end Sys2Proof.Machine
end

section
/-! `RESET` (R91, R161): the cells of the unit are the fields of `State.toReset`, empty tables read as zero cells, and an
empty stream has no slot to count. -/

namespace Sys2Proof.Machine

/-! ### What the reset state reads as (R161) -/

@[simp] theorem State.toReset_status (s : State) : s.toReset.status = 0 :=
  calc s.toReset.status
    _ = State.reset.status := rfl
    _ = 0 := by decide

@[simp] theorem State.slotAt_toReset (s : State) (p : Nat) : s.toReset.slotAt p = ⟨0, false, false⟩ := rfl

@[simp] theorem State.coefAt_toReset (s : State) (p q : Nat) : s.toReset.coefAt p q = 0 := rfl

@[simp] theorem State.nsyms_toReset (s : State) : s.toReset.nsyms = 0 := rfl

/-! ### The derived registers (R31 to R37) -/

/-- A unit with an empty stream has no rows (R35). -/
theorem State.rank_eq_zero {s : State} (h : s.nsyms = 0) : s.rank = 0 := by
  have := s.rank_add_missing
  omega

/-- An empty stream has no slot in any of the three states (R35). -/
theorem State.countState_eq_zero {s : State} (h : s.nsyms = 0) (r : RowState) : s.countState r = 0 := by
  have := s.countState_add
  cases r <;> omega

/-- The derived registers of an unconfigured unit with an empty stream read 0. -/
theorem State.readReg_derived_eq_zero {s : State} (hempty : s.nsyms = 0) (hready : s.ready = false) :
    ∀ r ∈ [Reg.rank, .ndec, .npart, .nmiss, .nsyms, .coefbytes], s.readReg r = 0 := by
  simp [State.readReg, State.coefBytesReg, State.rank_eq_zero hempty, State.countState_eq_zero hempty, hempty, hready]

/-! ### The statement -/

/-- Settles O15: `RESET` answers `toReset` with no guard before it, an unconfigured unit with an empty stream. -/
theorem resetClearsEveryCell : Obligations.ResetClearsEveryCell := by
  refine ⟨decode_encode .reset, fun s => ⟨s.toReset, rfl, ?_⟩⟩
  have hderived := State.readReg_derived_eq_zero s.nsyms_toReset s.toReset_ready
  have hcapacity : s.toReset.readReg .capacity = BitVec.ofNat 64 s.cap := rfl
  have hfield : fieldCode s.toReset.field = 0 := rfl
  exact ⟨s.toReset_a0, s.toReset_a1, s.toReset_a2, s.toReset_a3, s.toReset_res, s.toReset_finfo, s.toReset_status,
    s.toReset_ready, s.toReset_fault, s.toReset_adv, s.toReset_cause, s.toReset_fop, hfield, s.toReset_symsize,
    s.toReset_lower, s.toReset_upper, s.toReset_wlower, s.toReset_wsyms, s.toReset_seed, s.slotAt_toReset,
    s.coefAt_toReset, hderived, hcapacity, s.toReset_mem, s.toReset_cap, s.toReset_mapped⟩

end Sys2Proof.Machine
end
